-- ==== Sys2Proof/Word.lean ====
section
/-! DEFINITION. The two word types of the codec core: a byte and a 10-bit input item (00_scope.md R7, 30_encoding.md R73). -/

namespace Sys2Proof

/-- Every stream element, tag, value and buffer entry (00_scope.md R7 BYTE_BITS, R10). -/
abbrev Byte := BitVec 8

/-- One transfer on an input channel: bits 9:8 the kind, bits 7:0 the data (30_encoding.md R73). -/
abbrev ItemWord := BitVec 10

end Sys2Proof
end

