-- ==== Sys2Proof/Syntax.lean ====
section
/-! DEFINITION. The instruction syntax: one constructor per row of spec/opcode_table.json, and the names
of the units, of the encoder's modes and of the FSM state that selects an operation. -/

namespace Sys2Proof

/-- The two units of the core (00_scope.md R1). -/
inductive UnitId where
  | enc
  | dec
deriving DecidableEq, Repr, Inhabited

/-- `enc.mode`: LIT = 0, RUN = 1 (10_state.md R19). -/
inductive EncMode where
  | lit
  | run
deriving DecidableEq, Repr, Inhabited

/-- Who may move next: a unit, or the host that drives the ports (00_scope.md R9 SCHED, R13). -/
inductive Agent where
  | enc
  | dec
  | host
deriving DecidableEq, Repr, Inhabited

/-- The FSM state that, with an item's kind, selects the operation (30_encoding.md R75):
`enc.mode` for ENC, `dec.tag` for DEC (10_state.md R16). -/
inductive FsmState where
  | enc (mode : EncMode)
  | dec (tag : Byte)
deriving DecidableEq, Repr

/-- One constructor per row of spec/opcode_table.json.

The first three are the frames of the wire format, each a whole frame with its payload (30_encoding.md R59 to
R61, R78). The others are the item operations of 30_encoding.md R75, each with the data field of its item;
where the rule says the data is ignored the field is still there, so that no bit of a word is lost. -/
inductive Instr where
  /-- END: the sentinel frame `[0x00]` (R61, R103). -/
  | endFrame
  /-- RUN: the frame `[t, v]`, 0x01 ≤ t ≤ 0x7F (R59, R104, R106). -/
  | run (t v : Byte)
  /-- LIT: the frame `[0x100 - N] ++ p` with N = len p, 1 ≤ N ≤ 128 (R60, R105, R107). -/
  | lit (p : List Byte)
  /-- ENC.BYTE.LIT (R83). -/
  | encByteLit (b : Byte)
  /-- ENC.BYTE.RUN (R85). -/
  | encByteRun (b : Byte)
  /-- ENC.EOS.LIT (R86); the data field d is ignored. -/
  | encEosLit (d : Byte)
  /-- ENC.EOS.RUN (R87); the data field d is ignored. -/
  | encEosRun (d : Byte)
  /-- ENC.RDERR (R88); the data field d is ignored. -/
  | encRderr (d : Byte)
  /-- ENC.RSVD: the reserved kind, handled as RDERR (R74, R88); d is ignored. -/
  | encRsvd (d : Byte)
  /-- DEC.TAG.SENTINEL (R103): the item BYTE(0x00) between frames. -/
  | decTagSentinel
  /-- DEC.TAG.RUN (R104): the item BYTE(t), 0x01 ≤ t ≤ 0x7F, between frames. -/
  | decTagRun (t : Byte)
  /-- DEC.TAG.LIT (R105): the item BYTE(t), t ≥ 0x80, between frames. -/
  | decTagLit (t : Byte)
  /-- DEC.RUNVAL (R106). -/
  | decRunval (b : Byte)
  /-- DEC.LITBYTE (R107). -/
  | decLitbyte (b : Byte)
  /-- DEC.EOS.IDLE (R108); the data field d is ignored. -/
  | decEosIdle (d : Byte)
  /-- DEC.EOS.MID (R109); the data field d is ignored. -/
  | decEosMid (d : Byte)
  /-- DEC.RDERR (R110); the data field d is ignored. -/
  | decRderr (d : Byte)
  /-- DEC.RSVD: the reserved kind, handled as RDERR (R74, R110); d is ignored. -/
  | decRsvd (d : Byte)
deriving DecidableEq, Repr

end Sys2Proof
end

