-- ==== Sys2Proof/Config.lean ====
section
/-! DEFINITION. The fixed parameters of 00_scope.md R7, and the free values of the model: constants without
a body, so that no proof can learn a value of one. -/

namespace Sys2Proof.Config

/-- RUN_MAX: the longest run frame (00_scope.md R7). -/
abbrev runMax : Nat := 127

/-- LIT_MAX: the longest literal frame (00_scope.md R7). -/
abbrev litMax : Nat := 128

/-- BUF_CAP: the capacity of the lookahead buffer (00_scope.md R7). -/
abbrev bufCap : Nat := 129

/-- RUN_MIN_ENC: the shortest run ENC writes (00_scope.md R7). -/
abbrev runMinEnc : Nat := 2

/-- Free value: SCHED, the agent that is offered the move after the n-th one (00_scope.md R9; log entry 5). -/
opaque sched : Nat → Agent

/-- Free value: `enc.mode` in a terminal phase (10_state.md R35; log entry 3). The argument numbers the draw. -/
opaque freeMode : Nat → EncMode

/-- Free value: entry i of `enc.buf` in a terminal phase (10_state.md R35; log entry 3). -/
opaque freeBuf : Nat → Nat → Byte

/-- Free value: `enc.cnt` in a terminal phase (10_state.md R35; log entry 3). -/
opaque freeCnt : Nat → BitVec 8

/-- Free value: `enc.run_val` in a terminal phase (10_state.md R35; log entry 3). -/
opaque freeRunVal : Nat → Byte

/-- Free value: `enc.run_len` in a terminal phase (10_state.md R35; log entry 3). -/
opaque freeRunLen : Nat → BitVec 7

/-- Free value: `dec.tag` in a terminal phase (10_state.md R35; log entry 3). -/
opaque freeTag : Nat → Byte

/-- Free value: `dec.rem` in a terminal phase (10_state.md R35; log entry 3). -/
opaque freeRem : Nat → BitVec 8

end Sys2Proof.Config
end

