-- ==== Sys2Proof/WellFormed.lean ====
section
/-! DEFINITION. Which terms of Instr are instructions: the operand ranges of 30_encoding.md R59, R60, R68 and R75. -/

namespace Sys2Proof

/-- The operand ranges the encodings state. A constructor without a range takes every operand. -/
def Instr.wf : Instr → Bool
  | .endFrame => true
  | .run t _ => decide (1 ≤ t.toNat ∧ t.toNat ≤ Config.runMax)
  | .lit p => decide (1 ≤ p.length ∧ p.length ≤ Config.litMax)
  | .encByteLit _ => true
  | .encByteRun _ => true
  | .encEosLit _ => true
  | .encEosRun _ => true
  | .encRderr _ => true
  | .encRsvd _ => true
  | .decTagSentinel => true
  | .decTagRun t => decide (1 ≤ t.toNat ∧ t.toNat ≤ 0x7F)
  | .decTagLit t => decide (0x80 ≤ t.toNat)
  | .decRunval _ => true
  | .decLitbyte _ => true
  | .decEosIdle _ => true
  | .decEosMid _ => true
  | .decRderr _ => true
  | .decRsvd _ => true

/-- The FSM states in which 30_encoding.md R75 selects an item operation. A frame instruction is no item
operation: DEC reads it between frames (R68), and it is never what an item word decodes to. -/
def Instr.selectedIn : Instr → FsmState → Bool
  | .endFrame, _ => false
  | .run _ _, _ => false
  | .lit _, _ => false
  | .encByteLit _, f => f == .enc .lit
  | .encByteRun _, f => f == .enc .run
  | .encEosLit _, f => f == .enc .lit
  | .encEosRun _, f => f == .enc .run
  | .encRderr _, f => f == .enc .lit || f == .enc .run
  | .encRsvd _, f => f == .enc .lit || f == .enc .run
  | .decTagSentinel, f => f == .dec 0
  | .decTagRun _, f => f == .dec 0
  | .decTagLit _, f => f == .dec 0
  | .decRunval _, .dec t => decide (1 ≤ t.toNat ∧ t.toNat ≤ 0x7F)
  | .decRunval _, .enc _ => false
  | .decLitbyte _, .dec t => decide (0x80 ≤ t.toNat)
  | .decLitbyte _, .enc _ => false
  | .decEosIdle _, f => f == .dec 0
  | .decEosMid _, .dec t => decide (t ≠ 0)
  | .decEosMid _, .enc _ => false
  | .decRderr _, .dec _ => true
  | .decRderr _, .enc _ => false
  | .decRsvd _, .dec _ => true
  | .decRsvd _, .enc _ => false

end Sys2Proof
end

