-- ==== Sys2Proof/Decode.lean ====
section
/-! DEFINITION. The decoders: the item word of 30_encoding.md R73 to R75, the tag dispatch of R68 with the field
assembly of R65 and R66, and the frames of R57 to R62; and after them the encoder of the same tables. -/

namespace Sys2Proof

/-- Field K of a tag: bit 7 (30_encoding.md R58). -/
def tagK (t : Byte) : Bool := t.getLsbD 7

/-- Field C of a tag: bits 6:0 (30_encoding.md R58). -/
def tagC (t : Byte) : BitVec 7 := t.extractLsb' 0 7

/-- The three classes of 30_encoding.md R68. -/
inductive TagClass where
  | sentinel
  | run
  | literal
deriving DecidableEq, Repr

/-- 30_encoding.md R68: SENTINEL takes precedence over RUN at 0x00. -/
def tagClass (t : Byte) : TagClass :=
  if t = 0x00#8 then .sentinel else if tagK t then .literal else .run

/-- 30_encoding.md R65: the count of a run or literal tag. -/
def tagCount (t : Byte) : Nat :=
  if tagK t then 0x100 - t.toNat else (tagC t).toNat

/-- 30_encoding.md R66: the tag of a run of length L. -/
def runTag (len : Nat) : Byte := BitVec.ofNat 8 len

/-- 30_encoding.md R66: the tag of a literal of length N. -/
def litTag (len : Nat) : Byte := BitVec.ofNat 8 (0x100 - len)

/-- The kinds of 30_encoding.md R73, with the reserved kind of R74. -/
inductive ItemKind where
  | byte
  | eos
  | rderr
  | reserved
deriving DecidableEq, Repr

/-- Bits w[9:8] (30_encoding.md R73). -/
def itemKind (w : ItemWord) : ItemKind :=
  let k := w.extractLsb' 8 2
  if k = 0b00#2 then .byte else if k = 0b01#2 then .eos else if k = 0b10#2 then .rderr else .reserved

/-- Bits w[7:0] (30_encoding.md R73). -/
def itemData (w : ItemWord) : Byte := w.extractLsb' 0 8

/-- What ENC's mode makes of an item (30_encoding.md R75). -/
def decodeEnc (m : EncMode) (w : ItemWord) : Instr :=
  match itemKind w, m with
  | .byte, .lit => .encByteLit (itemData w)
  | .byte, .run => .encByteRun (itemData w)
  | .eos, .lit => .encEosLit (itemData w)
  | .eos, .run => .encEosRun (itemData w)
  | .rderr, _ => .encRderr (itemData w)
  | .reserved, _ => .encRsvd (itemData w)

/-- What DEC makes of a BYTE item (41_decoder.md R102): a tag between frames, else a value or payload byte. -/
def decodeDecByte (tag b : Byte) : Instr :=
  match tagClass tag with
  | .sentinel =>
    match tagClass b with
    | .sentinel => .decTagSentinel
    | .run => .decTagRun b
    | .literal => .decTagLit b
  | .run => .decRunval b
  | .literal => .decLitbyte b

/-- What DEC's tag register makes of an item (30_encoding.md R75). -/
def decodeDec (tag : Byte) (w : ItemWord) : Instr :=
  match itemKind w with
  | .byte => decodeDecByte tag (itemData w)
  | .eos => if tag = 0x00#8 then .decEosIdle (itemData w) else .decEosMid (itemData w)
  | .rderr => .decRderr (itemData w)
  | .reserved => .decRsvd (itemData w)

/-- The item decoder: total, since the rows of 30_encoding.md R75 cover every item in every FSM state once. -/
def decode (f : FsmState) (w : ItemWord) : Instr :=
  match f with
  | .enc m => decodeEnc m w
  | .dec t => decodeDec t w

/-- Why a byte list begins with no whole frame. No tag is illegal (30_encoding.md R71), so a list can only be too short. -/
inductive DecodeError where
  /-- The list is empty: no tag. -/
  | noTag
  /-- A run tag with no value byte after it. -/
  | runWithoutValue
  /-- A literal tag with fewer than 0x100 - tag payload bytes after it. -/
  | literalTooShort
deriving DecidableEq, Repr

/-- The frame decoder: the first frame of a byte list, with the rest of the list (30_encoding.md R57, R59 to R61, R69). -/
def decodeFrame : List Byte → Except DecodeError (Instr × List Byte)
  | [] => .error .noTag
  | t :: rest =>
    match tagClass t with
    | .sentinel => .ok (.endFrame, rest)
    | .run =>
      match rest with
      | [] => .error .runWithoutValue
      | v :: rest' => .ok (.run t v, rest')
    | .literal =>
      if rest.length < tagCount t then .error .literalTooShort
      else .ok (.lit (rest.take (tagCount t)), rest.drop (tagCount t))

/-- An item word of a kind and a data field (30_encoding.md R73). -/
def mkItem (k : BitVec 2) (d : Byte) : ItemWord := k ++ d

/-- BYTE(b), written `0x0bb` (30_encoding.md R73). -/
def byteItem (b : Byte) : ItemWord := mkItem 0b00#2 b

/-- EOS, written `0x100` (30_encoding.md R73). -/
def eosItem : ItemWord := mkItem 0b01#2 0x00#8

/-- RDERR, written `0x200` (30_encoding.md R73). -/
def rderrItem : ItemWord := mkItem 0b10#2 0x00#8

/-- The bytes of a frame instruction (30_encoding.md R78); none for an item operation. -/
def frameBytes : Instr → Option (List Byte)
  | .endFrame => some [0x00#8]
  | .run t v => some [t, v]
  | .lit p => some (litTag p.length :: p)
  | .encByteLit _ => none
  | .encByteRun _ => none
  | .encEosLit _ => none
  | .encEosRun _ => none
  | .encRderr _ => none
  | .encRsvd _ => none
  | .decTagSentinel => none
  | .decTagRun _ => none
  | .decTagLit _ => none
  | .decRunval _ => none
  | .decLitbyte _ => none
  | .decEosIdle _ => none
  | .decEosMid _ => none
  | .decRderr _ => none
  | .decRsvd _ => none

/-- The encoder: the item words of an instruction (30_encoding.md R73). A frame instruction is the BYTE items of its
bytes (R80); an item operation is its one item. -/
def encode : Instr → List ItemWord
  | .endFrame => [byteItem 0x00#8]
  | .run t v => [byteItem t, byteItem v]
  | .lit p => byteItem (litTag p.length) :: p.map byteItem
  | .encByteLit b => [byteItem b]
  | .encByteRun b => [byteItem b]
  | .encEosLit d => [mkItem 0b01#2 d]
  | .encEosRun d => [mkItem 0b01#2 d]
  | .encRderr d => [mkItem 0b10#2 d]
  | .encRsvd d => [mkItem 0b11#2 d]
  | .decTagSentinel => [byteItem 0x00#8]
  | .decTagRun t => [byteItem t]
  | .decTagLit t => [byteItem t]
  | .decRunval b => [byteItem b]
  | .decLitbyte b => [byteItem b]
  | .decEosIdle d => [mkItem 0b01#2 d]
  | .decEosMid d => [mkItem 0b01#2 d]
  | .decRderr d => [mkItem 0b10#2 d]
  | .decRsvd d => [mkItem 0b11#2 d]

/-- The bytes of a frame whose tag is w and whose payload bytes are all 0, up to the longest frame (R69: 129 bytes). -/
def zeroPayload (w : Nat) : List Byte :=
  BitVec.ofNat 8 w :: List.replicate Config.litMax 0x00#8

/-- The instruction read from the bits w of a row of spec/opcode_table.json. A row of 8 bits is a tag: the frame it
opens, its payload zeros. A row of 10 bits is an item word, which ALONE does not say which unit takes it, nor in which
FSM state (30_encoding.md R75): it is read as ENC reads it in LIT mode, the unit and state of `State.reset`'s next move (log entry 7). -/
def decodeTableWord (nbits w : Nat) : Option Instr :=
  if nbits = 8 then
    if w < 2 ^ 8 then
      match decodeFrame (zeroPayload w) with
      | .ok (i, _) => some i
      | .error _ => none
    else none
  else if nbits = 10 ∨ nbits = 16 then
    if w < 2 ^ 10 then some (decode (.enc .lit) (BitVec.ofNat 10 w)) else none
  else none

end Sys2Proof
end

