-- ==== Sys2Proof/Machine/State.lean ====
section
/-! DEFINITION. The state of the two units, of their channels and of the host, the reasons a step can stop, and the
state after reset (10_state.md; 70_reset_and_hazards.md R147). -/

namespace Sys2Proof.Machine

/-- `u.phase` (10_state.md R17, R25): the four values of the 2-bit field. -/
inductive Phase where
  /-- ACTIVE = 0: the invocation is running. -/
  | active
  /-- DONE = 1: it ended successfully. -/
  | done
  /-- FAILED = 2: it ended with the error in `u.err`. -/
  | failed
  /-- Value 3, never written (93_implementation_defined.md U17): a unit that holds it faults. -/
  | reserved
deriving DecidableEq, Repr

/-- `u.err` (10_state.md R18, R25; 60_exceptions.md R122): the four values of the 2-bit field. -/
inductive ErrKind where
  /-- NONE = 0. -/
  | none
  /-- InputError = 1. -/
  | inputError
  /-- OutputError = 2. -/
  | outputError
  /-- TruncatedStream = 3. -/
  | truncatedStream
deriving DecidableEq, Repr

/-- What the sink answers to one offered byte (30_encoding.md R76): `out_ready` takes it, `out_err` fails the
transaction and the byte is not delivered. A byte no reply stands for is one the sink has not answered yet. -/
inductive SinkReply where
  | accept
  | fail
deriving DecidableEq, Repr

/-- The lookahead buffer `enc.buf` (10_state.md R20, 20_memory.md R40) as index and byte pairs, indices strictly
rising; an index that is not listed has no value (log entry 1). -/
abbrev Memory := List Host.Cell

/-- The part that each unit u has: its flags, its ghost streams and its two channels. -/
structure UnitIO where
  /-- `u.phase` (10_state.md R17, R25). -/
  phase : Phase
  /-- `u.err` (10_state.md R18, R25). -/
  err : ErrKind
  /-- Ghost `u.IN`: the bytes consumed as BYTE items in this invocation (10_state.md R24). -/
  IN : List Byte
  /-- Ghost `u.OUT`: the bytes the sink accepted in this invocation (10_state.md R24). -/
  OUT : List Byte
  /-- The input channel: the items offered and not yet consumed, the next one first (20_memory.md R37, R38). -/
  inQ : List ItemWord
  /-- The item the unit has consumed and whose transaction the sink has not answered whole, if there is one: the step
  is not complete, and no other item is consumed (20_memory.md R51; 70_reset_and_hazards.md R154). -/
  hand : Option ItemWord
  /-- The output channel's sink: its replies to the bytes of the next transaction, the first byte's first; while an item
  is in hand, those given so far (30_encoding.md R76; log entry 4). -/
  sink : List SinkReply
  /-- Ghost, the model's own: the bytes the sink accepted from u in earlier invocations, each cut short by a reset or
  ended; they stay delivered (70_reset_and_hazards.md R147, R160; log entry 8). -/
  earlier : List Byte
  /-- The model's own: how many times this unit's free values were drawn (log entry 3). -/
  draws : Nat
deriving DecidableEq, Repr

/-- The encoder unit (10_state.md R17 to R24). -/
structure EncUnit where
  io : UnitIO
  /-- `enc.mode` (10_state.md R19). -/
  mode : EncMode
  /-- `enc.buf` (10_state.md R20). -/
  buf : Memory
  /-- `enc.cnt` (10_state.md R21). -/
  cnt : BitVec 8
  /-- `enc.run_val` (10_state.md R22). -/
  runVal : Byte
  /-- `enc.run_len` (10_state.md R23). -/
  runLen : BitVec 7
deriving DecidableEq, Repr

/-- The decoder unit (10_state.md R24 to R27). -/
structure DecUnit where
  io : UnitIO
  /-- `dec.tag` (10_state.md R26). -/
  tag : Byte
  /-- `dec.rem` (10_state.md R27). -/
  rem : BitVec 8
deriving DecidableEq, Repr

/-- What a host can do to a unit (60_exceptions.md R141). Reading the status changes nothing, so it is no action. -/
inductive HostAct where
  /-- Offer an item on u's input channel. -/
  | offer (u : UnitId) (w : ItemWord)
  /-- Answer the next byte that u offers to its sink. -/
  | reply (u : UnitId) (r : SinkReply)
  /-- Assert u's reset for at least one clock edge, and release it (70_reset_and_hazards.md R147, R151). -/
  | reset (u : UnitId)
  /-- Discard the items left in the channel of a unit in a terminal phase (70_reset_and_hazards.md R157). DESIGN
  CHOICE, unsafe: how the host drains or discards them is open; here all at once, and only then (log entry 14). -/
  | discard (u : UnitId)
deriving DecidableEq, Repr

/-- The machine: the two units, which share nothing (10_state.md R14), and what drives them. -/
structure State where
  enc : EncUnit
  dec : DecUnit
  /-- The host's actions still to come, the next one first (60_exceptions.md R141, R142). -/
  host : List HostAct
  /-- SCHED: the agent that is offered the next move (00_scope.md R9; log entry 5). -/
  turn : Agent
  /-- The model's own: how many draws of SCHED were made (log entry 5). -/
  tick : Nat
deriving DecidableEq, Repr

/-- Why a step stops. The spec's three errors are not here: each is a next state (60_exceptions.md R126). -/
inductive Fault where
  /-- An operation was asked of a unit in DONE or FAILED, where no step exists (60_exceptions.md R130). Raised by every
  meaning. Safe. -/
  | terminal
  /-- A unit's phase field holds the value 3 (93_implementation_defined.md U17). Raised by every meaning. Safe: no run writes it. -/
  | phaseReserved
  /-- An operation was asked of an FSM state that does not select it, or of an operand of another tag class
  (30_encoding.md R75). Raised by every meaning but RDERR and RSVD. Safe: a step runs the selected operation. -/
  | notSelected
  /-- A register stands outside the range the operation's rule states for its operands (10_state.md R31, R32;
  40_encoder.md R81 to R87; 41_decoder.md R106, R107). Raised by the operations that state a range. Safe: no run leaves the ranges. -/
  | operandRange
  /-- A read of an `enc.buf` entry that nothing has written (10_state.md R34; U9). Raised by ENC.BYTE.LIT and
  ENC.EOS.LIT. Safe: no run of the rules reaches one. -/
  | bufUnwritten
  /-- An `enc.buf` index above 128, which does not exist (20_memory.md R40). Raised by the buffer accesses. Safe. -/
  | bufIndex
  /-- A unit waits for an item: it has no step until one comes (60_exceptions.md R140, R144). Raised by a unit's move. Safe: stuck. -/
  | noItem
  /-- A unit waits for the sink's answer with these bytes of its transaction not yet taken (60_exceptions.md R140,
  R144; 20_memory.md R51). Raised by the operations that write. Safe: stuck. -/
  | sinkWait (left : List Byte)
  /-- The host has no action to do. Raised by the host's move. Safe: stuck. -/
  | hostIdle
  /-- Raised by step when no agent can move and some unit is ACTIVE: the units wait for the host (60_exceptions.md R144). Safe: stuck. -/
  | waitingForHost
  /-- Raised by step when no agent can move and both units are in DONE or FAILED: the run is over
  (60_exceptions.md R130; 70_reset_and_hazards.md R163). Safe. -/
  | runOver
deriving DecidableEq, Repr

/-- Why an instruction has no meaning. -/
inductive Refusal where
  /-- Raised by exec for an instruction of the opcode table that has no meaning yet. Safe. -/
  | notModelled (mnemonic : String)
deriving DecidableEq, Repr

/-- The flags, ghosts and channels of a unit after power-up reset (10_state.md R33); nothing is offered or answered yet (log entry 4). -/
def UnitIO.reset : UnitIO :=
  { phase := .active, err := .none, IN := [], OUT := [], inQ := [], hand := none, sink := [], earlier := [], draws := 0 }

/-- ENC after reset (10_state.md R33). `run_val` and `run_len` have no reset value in the spec: log entry 2. -/
def EncUnit.reset : EncUnit :=
  { io := UnitIO.reset, mode := .lit, buf := [], cnt := 0, runVal := 0, runLen := 0 }

/-- DEC after reset (10_state.md R33). -/
def DecUnit.reset : DecUnit :=
  { io := UnitIO.reset, tag := 0, rem := 0 }

/-- The machine right after reset of both units. -/
def State.reset : State :=
  { enc := EncUnit.reset, dec := DecUnit.reset, host := [], turn := .enc, tick := 0 }

end Sys2Proof.Machine
end

