-- ==== Sys2Proof/Machine/Ops.lean ====
section
/-! DEFINITION. The operations the rules are written with (00_scope.md R12): MemRead, MemWrite, InRecv, OutWrite,
raise and finish; and how a unit's operation becomes an outcome of the machine. -/

namespace Sys2Proof.Machine

/-- How a unit's operation goes on: to the next statement, or the step has ended (by raise or finish), or the
model stops. -/
inductive Flow (α : Type) where
  | go (a : α)
  | ended (a : α)
  | stop (f : Fault)
deriving DecidableEq, Repr

/-- Run k unless the step has ended: "nothing after the raise in the rule's pseudocode runs" (60_exceptions.md R126). -/
def Flow.bind {α : Type} (x : Flow α) (k : α → Flow α) : Flow α :=
  match x with
  | .go a => k a
  | .ended a => .ended a
  | .stop f => .stop f

/-- The outcome of a step on ENC. DEC, the host and the schedule are untouched (10_state.md R14). -/
def liftEnc (s : State) (x : Flow EncUnit) : Host.Outcome State Fault Refusal :=
  match x with
  | .go u => .next { s with enc := u }
  | .ended u => .next { s with enc := u }
  | .stop f => .fault f

/-- The outcome of a step on DEC. ENC, the host and the schedule are untouched (10_state.md R14). -/
def liftDec (s : State) (x : Flow DecUnit) : Host.Outcome State Fault Refusal :=
  match x with
  | .go u => .next { s with dec := u }
  | .ended u => .next { s with dec := u }
  | .stop f => .fault f

/-- What every operation requires: phase ACTIVE (30_encoding.md R75), the FSM state that selects it (`sel`), and
its operands in the ranges its rule states (`inRange`). -/
def gate {α : Type} (p : Phase) (sel inRange : Bool) (x : Flow α) : Flow α :=
  match p with
  | .active => if sel then (if inRange then x else .stop .operandRange) else .stop .notSelected
  | .done => .stop .terminal
  | .failed => .stop .terminal
  | .reserved => .stop .phaseReserved

/-- The byte listed at index i, if any. -/
def memLookup : Memory → Nat → Option Byte
  | [], _ => none
  | (j, b) :: rest, i => if j = i then some b else memLookup rest i

/-- The list with index i holding b, in rising order. -/
def memInsert : Memory → Nat → Byte → Memory
  | [], i, b => [(i, b)]
  | (j, c) :: rest, i, b =>
    if i < j then (i, b) :: (j, c) :: rest
    else if i = j then (i, b) :: rest
    else (j, c) :: memInsert rest i b

/-- MemRead(i, 1) (00_scope.md R12, 20_memory.md R45). What an unlisted index reads as is decided here: no value, a
fault (10_state.md R34; log entry 1). -/
def memRead (m : Memory) (i : Nat) : Except Fault Byte :=
  if i < Config.bufCap then
    match memLookup m i with
    | some b => .ok b
    | none => .error .bufUnwritten
  else .error .bufIndex

/-- MemWrite(i, 1, b) (00_scope.md R12, 20_memory.md R45). -/
def memWrite (m : Memory) (i : Nat) (b : Byte) : Except Fault Memory :=
  if i < Config.bufCap then .ok (memInsert m i b) else .error .bufIndex

/-- The canonical form of the buffer: indices strictly rising, each below 129. -/
def Memory.wf : Memory → Bool
  | [] => true
  | [(i, _)] => decide (i < Config.bufCap)
  | (i, _) :: (j, b) :: rest => decide (i < j) && Memory.wf ((j, b) :: rest)

/-- What OutWrite answers: OK with the replies left; ERR with how many bytes had been delivered; or no answer yet,
with the bytes not yet taken. -/
inductive WriteResult where
  | ok (rest : List SinkReply)
  | err (sent : Nat) (rest : List SinkReply)
  | wait (left : List Byte)
deriving DecidableEq, Repr

/-- The sink's answer to a transaction, a byte at a time (30_encoding.md R76; 20_memory.md R48). Under ERR the number
of bytes delivered is WR_FAIL_PREFIX, below the transaction's length by construction (00_scope.md R9; D5). -/
def outWrite : List Byte → List SinkReply → WriteResult
  | [], rs => .ok rs
  | b :: bs, [] => .wait (b :: bs)
  | _ :: _, .fail :: rs => .err 0 rs
  | _ :: bs, .accept :: rs =>
    match outWrite bs rs with
    | .ok r => .ok r
    | .err k r => .err (k + 1) r
    | .wait l => .wait l

/-- `raise E()`: the failure entry (60_exceptions.md R126). The unspecified registers are `EncUnit.unspecified`
and `DecUnit.unspecified`. -/
def raise (e : ErrKind) (c : UnitIO) : UnitIO := { c with phase := .failed, err := e }

/-- `finish()`: the success entry (60_exceptions.md R128). -/
def finish (c : UnitIO) : UnitIO := { c with phase := .done, err := .none }

/-- InRecv() returning BYTE(b): b is appended to the ghost IN (10_state.md R24). -/
def recvByte (b : Byte) (c : UnitIO) : UnitIO := { c with IN := c.IN ++ [b] }

/-- OutWrite(s), with OutputError raised when the sink answers ERR: what was delivered is appended to the ghost OUT and
stays there (10_state.md R24; 60_exceptions.md R127). -/
def ioWrite (s : List Byte) (c : UnitIO) : Flow UnitIO :=
  match outWrite s c.sink with
  | .ok rest => .go { c with OUT := c.OUT ++ s, sink := rest }
  | .err k rest => .ended (raise .outputError { c with OUT := c.OUT ++ s.take k, sink := rest })
  | .wait left => .stop (.sinkWait left)

/-- The buffer with a free value in each of its 129 entries. -/
def freeBuffer (n : Nat) : Memory := (List.range Config.bufCap).map fun i => (i, Config.freeBuf n i)

/-- ENC's registers in a terminal phase: every one but phase and err holds a free value (10_state.md R35; log entry 3). -/
def EncUnit.unspecified (u : EncUnit) : EncUnit :=
  { io := { u.io with draws := u.io.draws + 1 }
    mode := Config.freeMode u.io.draws
    buf := freeBuffer u.io.draws
    cnt := Config.freeCnt u.io.draws
    runVal := Config.freeRunVal u.io.draws
    runLen := Config.freeRunLen u.io.draws }

/-- DEC's registers in a terminal phase: every one but phase and err holds a free value (10_state.md R35; log entry 3). -/
def DecUnit.unspecified (u : DecUnit) : DecUnit :=
  { io := { u.io with draws := u.io.draws + 1 }
    tag := Config.freeTag u.io.draws
    rem := Config.freeRem u.io.draws }

/-- `raise E()` in ENC. -/
def encRaise (e : ErrKind) (u : EncUnit) : Flow EncUnit :=
  .ended (EncUnit.unspecified { u with io := raise e u.io })

/-- `raise E()` in DEC. -/
def decRaise (e : ErrKind) (u : DecUnit) : Flow DecUnit :=
  .ended (DecUnit.unspecified { u with io := raise e u.io })

/-- `finish()` in ENC. -/
def encFinish (u : EncUnit) : Flow EncUnit :=
  .ended (EncUnit.unspecified { u with io := finish u.io })

/-- `finish()` in DEC. -/
def decFinish (u : DecUnit) : Flow DecUnit :=
  .ended (DecUnit.unspecified { u with io := finish u.io })

/-- InRecv() returning BYTE(b) in ENC. -/
def encRecv (b : Byte) (u : EncUnit) : EncUnit := { u with io := recvByte b u.io }

/-- InRecv() returning BYTE(b) in DEC. -/
def decRecv (b : Byte) (u : DecUnit) : DecUnit := { u with io := recvByte b u.io }

/-- OutWrite(s) in ENC. -/
def encWrite (s : List Byte) (u : EncUnit) : Flow EncUnit :=
  match ioWrite s u.io with
  | .go c => .go { u with io := c }
  | .ended c => .ended (EncUnit.unspecified { u with io := c })
  | .stop f => .stop f

/-- OutWrite(s) in DEC. -/
def decWrite (s : List Byte) (u : DecUnit) : Flow DecUnit :=
  match ioWrite s u.io with
  | .go c => .go { u with io := c }
  | .ended c => .ended (DecUnit.unspecified { u with io := c })
  | .stop f => .stop f

end Sys2Proof.Machine
end

