-- ==== Sys2Proof/Machine/Operands.lean ====
section
/-! DEFINITION. The operand forms: spans of the lookahead buffer, the pair of bytes the run-start check compares,
and the pending input (00_scope.md R12; 10_state.md R30; 30_encoding.md R67). -/

namespace Sys2Proof.Machine

/-- The n entries from index i on: the list `enc.buf[i..i+n)` (00_scope.md R12). -/
def memSpan (m : Memory) : Nat → Nat → Except Fault (List Byte)
  | _, 0 => .ok []
  | i, n + 1 =>
    match memRead m i with
    | .error f => .error f
    | .ok b =>
      match memSpan m (i + 1) n with
      | .error f => .error f
      | .ok bs => .ok (b :: bs)

/-- The run-start condition with c bytes buffered: c ≥ 2 and the two most recently buffered bytes are equal
(40_encoder.md R83, R101). -/
def lastPairEqual (m : Memory) (c : Nat) : Except Fault Bool :=
  if c < 2 then .ok false
  else
    match memRead m (c - 1) with
    | .error f => .error f
    | .ok x =>
      match memRead m (c - 2) with
      | .error f => .error f
      | .ok y => .ok (x == y)

/-- The pending input of ENC (10_state.md R30): `enc.buf[0..enc.cnt)` in LIT mode, the run in RUN mode. -/
def EncUnit.pending (u : EncUnit) : Except Fault (List Byte) :=
  match u.mode with
  | .lit => memSpan u.buf 0 u.cnt.toNat
  | .run => .ok (List.replicate u.runLen.toNat u.runVal)

end Sys2Proof.Machine
end

