-- ==== Sys2Proof/Machine/Flags.lean ====
section
/-! DEFINITION. The flags: the codes of phase and err, and the status and done outputs (10_state.md R17, R18, R28;
30_encoding.md R76, R77). -/

namespace Sys2Proof.Machine

/-- The code of `u.phase` (10_state.md R17). -/
def Phase.code : Phase → BitVec 2
  | .active => 0
  | .done => 1
  | .failed => 2
  | .reserved => 3

/-- The code of `u.err` (10_state.md R18; 60_exceptions.md R122). -/
def ErrKind.code : ErrKind → BitVec 2
  | .none => 0
  | .inputError => 1
  | .outputError => 2
  | .truncatedStream => 3

/-- The flags, ghosts and channels of unit u. -/
def State.io (s : State) : UnitId → UnitIO
  | .enc => s.enc.io
  | .dec => s.dec.io

/-- A phase in which no step exists (00_scope.md R13; 60_exceptions.md R130). -/
def Phase.isTerminal : Phase → Bool
  | .active => false
  | .done => true
  | .failed => true
  | .reserved => false

/-- The `status` output: phase in bits 3:2, err in bits 1:0 (30_encoding.md R77). -/
def status (u : UnitId) (s : State) : BitVec 4 := (s.io u).phase.code ++ (s.io u).err.code

/-- The `done` output: 1 when phase is DONE or FAILED (30_encoding.md R76; 60_exceptions.md R133). -/
def doneOut (u : UnitId) (s : State) : Bool := (s.io u).phase.isTerminal

end Sys2Proof.Machine
end

