-- ==== Sys2Proof/Machine/Encoder.lean ====
section
/-! DEFINITION. The encoder unit: frame emission and the six operations of ENC (40_encoder.md R81 to R88). -/

namespace Sys2Proof.Machine

/-- EmitRun(L, v) (40_encoder.md R81). -/
def emitRun (len : Nat) (v : Byte) (u : EncUnit) : Flow EncUnit :=
  if Config.runMinEnc ≤ len ∧ len ≤ Config.runMax then encWrite [runTag len, v] u
  else .stop .operandRange

/-- EmitLit(s) (40_encoder.md R82). -/
def emitLit (s : List Byte) (u : EncUnit) : Flow EncUnit :=
  if 1 ≤ s.length ∧ s.length ≤ Config.litMax then encWrite (litTag s.length :: s) u
  else .stop .operandRange

/-- `if n > 0: EmitLit(enc.buf[0..n))`: a literal of length 0 is never written (40_encoder.md R83, R86, R89). -/
def flushFirst (n : Nat) (u : EncUnit) : Flow EncUnit :=
  if n = 0 then .go u
  else
    match memSpan u.buf 0 n with
    | .error f => .stop f
    | .ok s => emitLit s u

/-- The run-start branch of R83 with c bytes buffered, the last of them b: flush the c - 2 before the pair, enter RUN. -/
def runStart (b : Byte) (c : Nat) (u : EncUnit) : Flow EncUnit :=
  (flushFirst (c - 2) u).bind fun u =>
    .go { u with runVal := b, runLen := 2, mode := .run, cnt := 0 }

/-- The full-buffer branch of R83: flush the first 128 bytes, keep the 129th. -/
def fullBuffer (u : EncUnit) : Flow EncUnit :=
  (flushFirst Config.litMax u).bind fun u =>
    match memRead u.buf Config.litMax with
    | .error f => .stop f
    | .ok x =>
      match memWrite u.buf 0 x with
      | .error f => .stop f
      | .ok m => .go { u with buf := m, cnt := 1 }

/-- The body of R83 after InRecv: append b, then the run-start check first and the full-buffer check second (R84). -/
def appendByte (b : Byte) (u : EncUnit) : Flow EncUnit :=
  match memWrite u.buf u.cnt.toNat b with
  | .error f => .stop f
  | .ok m =>
    match lastPairEqual m (u.cnt.toNat + 1) with
    | .error f => .stop f
    | .ok true => runStart b (u.cnt.toNat + 1) { u with buf := m, cnt := u.cnt + 1 }
    | .ok false =>
      if u.cnt.toNat + 1 = Config.bufCap then fullBuffer { u with buf := m, cnt := u.cnt + 1 }
      else .go { u with buf := m, cnt := u.cnt + 1 }

/-- The body of R85 after InRecv. -/
def extendRun (b : Byte) (u : EncUnit) : Flow EncUnit :=
  if b = u.runVal then
    if u.runLen.toNat + 1 = Config.runMax then
      (emitRun Config.runMax u.runVal { u with runLen := u.runLen + 1 }).bind fun u =>
        .go { u with mode := .lit, cnt := 0 }
    else .go { u with runLen := u.runLen + 1 }
  else
    (emitRun u.runLen.toNat u.runVal u).bind fun u =>
      match memWrite u.buf 0 b with
      | .error f => .stop f
      | .ok m => .go { u with mode := .lit, buf := m, cnt := 1 }

/-- The operand range of the LIT operations: `enc.cnt` is 0 to 128 on entry (40_encoder.md R83, R86). -/
def litInRange (u : EncUnit) : Bool := decide (u.cnt.toNat ≤ Config.litMax)

/-- The operand range of the RUN operations: `enc.run_len` is 2 to 126 on entry (40_encoder.md R85, R87). -/
def runInRange (u : EncUnit) : Bool := decide (2 ≤ u.runLen.toNat ∧ u.runLen.toNat ≤ 126)

/-- ENC.BYTE.LIT (40_encoder.md R83). -/
def encByteLit (b : Byte) (u : EncUnit) : Flow EncUnit :=
  gate u.io.phase (u.mode == .lit) (litInRange u) (appendByte b (encRecv b u))

/-- ENC.BYTE.RUN (40_encoder.md R85). -/
def encByteRun (b : Byte) (u : EncUnit) : Flow EncUnit :=
  gate u.io.phase (u.mode == .run) (runInRange u) (extendRun b (encRecv b u))

/-- ENC.EOS.LIT (40_encoder.md R86). -/
def encEosLit (u : EncUnit) : Flow EncUnit :=
  gate u.io.phase (u.mode == .lit) (litInRange u) ((flushFirst u.cnt.toNat u).bind encFinish)

/-- ENC.EOS.RUN (40_encoder.md R87). -/
def encEosRun (u : EncUnit) : Flow EncUnit :=
  gate u.io.phase (u.mode == .run) (runInRange u) ((emitRun u.runLen.toNat u.runVal u).bind encFinish)

/-- ENC.RDERR (40_encoder.md R88): the pending bytes are discarded unwritten. -/
def encRderr (u : EncUnit) : Flow EncUnit :=
  gate u.io.phase true true (encRaise .inputError u)

/-- The meaning of ENC.BYTE.LIT (40_encoder.md R83). -/
def execEncByteLit (b : Byte) (s : State) : Host.Outcome State Fault Refusal := liftEnc s (encByteLit b s.enc)

/-- The meaning of ENC.BYTE.RUN (40_encoder.md R85). -/
def execEncByteRun (b : Byte) (s : State) : Host.Outcome State Fault Refusal := liftEnc s (encByteRun b s.enc)

/-- The meaning of ENC.EOS.LIT (40_encoder.md R86). -/
def execEncEosLit (s : State) : Host.Outcome State Fault Refusal := liftEnc s (encEosLit s.enc)

/-- The meaning of ENC.EOS.RUN (40_encoder.md R87). -/
def execEncEosRun (s : State) : Host.Outcome State Fault Refusal := liftEnc s (encEosRun s.enc)

/-- The meaning of ENC.RDERR (40_encoder.md R88). -/
def execEncRderr (s : State) : Host.Outcome State Fault Refusal := liftEnc s (encRderr s.enc)

/-- The meaning of ENC.RSVD: handled exactly as RDERR (30_encoding.md R74). -/
def execEncRsvd (s : State) : Host.Outcome State Fault Refusal := liftEnc s (encRderr s.enc)

end Sys2Proof.Machine
end

