-- ==== Sys2Proof/Machine/Decoder.lean ====
section
/-! DEFINITION. The decoder unit: the nine operations of DEC (41_decoder.md R102 to R110). -/

namespace Sys2Proof.Machine

/-- DEC is between frames: `dec.tag` = 0 (10_state.md R26). -/
def betweenFrames (u : DecUnit) : Bool := decide (u.tag = 0x00#8)

/-- DEC.TAG.SENTINEL (41_decoder.md R103). -/
def decTagSentinel (u : DecUnit) : Flow DecUnit :=
  gate u.io.phase (betweenFrames u) true (decFinish (decRecv 0x00#8 u))

/-- DEC.TAG.RUN (41_decoder.md R104). -/
def decTagRun (t : Byte) (u : DecUnit) : Flow DecUnit :=
  gate u.io.phase (betweenFrames u && tagClass t == .run) true
    (.go { decRecv t u with tag := t, rem := BitVec.ofNat 8 (tagCount t) })

/-- DEC.TAG.LIT (41_decoder.md R105). -/
def decTagLit (t : Byte) (u : DecUnit) : Flow DecUnit :=
  gate u.io.phase (betweenFrames u && tagClass t == .literal) true
    (.go { decRecv t u with tag := t, rem := BitVec.ofNat 8 (tagCount t) })

/-- DEC.RUNVAL (41_decoder.md R106): one item is consumed and its byte written `dec.rem` times, in one transaction. -/
def decRunval (b : Byte) (u : DecUnit) : Flow DecUnit :=
  gate u.io.phase (tagClass u.tag == .run) (decide (u.rem = u.tag))
    ((decWrite (List.replicate u.rem.toNat b) (decRecv b u)).bind fun u => .go { u with rem := 0, tag := 0 })

/-- DEC.LITBYTE (41_decoder.md R107). -/
def decLitbyte (b : Byte) (u : DecUnit) : Flow DecUnit :=
  gate u.io.phase (tagClass u.tag == .literal) (decide (1 ≤ u.rem.toNat ∧ u.rem.toNat ≤ Config.litMax))
    ((decWrite [b] (decRecv b u)).bind fun u =>
      .go { u with rem := u.rem - 1, tag := if u.rem - 1 = 0x00#8 then 0x00#8 else u.tag })

/-- DEC.EOS.IDLE (41_decoder.md R108). -/
def decEosIdle (u : DecUnit) : Flow DecUnit :=
  gate u.io.phase (betweenFrames u) true (decFinish u)

/-- DEC.EOS.MID (41_decoder.md R109). -/
def decEosMid (u : DecUnit) : Flow DecUnit :=
  gate u.io.phase (!betweenFrames u) true (decRaise .truncatedStream u)

/-- DEC.RDERR (41_decoder.md R110): InputError in mid-frame too (60_exceptions.md R125). -/
def decRderr (u : DecUnit) : Flow DecUnit :=
  gate u.io.phase true true (decRaise .inputError u)

/-- The meaning of DEC.TAG.SENTINEL (41_decoder.md R103). -/
def execDecTagSentinel (s : State) : Host.Outcome State Fault Refusal := liftDec s (decTagSentinel s.dec)

/-- The meaning of DEC.TAG.RUN (41_decoder.md R104). -/
def execDecTagRun (t : Byte) (s : State) : Host.Outcome State Fault Refusal := liftDec s (decTagRun t s.dec)

/-- The meaning of DEC.TAG.LIT (41_decoder.md R105). -/
def execDecTagLit (t : Byte) (s : State) : Host.Outcome State Fault Refusal := liftDec s (decTagLit t s.dec)

/-- The meaning of DEC.RUNVAL (41_decoder.md R106). -/
def execDecRunval (b : Byte) (s : State) : Host.Outcome State Fault Refusal := liftDec s (decRunval b s.dec)

/-- The meaning of DEC.LITBYTE (41_decoder.md R107). -/
def execDecLitbyte (b : Byte) (s : State) : Host.Outcome State Fault Refusal := liftDec s (decLitbyte b s.dec)

/-- The meaning of DEC.EOS.IDLE (41_decoder.md R108). -/
def execDecEosIdle (s : State) : Host.Outcome State Fault Refusal := liftDec s (decEosIdle s.dec)

/-- The meaning of DEC.EOS.MID (41_decoder.md R109). -/
def execDecEosMid (s : State) : Host.Outcome State Fault Refusal := liftDec s (decEosMid s.dec)

/-- The meaning of DEC.RDERR (41_decoder.md R110). -/
def execDecRderr (s : State) : Host.Outcome State Fault Refusal := liftDec s (decRderr s.dec)

/-- The meaning of DEC.RSVD: handled exactly as RDERR (30_encoding.md R74). -/
def execDecRsvd (s : State) : Host.Outcome State Fault Refusal := liftDec s (decRderr s.dec)

end Sys2Proof.Machine
end

