-- ==== Sys2Proof/Machine/Frames.lean ====
section
/-! DEFINITION. The wire frames END, RUN and LIT as DEC executes them, a whole frame each: the tag's operation, then
the operation of each payload byte (30_encoding.md R59 to R61, R68; 41_decoder.md R102 to R107). -/

namespace Sys2Proof.Machine

/-- The payload bytes of a literal frame, one DEC.LITBYTE each; after a failure no further byte is consumed (41_decoder.md R112). -/
def decPayload : List Byte → DecUnit → Flow DecUnit
  | [], u => .go u
  | b :: bs, u => (decLitbyte b u).bind (decPayload bs)

/-- The frame `[0x00]`: DEC.TAG.SENTINEL (30_encoding.md R61). -/
def decEndFrame (u : DecUnit) : Flow DecUnit := decTagSentinel u

/-- The frame `[t, v]`: DEC.TAG.RUN, then DEC.RUNVAL (30_encoding.md R59). -/
def decRunFrame (t v : Byte) (u : DecUnit) : Flow DecUnit := (decTagRun t u).bind (decRunval v)

/-- The frame `[0x100 - N] ++ p`: DEC.TAG.LIT, then DEC.LITBYTE for each payload byte (30_encoding.md R60). A payload
whose length no tag stands for is no frame, and is not selected. -/
def decLitFrame (p : List Byte) (u : DecUnit) : Flow DecUnit :=
  if 1 ≤ p.length ∧ p.length ≤ Config.litMax then (decTagLit (litTag p.length) u).bind (decPayload p)
  else .stop .notSelected

/-- The meaning of the frame END (30_encoding.md R61; 41_decoder.md R103). -/
def execEndFrame (s : State) : Host.Outcome State Fault Refusal := liftDec s (decEndFrame s.dec)

/-- The meaning of the frame RUN t v (30_encoding.md R59; 41_decoder.md R104, R106). -/
def execRun (t v : Byte) (s : State) : Host.Outcome State Fault Refusal := liftDec s (decRunFrame t v s.dec)

/-- The meaning of the frame LIT p (30_encoding.md R60; 41_decoder.md R105, R107). -/
def execLit (p : List Byte) (s : State) : Host.Outcome State Fault Refusal := liftDec s (decLitFrame p s.dec)

end Sys2Proof.Machine
end

