-- ==== Sys2Proof/Machine/Dispatch.lean ====
section
/-! DEFINITION. One arm per constructor of Instr, each a direct call of its meaning. -/

namespace Sys2Proof.Machine

def exec (i : Instr) (s : State) : Host.Outcome State Fault Refusal :=
  match i with
  -- the wire frames (30_encoding.md R59 to R61)
  | .endFrame => Sys2Proof.Machine.execEndFrame s
  | .run t v => Sys2Proof.Machine.execRun t v s
  | .lit p => Sys2Proof.Machine.execLit p s
  -- ENC (40_encoder.md R83 to R88); a data field that the rule ignores is not passed on (70_reset_and_hazards.md R161)
  | .encByteLit b => Sys2Proof.Machine.execEncByteLit b s
  | .encByteRun b => Sys2Proof.Machine.execEncByteRun b s
  | .encEosLit _ => Sys2Proof.Machine.execEncEosLit s
  | .encEosRun _ => Sys2Proof.Machine.execEncEosRun s
  | .encRderr _ => Sys2Proof.Machine.execEncRderr s
  | .encRsvd _ => Sys2Proof.Machine.execEncRsvd s
  -- DEC (41_decoder.md R103 to R110)
  | .decTagSentinel => Sys2Proof.Machine.execDecTagSentinel s
  | .decTagRun t => Sys2Proof.Machine.execDecTagRun t s
  | .decTagLit t => Sys2Proof.Machine.execDecTagLit t s
  | .decRunval b => Sys2Proof.Machine.execDecRunval b s
  | .decLitbyte b => Sys2Proof.Machine.execDecLitbyte b s
  | .decEosIdle _ => Sys2Proof.Machine.execDecEosIdle s
  | .decEosMid _ => Sys2Proof.Machine.execDecEosMid s
  | .decRderr _ => Sys2Proof.Machine.execDecRderr s
  | .decRsvd _ => Sys2Proof.Machine.execDecRsvd s

end Sys2Proof.Machine
end

