-- ==== Sys2Proof/Machine/Wire.lean ====
section
/-! DEFINITION. The wire format as a pure function: decode(s) of 30_encoding.md R64, written apart from the DEC unit;
and the frame notation, REP and programs of R78 to R80. -/

namespace Sys2Proof.Machine

/-- The result of decode(s) (30_encoding.md R64). -/
inductive WireResult where
  | ok
  | truncated
deriving DecidableEq, Repr

/-- What decode(s) returns: the decoded bytes, the result, and how many bytes of s are consumed (30_encoding.md R64). -/
structure WireDecoded where
  out : List Byte
  result : WireResult
  used : Nat
deriving DecidableEq, Repr

/-- The decoding of a frame put before the decoding of what follows it. -/
def WireDecoded.after (out : List Byte) (used : Nat) (d : WireDecoded) : WireDecoded :=
  { out := out ++ d.out, result := d.result, used := used + d.used }

/-- The loop of 30_encoding.md R64, a frame a turn. Each turn consumes a byte, so len(s) turns and one more are enough. -/
def wireLoop : Nat → List Byte → WireDecoded
  | 0, _ => { out := [], result := .ok, used := 0 }
  | _ + 1, [] => { out := [], result := .ok, used := 0 }
  | fuel + 1, t :: rest =>
    match tagClass t with
    | .sentinel => { out := [], result := .ok, used := 1 }
    | .run =>
      match rest with
      | [] => { out := [], result := .truncated, used := 1 }
      | v :: rest' => (wireLoop fuel rest').after (List.replicate (tagCount t) v) 2
    | .literal =>
      if rest.length < tagCount t then { out := rest, result := .truncated, used := rest.length + 1 }
      else (wireLoop fuel (rest.drop (tagCount t))).after (rest.take (tagCount t)) (tagCount t + 1)

/-- decode(s) (30_encoding.md R64). -/
def wireDecode (s : List Byte) : WireDecoded := wireLoop (s.length + 1) s

/-- The bytes of a frame stream; an item operation has none (30_encoding.md R57, R78). -/
def framesBytes (fs : List Instr) : List Byte := fs.flatMap fun i => (frameBytes i).getD []

/-- What a frame decodes to (30_encoding.md R59 to R61); nothing for an item operation. -/
def frameOut : Instr → List Byte
  | .endFrame => []
  | .run t v => List.replicate t.toNat v
  | .lit p => p
  | .encByteLit _ => []
  | .encByteRun _ => []
  | .encEosLit _ => []
  | .encEosRun _ => []
  | .encRderr _ => []
  | .encRsvd _ => []
  | .decTagSentinel => []
  | .decTagRun _ => []
  | .decTagLit _ => []
  | .decRunval _ => []
  | .decLitbyte _ => []
  | .decEosIdle _ => []
  | .decEosMid _ => []
  | .decRderr _ => []
  | .decRsvd _ => []

/-- What a frame stream decodes to. -/
def framesOut (fs : List Instr) : List Byte := fs.flatMap frameOut

/-- A frame of the stream grammar: a run frame or a literal frame in its range, the sentinel is none (30_encoding.md R57). -/
def isDataFrame : Instr → Bool
  | .endFrame => false
  | .run t v => (Instr.run t v).wf
  | .lit p => (Instr.lit p).wf
  | .encByteLit _ => false
  | .encByteRun _ => false
  | .encEosLit _ => false
  | .encEosRun _ => false
  | .encRderr _ => false
  | .encRsvd _ => false
  | .decTagSentinel => false
  | .decTagRun _ => false
  | .decTagLit _ => false
  | .decRunval _ => false
  | .decLitbyte _ => false
  | .decEosIdle _ => false
  | .decEosMid _ => false
  | .decRderr _ => false
  | .decRsvd _ => false

/-- The pseudo-instruction REP n, v (30_encoding.md R79). -/
def repFrames (n : Nat) (v : Byte) : List Instr :=
  List.replicate (n / Config.runMax) (.run (runTag Config.runMax) v) ++
    (if 2 ≤ n % Config.runMax then [.run (runTag (n % Config.runMax)) v]
     else if n % Config.runMax = 1 then [.lit [v]] else [])

/-- A program of BYTE items and then EOS (30_encoding.md R80). -/
def byteProgram (s : List Byte) : List ItemWord := s.map byteItem ++ [eosItem]

/-- No two adjacent bytes are equal (10_state.md R31; 40_encoder.md R95). -/
def noAdjacentEqual : List Byte → Bool
  | [] => true
  | [_] => true
  | a :: b :: rest => a != b && noAdjacentEqual (b :: rest)

/-- A frame ENC may write: a run of at least 2, or a literal with no two adjacent bytes equal (30_encoding.md R70;
40_encoder.md R93, R95). -/
def isEncFrame : Instr → Bool
  | .endFrame => false
  | .run t v => isDataFrame (.run t v) && decide (Config.runMinEnc ≤ t.toNat)
  | .lit p => isDataFrame (.lit p) && noAdjacentEqual p
  | .encByteLit _ => false
  | .encByteRun _ => false
  | .encEosLit _ => false
  | .encEosRun _ => false
  | .encRderr _ => false
  | .encRsvd _ => false
  | .decTagSentinel => false
  | .decTagRun _ => false
  | .decTagLit _ => false
  | .decRunval _ => false
  | .decLitbyte _ => false
  | .decEosIdle _ => false
  | .decEosMid _ => false
  | .decRderr _ => false
  | .decRsvd _ => false

end Sys2Proof.Machine
end

