-- ==== Sys2Proof/Machine/Streams.lean ====
section
/-! DEFINITION. A unit taking an item, and a stream of items: the item's kind and the FSM state select the
operation (30_encoding.md R75; 00_scope.md R12). -/

namespace Sys2Proof.Machine

/-- The FSM state of a unit (10_state.md R16). -/
def State.fsm (s : State) : UnitId → FsmState
  | .enc => .enc s.enc.mode
  | .dec => .dec s.dec.tag

/-- One step of unit u on the item w: the selected operation runs (30_encoding.md R75). -/
def feedItem (u : UnitId) (w : ItemWord) (s : State) : Host.Outcome State Fault Refusal :=
  exec (decode (s.fsm u) w) s

/-- The steps of unit u on a stream of items, until the stream or the invocation ends. Items after a terminal phase
are not consumed (60_exceptions.md R130). -/
def feed (u : UnitId) : List ItemWord → State → Host.Outcome State Fault Refusal
  | [], s => .next s
  | w :: ws, s =>
    match feedItem u w s with
    | .next t => if (t.io u).phase.isTerminal then .next t else feed u ws t
    | .fault f => .fault f
    | .refused r => .refused r

end Sys2Proof.Machine
end

