-- ==== Sys2Proof/Machine/Fetch.lean ====
section
/-! DEFINITION. The moves of the three agents: a unit takes the next item of its channel, the host does its next
action; and SCHED, which says who moves (00_scope.md R9; 20_memory.md R51, R53; 60_exceptions.md R141). -/

namespace Sys2Proof.Machine

/-- The state with q as unit u's input channel. -/
def State.setInQ (s : State) (u : UnitId) (q : List ItemWord) : State :=
  match u with
  | .enc => { s with enc := { s.enc with io := { s.enc.io with inQ := q } } }
  | .dec => { s with dec := { s.dec with io := { s.dec.io with inQ := q } } }

/-- The state with h as the item unit u has in hand. -/
def State.setHand (s : State) (u : UnitId) (h : Option ItemWord) : State :=
  match u with
  | .enc => { s with enc := { s.enc with io := { s.enc.io with hand := h } } }
  | .dec => { s with dec := { s.dec with io := { s.dec.io with hand := h } } }

/-- The state with rs as unit u's sink replies. -/
def State.setSink (s : State) (u : UnitId) (rs : List SinkReply) : State :=
  match u with
  | .enc => { s with enc := { s.enc with io := { s.enc.io with sink := rs } } }
  | .dec => { s with dec := { s.dec with io := { s.dec.io with sink := rs } } }

/-- Why a unit with an empty channel has no step: it waits for an item, or it is over (60_exceptions.md R130, R140). -/
def idleFault : Phase → Fault
  | .active => .noItem
  | .done => .terminal
  | .failed => .terminal
  | .reserved => .phaseReserved

/-- The bytes of its transaction that a unit still waits for the sink to take, where the fault is that wait. -/
def Fault.untaken : Fault → Option (List Byte)
  | .sinkWait left => some left
  | .terminal => none
  | .phaseReserved => none
  | .notSelected => none
  | .operandRange => none
  | .bufUnwritten => none
  | .bufIndex => none
  | .noItem => none
  | .hostIdle => none
  | .waitingForHost => none
  | .runOver => none

/-- Unit u consumes the item w (00_scope.md R12, InRecv). Its step is complete at once where its transaction, if it has
one, is answered; else the item is in hand and the step waits for the sink (20_memory.md R51). -/
def takeItem (u : UnitId) (w : ItemWord) (s : State) : Host.Outcome State Fault Refusal :=
  match feedItem u w s with
  | .next t => .next t
  | .fault f => if f.untaken.isSome then .next (s.setHand u (some w)) else .fault f
  | .refused r => .refused r

/-- Unit u goes on with the item w it has in hand: the step is complete where the sink has answered. -/
def resumeItem (u : UnitId) (w : ItemWord) (s : State) : Host.Outcome State Fault Refusal :=
  match feedItem u w s with
  | .next t => .next (t.setHand u none)
  | .fault f => .fault f
  | .refused r => .refused r

/-- The move of unit u: go on with the item in hand, else consume the next one of the channel (20_memory.md R44, R49,
R51). A unit in a terminal phase consumes nothing (60_exceptions.md R130), nor does one whose sink has not answered
(70_reset_and_hazards.md R154). -/
def unitMove (u : UnitId) (s : State) : Host.Outcome State Fault Refusal :=
  match (s.io u).hand with
  | some w => resumeItem u w s
  | none =>
    match (s.io u).inQ with
    | [] => .fault (idleFault (s.io u).phase)
    | w :: q =>
      match takeItem u w s with
      | .next t => .next (t.setInQ u q)
      | .fault f => .fault f
      | .refused r => .refused r

/-- The bytes of unit u's outstanding transaction that the sink has not taken, if it has one (20_memory.md R51;
70_reset_and_hazards.md R154). -/
def outstanding (u : UnitId) (s : State) : Option (List Byte) :=
  match (s.io u).hand with
  | none => none
  | some w =>
    match feedItem u w s with
    | .next _ => none
    | .fault f => f.untaken
    | .refused _ => none

/-- Unit u's ghost streams IN and OUT with the step in progress counted (10_state.md R24): where an item is in hand, the
item's byte and the bytes the sink has taken, that is what a failure of the next byte would leave (20_memory.md R48). -/
def streamsNow (u : UnitId) (s : State) : List Byte × List Byte :=
  match (s.io u).hand with
  | none => ((s.io u).IN, (s.io u).OUT)
  | some w =>
    match feedItem u w (s.setSink u ((s.io u).sink ++ [.fail])) with
    | .next t => ((t.io u).IN, (t.io u).OUT)
    | .fault _ => ((s.io u).IN, (s.io u).OUT)
    | .refused _ => ((s.io u).IN, (s.io u).OUT)

/-- A step that waits for the sink is complete as soon as the sink has answered: in the move that gives the last
reply, not later (20_memory.md R51). -/
def settle (u : UnitId) (s : State) : State :=
  match (s.io u).hand with
  | none => s
  | some w =>
    match resumeItem u w s with
    | .next t => t
    | .fault _ => s
    | .refused _ => s

/-- The flags, ghosts and channels of a unit after its reset in the middle of a run (70_reset_and_hazards.md R147, R160):
an outstanding transaction is dropped with the item in hand and the replies it used; what was delivered stays
delivered, and no item leaves the channel. DESIGN CHOICE (log entry 8): replies given ahead of any byte stay too. -/
def UnitIO.restart (c : UnitIO) (delivered : List Byte) : UnitIO :=
  { UnitIO.reset with
    inQ := c.inQ
    sink := if c.hand.isSome then [] else c.sink
    earlier := c.earlier ++ delivered
    draws := c.draws }

/-- Unit u's reset (70_reset_and_hazards.md R147): the other unit is untouched. -/
def resetUnit (u : UnitId) (s : State) : State :=
  match u with
  | .enc => { s with enc := { EncUnit.reset with io := s.enc.io.restart (streamsNow .enc s).2 } }
  | .dec => { s with dec := { DecUnit.reset with io := s.dec.io.restart (streamsNow .dec s).2 } }

/-- The items left in the channel of a unit in a terminal phase are discarded (70_reset_and_hazards.md R157). DESIGN
CHOICE, unsafe: the whole channel, and nothing while the unit is ACTIVE (log entry 14). -/
def discardItems (u : UnitId) (s : State) : State :=
  if (s.io u).phase.isTerminal then s.setInQ u [] else s

/-- What a host action does (60_exceptions.md R141; 70_reset_and_hazards.md R157). -/
def doAct (a : HostAct) (s : State) : State :=
  match a with
  | .offer u w => s.setInQ u ((s.io u).inQ ++ [w])
  | .reply u r => settle u (s.setSink u ((s.io u).sink ++ [r]))
  | .reset u => resetUnit u s
  | .discard u => discardItems u s

/-- The move of the host: its next action, if it has one. -/
def hostMove (s : State) : Host.Outcome State Fault Refusal :=
  match s.host with
  | [] => .fault .hostIdle
  | a :: rest => .next (doAct a { s with host := rest })

/-- The move of an agent. -/
def agentMove (a : Agent) (s : State) : Host.Outcome State Fault Refusal :=
  match a with
  | .enc => unitMove .enc s
  | .dec => unitMove .dec s
  | .host => hostMove s

/-- The faults that say an agent has no step now, and nothing is wrong (60_exceptions.md R130, R140, R144). -/
def Fault.isWait : Fault → Bool
  | .terminal => true
  | .noItem => true
  | .sinkWait _ => true
  | .hostIdle => true
  | .phaseReserved => false
  | .notSelected => false
  | .operandRange => false
  | .bufUnwritten => false
  | .bufIndex => false
  | .waitingForHost => false
  | .runOver => false

/-- Why no agent can move: the run is over, or it waits for the host (60_exceptions.md R130, R144; 70_reset_and_hazards.md R163). -/
def stuckFault (s : State) : Fault :=
  if s.enc.io.phase.isTerminal && s.dec.io.phase.isTerminal then .runOver else .waitingForHost

/-- The agents in the order they are offered the move: the one whose turn it is, then the others. -/
def moveOrder : Agent → List Agent
  | .enc => [.enc, .dec, .host]
  | .dec => [.dec, .host, .enc]
  | .host => [.host, .enc, .dec]

/-- The move of the first agent of the list that has one: any interleaving of the agents that can move (20_memory.md R53). -/
def firstMove : List Agent → State → Host.Outcome State Fault Refusal
  | [], s => .fault (stuckFault s)
  | a :: rest, s =>
    match agentMove a s with
    | .next t => .next t
    | .fault f => if f.isWait then firstMove rest s else .fault f
    | .refused r => .refused r

/-- SCHED draws who is offered the next move (00_scope.md R9; log entry 5). -/
def reschedule (s : State) : State := { s with turn := Config.sched s.tick, tick := s.tick + 1 }

/-- One step of the machine: one agent moves, and SCHED draws the next turn. -/
def stepOnce (s : State) : Host.Outcome State Fault Refusal :=
  match firstMove (moveOrder s.turn) s with
  | .next t => .next (reschedule t)
  | .fault f => .fault f
  | .refused r => .refused r

/-- The item words of a row of spec/opcode_table.json: a row of 8 bits is a tag, and its frame's payload is zeros; any
other row is one item word. -/
def tableItems (nbits w : Nat) : List ItemWord :=
  if nbits = 8 then
    match decodeFrame (zeroPayload w) with
    | .ok (i, _) => encode i
    | .error _ => []
  else [BitVec.ofNat 10 w]

/-- The unit that reads a row of the table: DEC reads tags; an item word goes to the unit whose turn it is, or to ENC
where it is the host's (log entry 7). -/
def tableUnit (nbits : Nat) (s : State) : UnitId :=
  if nbits = 8 then .dec
  else
    match s.turn with
    | .enc => .enc
    | .dec => .dec
    | .host => .enc

/-- The agent that is unit u. -/
def unitAgent : UnitId → Agent
  | .enc => .enc
  | .dec => .dec

/-- The items of a row put at the front of its unit's channel, with nothing in the unit's hand and the turn that unit's. -/
def placeWord (s : State) (nbits w : Nat) : State :=
  { (s.setInQ (tableUnit nbits s) (tableItems nbits w ++ (s.io (tableUnit nbits s)).inQ)).setHand
      (tableUnit nbits s) none with
    turn := unitAgent (tableUnit nbits s) }

end Sys2Proof.Machine
end

