-- ==== Sys2Proof/Machine/Ports.lean ====
section
/-! DEFINITION. The ports of a unit (30_encoding.md R76): its output pins as a function of the state, and what a
clock edge transfers. The clock itself is not modelled (92_eei_decisions.md D2). -/

namespace Sys2Proof.Machine

/-- The output pins of a unit (30_encoding.md R76). `outByte` is `out_data` with `out_last`, none while `out_valid` is 0. -/
structure OutPins where
  inReady : Bool
  outByte : Option (Byte × Bool)
  done : Bool
  status : BitVec 4
deriving DecidableEq, Repr

/-- The byte a unit offers, with 1 on the last byte of the transaction (30_encoding.md R76). -/
def offeredByte : Option (List Byte) → Option (Byte × Bool)
  | none => none
  | some [] => none
  | some (b :: rest) => some (b, rest.isEmpty)

/-- The output pins of unit u (30_encoding.md R76, R77): `in_ready` only when ACTIVE with no transaction outstanding.
DESIGN CHOICE, safe: it is 0 too while the channel holds items that came before (log entry 9). -/
def outPins (u : UnitId) (s : State) : OutPins :=
  { inReady := decide ((s.io u).phase = .active) && (s.io u).hand.isNone && (s.io u).inQ.isEmpty
    outByte := offeredByte (outstanding u s)
    done := doneOut u s
    status := status u s }

/-- The input pins of a unit at a rising clock edge (30_encoding.md R76). -/
structure InPins where
  rst : Bool
  inValid : Bool
  inKind : BitVec 2
  inData : Byte
  outReady : Bool
  outErr : Bool
deriving DecidableEq, Repr

/-- The item that transfers on an edge: where in_valid and in_ready are both 1 (30_encoding.md R76), and rst is 0
(70_reset_and_hazards.md R147). DESIGN CHOICE, unsafe: rst does not lower in_ready, which is a function of the state alone,
so on an edge with rst it may be 1 while the item offered does not transfer (log entry 9). -/
def itemTransfer (p : InPins) (o : OutPins) : Option ItemWord :=
  if p.inValid && o.inReady && !p.rst then some (mkItem p.inKind p.inData) else none

/-- The sink's answer to the offered byte on an edge: out_err ends the transaction as ERR, else out_ready takes the
byte, else it stays offered (30_encoding.md R76). DESIGN CHOICE, unsafe: where no byte is offered (out_valid = 0), out_err
and out_ready do nothing, and no failure is recorded (log entry 9). -/
def byteTransfer (p : InPins) (o : OutPins) : Option SinkReply :=
  match o.outByte with
  | none => none
  | some _ => if p.outErr then some .fail else if p.outReady then some .accept else none

/-- The state after the sink's answer of an edge, if there is one; the last answer completes the step. -/
def afterByte (u : UnitId) (r : Option SinkReply) (s : State) : State :=
  match r with
  | none => s
  | some r => doAct (.reply u r) s

/-- One rising edge of unit u's clock (30_encoding.md R76): an item that transfers is taken by the unit on that edge, and
its operation runs as far as the sink lets it; a byte that is answered leaves the transaction. On an edge with rst
the unit is reset, and takes no item (70_reset_and_hazards.md R147). DESIGN CHOICE, unsafe: a byte offered on that edge
transfers as R76 says, and the reset comes after it (log entry 9). -/
def edge (u : UnitId) (p : InPins) (s : State) : Host.Outcome State Fault Refusal :=
  if p.rst then .next (doAct (.reset u) (afterByte u (byteTransfer p (outPins u s)) s))
  else
    match itemTransfer p (outPins u s) with
    | some w => takeItem u w s
    | none => .next (afterByte u (byteTransfer p (outPins u s)) s)

end Sys2Proof.Machine
end

