-- ==== Sys2Proof/Machine/Step.lean ====
section
/-! DEFINITION. The step of the machine, and the placing of an instruction where the next step fetches it. -/

namespace Sys2Proof.Machine

/-- One step: one agent moves (Machine/Fetch.lean). -/
def step (s : State) : Host.Outcome State Fault Refusal := stepOnce s

/-- s with the instruction of the row's bits w at the front of its unit's input channel, and that unit's turn. -/
def State.withFetchWord (s : State) (nbits w : Nat) : State := placeWord s nbits w

end Sys2Proof.Machine
end

