-- ==== Sys2Proof/Safety.lean ====
section
/-! DEFINITION. What a sound state of the machine is, in the terms the claims use: the invariants of 10_state.md R31
and R32, the flags of R17 and R18, and the form of the buffer. Each holds between steps. -/

namespace Sys2Proof.Machine

/-- The flags of a unit are one of the five pairs of 30_encoding.md R77: phase value 3 is never held (10_state.md R17),
and err is NONE exactly where phase is not FAILED (R18). -/
def UnitIO.flagsOk (c : UnitIO) : Prop :=
  c.phase ≠ .reserved ∧ (c.err = .none ↔ c.phase ≠ .failed)

/-- The sink holds whole frames of ENC that decode to out (40_encoder.md R93, R95). -/
def encWrote (written out : List Byte) : Prop :=
  ∃ fs : List Instr, fs.all isEncFrame = true ∧ written = framesBytes fs ∧ out = framesOut fs

/-- ENC while ACTIVE (10_state.md R31): the ranges, no equal neighbours pending, and losslessness. -/
def EncUnit.ActiveInv (u : EncUnit) : Prop :=
  (u.mode = .lit → u.cnt.toNat ≤ Config.litMax ∧ ∃ p, memSpan u.buf 0 u.cnt.toNat = .ok p ∧ noAdjacentEqual p = true) ∧
  (u.mode = .run → 2 ≤ u.runLen.toNat ∧ u.runLen.toNat ≤ 126) ∧
  ∃ out p, u.pending = .ok p ∧ encWrote u.io.OUT out ∧ u.io.IN = out ++ p

/-- ENC in FAILED: whole frames, then a strict prefix of one more, and what the whole frames decode to is a prefix of
IN (60_exceptions.md R127, R146; 40_encoder.md R88). -/
def EncUnit.FailedInv (u : EncUnit) : Prop :=
  ∃ written out part, u.io.OUT = written ++ part ∧ encWrote written out ∧ out <+: u.io.IN ∧
    (part = [] ∨ ∃ i bs, isEncFrame i = true ∧ frameBytes i = some bs ∧ part <+: bs ∧ part ≠ bs)

/-- The invariant of ENC (10_state.md R17, R18, R31; 40_encoder.md R94; 60_exceptions.md R124). -/
def EncUnit.Inv (u : EncUnit) : Prop :=
  u.io.flagsOk ∧ u.io.err ≠ .truncatedStream ∧ Memory.wf u.buf = true ∧
  (u.io.phase = .active → u.ActiveInv) ∧
  (u.io.phase = .done → encWrote u.io.OUT u.io.IN) ∧
  (u.io.phase = .failed → u.FailedInv)

/-- DEC while ACTIVE (10_state.md R32): whole frames read, then the current frame's tag and the payload copied so far. -/
def DecUnit.ActiveInv (u : DecUnit) : Prop :=
  (u.tag = 0 ↔ u.rem = 0) ∧
  (tagClass u.tag = .run → u.rem = u.tag) ∧
  (tagClass u.tag = .literal → 1 ≤ u.rem.toNat ∧ u.rem.toNat ≤ 0x100 - u.tag.toNat) ∧
  ∃ fs copied, fs.all isDataFrame = true ∧
    u.io.IN = framesBytes fs ++ (if u.tag = 0 then [] else u.tag :: copied) ∧
    u.io.OUT = framesOut fs ++ copied ∧
    (tagClass u.tag ≠ .literal → copied = []) ∧
    (tagClass u.tag = .literal → copied.length = (0x100 - u.tag.toNat) - u.rem.toNat)

/-- The invariant of DEC (10_state.md R17, R18, R32; 41_decoder.md R113; 60_exceptions.md R127, R146). -/
def DecUnit.Inv (u : DecUnit) : Prop :=
  u.io.flagsOk ∧
  (u.io.phase = .active → u.ActiveInv) ∧
  (u.io.phase = .done → wireDecode u.io.IN = { out := u.io.OUT, result := .ok, used := u.io.IN.length }) ∧
  (u.io.phase = .failed → u.io.OUT <+: (wireDecode u.io.IN).out) ∧
  (u.io.err = .truncatedStream →
    wireDecode u.io.IN = { out := u.io.OUT, result := .truncated, used := u.io.IN.length })

/-- A sound state of the machine. -/
def State.Inv (s : State) : Prop := s.enc.Inv ∧ s.dec.Inv

end Sys2Proof.Machine
end

