-- ==== Sys2Proof/Certificates/Slice0/Obligations.lean ====
section
/-! DEFINITION. The statements about the codec core. Each docstring names the rules of spec/ it formalises. -/

namespace Sys2Proof.Claims

open Sys2Proof Sys2Proof.Machine

/-- The item operations of ENC (30_encoding.md R75). -/
def isEncOp : Instr → Bool
  | .endFrame => false
  | .run _ _ => false
  | .lit _ => false
  | .encByteLit _ => true
  | .encByteRun _ => true
  | .encEosLit _ => true
  | .encEosRun _ => true
  | .encRderr _ => true
  | .encRsvd _ => true
  | .decTagSentinel => false
  | .decTagRun _ => false
  | .decTagLit _ => false
  | .decRunval _ => false
  | .decLitbyte _ => false
  | .decEosIdle _ => false
  | .decEosMid _ => false
  | .decRderr _ => false
  | .decRsvd _ => false

/-- What an item operation appends to its unit's ghost IN: the byte of a BYTE item (10_state.md R24). -/
def itemBytes : Instr → List Byte
  | .endFrame => []
  | .run _ _ => []
  | .lit _ => []
  | .encByteLit b => [b]
  | .encByteRun b => [b]
  | .encEosLit _ => []
  | .encEosRun _ => []
  | .encRderr _ => []
  | .encRsvd _ => []
  | .decTagSentinel => [0x00#8]
  | .decTagRun t => [t]
  | .decTagLit t => [t]
  | .decRunval b => [b]
  | .decLitbyte b => [b]
  | .decEosIdle _ => []
  | .decEosMid _ => []
  | .decRderr _ => []
  | .decRsvd _ => []

/-- The one transaction an ENC operation makes with p pending, [] where it makes none (40_encoder.md R83 to R88, R96). -/
def encTx (i : Instr) (u : EncUnit) (p : List Byte) : List Byte :=
  match i with
  | .encByteLit b =>
    if p.getLast? = some b then (if p.length ≤ 1 then [] else litTag (p.length - 1) :: p.dropLast)
    else if p.length = 128 then litTag 128 :: p else []
  | .encByteRun b =>
    if b = u.runVal then (if u.runLen.toNat = 126 then [0x7F#8, u.runVal] else [])
    else [runTag u.runLen.toNat, u.runVal]
  | .encEosLit _ => if p = [] then [] else litTag p.length :: p
  | .encEosRun _ => [runTag u.runLen.toNat, u.runVal]
  | .encRderr _ => []
  | .encRsvd _ => []
  | .endFrame => []
  | .run _ _ => []
  | .lit _ => []
  | .decTagSentinel => []
  | .decTagRun _ => []
  | .decTagLit _ => []
  | .decRunval _ => []
  | .decLitbyte _ => []
  | .decEosIdle _ => []
  | .decEosMid _ => []
  | .decRderr _ => []
  | .decRsvd _ => []

/-- ENC may run an operation: ACTIVE, its pending bytes p readable, and its counters in the ranges of its rules. -/
def encReady (u : EncUnit) (p : List Byte) : Prop :=
  u.io.phase = .active ∧ u.pending = .ok p ∧
    (u.mode = .lit → u.cnt.toNat ≤ 128) ∧ (u.mode = .run → 2 ≤ u.runLen.toNat ∧ u.runLen.toNat ≤ 126)

/-- A whole frame within ENC's bounds: a run of 2 to 127, or a literal of 1 to 128 bytes (40_encoder.md R93). -/
def inEncBounds (f : Instr) : Prop :=
  isDataFrame f = true ∧ ∀ t v, f = .run t v → 2 ≤ t.toNat

/-- A sink that takes every byte, and at least n of them. -/
def takesAll (c : UnitIO) (n : Nat) : Prop := c.sink.all (· == .accept) = true ∧ n ≤ c.sink.length

end Sys2Proof.Claims

open Sys2Proof Sys2Proof.Machine Sys2Proof.Claims

/-! ### Encoding -/

/-- Words written out from the tables of 30_encoding.md R68, R73 and 95_test_vectors.md section 4 decode to what they
stand for. -/
def Obligations.TableWordsDecode : Prop :=
  decode (.enc .lit) 0x041#10 = .encByteLit 0x41#8 ∧ decode (.enc .run) 0x041#10 = .encByteRun 0x41#8 ∧
  decode (.enc .lit) 0x1A5#10 = .encEosLit 0xA5#8 ∧ decode (.enc .run) 0x2FF#10 = .encRderr 0xFF#8 ∧
  decode (.dec 0x00#8) 0x000#10 = .decTagSentinel ∧ decode (.dec 0x00#8) 0x07F#10 = .decTagRun 0x7F#8 ∧
  decode (.dec 0x00#8) 0x080#10 = .decTagLit 0x80#8 ∧ decode (.dec 0x03#8) 0x000#10 = .decRunval 0x00#8 ∧
  decode (.dec 0xFE#8) 0x043#10 = .decLitbyte 0x43#8 ∧ decode (.dec 0x03#8) 0x100#10 = .decEosMid 0x00#8 ∧
  decodeFrame [0xFE#8, 0x43#8, 0x44#8, 0x00#8] = .ok (.lit [0x43#8, 0x44#8], [0x00#8]) ∧
  decodeFrame [0x02#8, 0x00#8] = .ok (.run 0x02#8 0x00#8, [])

/-- 30_encoding.md R75: for each unit the rows cover every (item, state) pair exactly once. The decoded operation is
the only well-formed one that is selected in the state and encoded by the word. -/
def Obligations.EveryItemSelectsOneOperation : Prop :=
  ∀ (f : FsmState) (w : ItemWord),
    (decode f w).wf = true ∧ (decode f w).selectedIn f = true ∧ encode (decode f w) = [w] ∧
    ∀ i : Instr, i.wf = true → i.selectedIn f = true → encode i = [w] → i = decode f w

/-- Decode and encode agree on every item operation, every operand included (30_encoding.md R73, R75). -/
def Obligations.ItemDecodeOfEncode : Prop :=
  ∀ (i : Instr) (f : FsmState), i.wf = true → i.selectedIn f = true →
    ∃ w, encode i = [w] ∧ decode f w = i

/-- Decode and encode agree on every frame, whatever follows it in the stream (30_encoding.md R57, R59 to R62, R69). -/
def Obligations.FrameDecodeOfEncode : Prop :=
  ∀ (i : Instr) (bs rest : List Byte), i.wf = true → frameBytes i = some bs →
    decodeFrame (bs ++ rest) = .ok (i, rest)

/-- What the frame decoder reads is a well-formed frame, and its bytes are the ones read (30_encoding.md R57, R71). -/
def Obligations.FrameEncodeOfDecode : Prop :=
  ∀ (s rest : List Byte) (i : Instr), decodeFrame s = .ok (i, rest) →
    i.wf = true ∧ ∃ bs, frameBytes i = some bs ∧ s = bs ++ rest

/-- 30_encoding.md R68: the 256 byte values split into the three tag classes by these ranges, and between frames DEC
dispatches a byte by its class. -/
def Obligations.TagClassRanges : Prop :=
  ∀ t : Byte,
    ((tagClass t = .sentinel ↔ t = 0x00#8) ∧
      (tagClass t = .run ↔ 0x01 ≤ t.toNat ∧ t.toNat ≤ 0x7F) ∧ (tagClass t = .literal ↔ 0x80 ≤ t.toNat)) ∧
    (tagClass t = .sentinel → decode (.dec 0x00#8) (byteItem t) = .decTagSentinel) ∧
    (tagClass t = .run → decode (.dec 0x00#8) (byteItem t) = .decTagRun t) ∧
    (tagClass t = .literal → decode (.dec 0x00#8) (byteItem t) = .decTagLit t)

/-- 30_encoding.md R65 and R66: the count of a tag, and the tag of a length, are inverse. -/
def Obligations.TagAndCountInverse : Prop :=
  (∀ n, 1 ≤ n → n ≤ 128 → tagClass (litTag n) = .literal ∧ (litTag n).toNat = 0x100 - n ∧ tagCount (litTag n) = n) ∧
  (∀ n, 2 ≤ n → n ≤ 127 → tagClass (runTag n) = .run ∧ (runTag n).toNat = n ∧ tagCount (runTag n) = n)

/-! ### The wire format as a function -/

/-- 30_encoding.md R64 on whole frames: decode reads them one after the other and goes on behind them. -/
def Obligations.WireDecodeReadsFrames : Prop :=
  ∀ (fs : List Instr) (rest : List Byte), fs.all isDataFrame = true →
    wireDecode (framesBytes fs ++ rest) = (wireDecode rest).after (framesOut fs) (framesBytes fs).length

/-- 30_encoding.md R63: a sentinel ends the stream, and what follows it is not consumed. -/
def Obligations.WireDecodeStopsAtSentinel : Prop :=
  ∀ (fs : List Instr) (rest : List Byte), fs.all isDataFrame = true →
    wireDecode (framesBytes fs ++ 0x00#8 :: rest) =
      { out := framesOut fs, result := .ok, used := (framesBytes fs).length + 1 }

/-- REP n, v decodes to n copies of v (30_encoding.md R79). -/
def Obligations.RepFramesDecodeToCopies : Prop :=
  ∀ (n : Nat) (v : Byte),
    wireDecode (framesBytes (repFrames n v)) =
      { out := List.replicate n v, result := .ok, used := (framesBytes (repFrames n v)).length }

/-! ### ENC: results -/

/-- 40_encoder.md R83, no branch taken: the byte stays pending and nothing is written. -/
def Obligations.EncByteLitBuffersByte : Prop :=
  ∀ (s : State) (b : Byte) (p : List Byte),
    s.enc.io.phase = .active → s.enc.mode = .lit → s.enc.cnt.toNat < 128 →
    memSpan s.enc.buf 0 s.enc.cnt.toNat = .ok p → p.getLast? ≠ some b →
    ∃ m, memWrite s.enc.buf s.enc.cnt.toNat b = .ok m ∧
      exec (.encByteLit b) s = .next { s with enc := { s.enc with
        io := { s.enc.io with IN := s.enc.io.IN ++ [b] }
        buf := m
        cnt := s.enc.cnt + 1 } }

/-- 40_encoder.md R83, run start with n = 0 bytes before the pair: RUN is entered and no literal is written (R89). -/
def Obligations.EncByteLitStartsRunOfPair : Prop :=
  ∀ (s : State) (b : Byte),
    s.enc.io.phase = .active → s.enc.mode = .lit → s.enc.cnt = 1 → memSpan s.enc.buf 0 1 = .ok [b] →
    ∃ m, memWrite s.enc.buf 1 b = .ok m ∧
      exec (.encByteLit b) s = .next { s with enc := { s.enc with
        io := { s.enc.io with IN := s.enc.io.IN ++ [b] }
        mode := .run, buf := m, cnt := 0, runVal := b, runLen := 2 } }

/-- 40_encoder.md R83 and R84, run start with n = len p ≥ 1 bytes before the pair: they are written as one literal frame
and RUN is entered, at 129 buffered bytes too. -/
def Obligations.EncByteLitFlushesAndStartsRun : Prop :=
  ∀ (s : State) (b : Byte) (p : List Byte) (rest : List SinkReply),
    s.enc.io.phase = .active → s.enc.mode = .lit → 1 ≤ p.length → s.enc.cnt.toNat = p.length + 1 →
    s.enc.cnt.toNat ≤ 128 → memSpan s.enc.buf 0 s.enc.cnt.toNat = .ok (p ++ [b]) →
    s.enc.io.sink = List.replicate (p.length + 1) .accept ++ rest →
    ∃ m, memWrite s.enc.buf s.enc.cnt.toNat b = .ok m ∧
      exec (.encByteLit b) s = .next { s with enc := { s.enc with
        io := { s.enc.io with
          IN := s.enc.io.IN ++ [b], OUT := s.enc.io.OUT ++ litTag p.length :: p, sink := rest }
        mode := .run, buf := m, cnt := 0, runVal := b, runLen := 2 } }

/-- 40_encoder.md R83 and R84, full buffer with no trailing repeat: the first 128 bytes are written with tag 0x80 and
the 129th stays pending at index 0. -/
def Obligations.EncByteLitFlushesFullBuffer : Prop :=
  ∀ (s : State) (b : Byte) (p : List Byte) (rest : List SinkReply),
    s.enc.io.phase = .active → s.enc.mode = .lit → s.enc.cnt.toNat = 128 →
    memSpan s.enc.buf 0 128 = .ok p → p.getLast? ≠ some b →
    s.enc.io.sink = List.replicate 129 .accept ++ rest →
    ∃ m m', memWrite s.enc.buf 128 b = .ok m ∧ memWrite m 0 b = .ok m' ∧
      exec (.encByteLit b) s = .next { s with enc := { s.enc with
        io := { s.enc.io with
          IN := s.enc.io.IN ++ [b], OUT := s.enc.io.OUT ++ 0x80#8 :: p, sink := rest }
        buf := m', cnt := 1 } }

/-- 40_encoder.md R85, an equal byte: the run grows by one while it stays below 127. -/
def Obligations.EncByteRunExtendsRun : Prop :=
  ∀ s : State,
    s.enc.io.phase = .active → s.enc.mode = .run → 2 ≤ s.enc.runLen.toNat → s.enc.runLen.toNat < 126 →
    exec (.encByteRun s.enc.runVal) s = .next { s with enc := { s.enc with
      io := { s.enc.io with IN := s.enc.io.IN ++ [s.enc.runVal] }
      runLen := s.enc.runLen + 1 } }

/-- 40_encoder.md R85, the run reaches 127: the frame `[0x7F, v]` is written in the same step and nothing is pending. -/
def Obligations.EncByteRunClosesAt127 : Prop :=
  ∀ (s : State) (rest : List SinkReply),
    s.enc.io.phase = .active → s.enc.mode = .run → s.enc.runLen.toNat = 126 →
    s.enc.io.sink = .accept :: .accept :: rest →
    exec (.encByteRun s.enc.runVal) s = .next { s with enc := { s.enc with
      io := { s.enc.io with
        IN := s.enc.io.IN ++ [s.enc.runVal]
        OUT := s.enc.io.OUT ++ [0x7F#8, s.enc.runVal], sink := rest }
      mode := .lit, cnt := 0, runLen := 127 } }

/-- 40_encoder.md R85, an unequal byte: the run is written and the byte is the only one pending, at index 0. -/
def Obligations.EncByteRunClosedByUnequalByte : Prop :=
  ∀ (s : State) (b : Byte) (rest : List SinkReply),
    s.enc.io.phase = .active → s.enc.mode = .run → 2 ≤ s.enc.runLen.toNat → s.enc.runLen.toNat ≤ 126 →
    b ≠ s.enc.runVal → s.enc.io.sink = .accept :: .accept :: rest →
    ∃ m, memWrite s.enc.buf 0 b = .ok m ∧
      exec (.encByteRun b) s = .next { s with enc := { s.enc with
        io := { s.enc.io with
          IN := s.enc.io.IN ++ [b]
          OUT := s.enc.io.OUT ++ [runTag s.enc.runLen.toNat, s.enc.runVal], sink := rest }
        mode := .lit, buf := m, cnt := 1 } }

/-- 40_encoder.md R86: the pending literal bytes are written, if any, no sentinel is (R91), and ENC is DONE; when the sink
fails the frame after k bytes, those k stay, and ENC is FAILED with OutputError. The registers other than phase and err
are unspecified then (10_state.md R35), so nothing is said of them. -/
def Obligations.EncEosLitFlushesAndEnds : Prop :=
  ∀ (s : State) (d : Byte) (p : List Byte) (rest : List SinkReply),
    s.enc.io.phase = .active → s.enc.mode = .lit → s.enc.cnt.toNat ≤ 128 →
    memSpan s.enc.buf 0 s.enc.cnt.toNat = .ok p →
    (s.enc.io.sink = List.replicate (if p = [] then 0 else p.length + 1) .accept ++ rest →
      ∃ u : EncUnit, exec (.encEosLit d) s = .next { s with enc := u } ∧
        u.io = { s.enc.io with
          phase := .done, err := .none
          OUT := s.enc.io.OUT ++ (if p = [] then [] else litTag p.length :: p)
          sink := rest, draws := s.enc.io.draws + 1 }) ∧
    (∀ k, p ≠ [] → k < p.length + 1 → s.enc.io.sink = List.replicate k .accept ++ .fail :: rest →
      ∃ u : EncUnit, exec (.encEosLit d) s = .next { s with enc := u } ∧
        u.io = { s.enc.io with
          phase := .failed, err := .outputError
          OUT := s.enc.io.OUT ++ (litTag p.length :: p).take k
          sink := rest, draws := s.enc.io.draws + 1 })

/-- 40_encoder.md R87: the run is written and ENC is DONE; when the sink fails the frame after k bytes, those k stay, and
ENC is FAILED with OutputError. -/
def Obligations.EncEosRunFlushesAndEnds : Prop :=
  ∀ (s : State) (d : Byte) (rest : List SinkReply),
    s.enc.io.phase = .active → s.enc.mode = .run → 2 ≤ s.enc.runLen.toNat → s.enc.runLen.toNat ≤ 126 →
    (s.enc.io.sink = .accept :: .accept :: rest →
      ∃ u : EncUnit, exec (.encEosRun d) s = .next { s with enc := u } ∧
        u.io = { s.enc.io with
          phase := .done, err := .none
          OUT := s.enc.io.OUT ++ [runTag s.enc.runLen.toNat, s.enc.runVal]
          sink := rest, draws := s.enc.io.draws + 1 }) ∧
    (∀ k, k < 2 → s.enc.io.sink = List.replicate k .accept ++ .fail :: rest →
      ∃ u : EncUnit, exec (.encEosRun d) s = .next { s with enc := u } ∧
        u.io = { s.enc.io with
          phase := .failed, err := .outputError
          OUT := s.enc.io.OUT ++ [runTag s.enc.runLen.toNat, s.enc.runVal].take k
          sink := rest, draws := s.enc.io.draws + 1 })

/-- 40_encoder.md R88 and 30_encoding.md R74: RDERR and a reserved item end ENC in FAILED with InputError, in any mode,
and write nothing. -/
def Obligations.EncReadErrorFails : Prop :=
  ∀ (s : State) (d : Byte) (i : Instr), i = .encRderr d ∨ i = .encRsvd d → s.enc.io.phase = .active →
    ∃ u : EncUnit, exec i s = .next { s with enc := u } ∧
      u.io = { s.enc.io with phase := .failed, err := .inputError, draws := s.enc.io.draws + 1 }

/-- 60_exceptions.md R122, R126 and R127, 20_memory.md R48: when the sink fails ENC's transaction after k bytes, those k
bytes stay at the sink, and ENC is FAILED with OutputError. One statement for the four operations that write. -/
def Obligations.EncWriteFailureKeepsPrefix : Prop :=
  ∀ (s : State) (i : Instr) (p : List Byte) (k : Nat) (rest : List SinkReply),
    isEncOp i = true → i.selectedIn (.enc s.enc.mode) = true → encReady s.enc p →
    k < (encTx i s.enc p).length → s.enc.io.sink = List.replicate k .accept ++ .fail :: rest →
    ∃ u : EncUnit, exec i s = .next { s with enc := u } ∧
      u.io = { s.enc.io with
        phase := .failed, err := .outputError
        IN := s.enc.io.IN ++ itemBytes i
        OUT := s.enc.io.OUT ++ (encTx i s.enc p).take k
        sink := rest, draws := s.enc.io.draws + 1 }

/-- 60_exceptions.md R140 and 20_memory.md R51: while the sink has not answered all of ENC's transaction, ENC has no
step: the operation stops by name, with the bytes not yet taken. -/
def Obligations.EncWaitsForSink : Prop :=
  ∀ (s : State) (i : Instr) (p : List Byte) (k : Nat),
    isEncOp i = true → i.selectedIn (.enc s.enc.mode) = true → encReady s.enc p →
    k < (encTx i s.enc p).length → s.enc.io.sink = List.replicate k .accept →
    exec i s = .fault (.sinkWait ((encTx i s.enc p).drop k))

/-! ### ENC: frames and bounds -/

/-- What every ENC operation leaves unchanged (10_state.md R14, 20_memory.md R38): DEC, the host, the schedule and the
input channel; IN and OUT only grow; err and the draws change only with the phase. -/
def Obligations.EncOperationsFrame : Prop :=
  ∀ (s t : State) (i : Instr), isEncOp i = true → exec i s = .next t →
    t.dec = s.dec ∧ t.host = s.host ∧ t.turn = s.turn ∧ t.tick = s.tick ∧
    t.enc.io.inQ = s.enc.io.inQ ∧ t.enc.io.hand = s.enc.io.hand ∧ t.enc.io.earlier = s.enc.io.earlier ∧
    t.enc.io.IN = s.enc.io.IN ++ itemBytes i ∧
    s.enc.io.OUT <+: t.enc.io.OUT ∧ t.enc.io.sink <:+ s.enc.io.sink ∧
    (t.enc.io.phase = .active → t.enc.io.err = s.enc.io.err ∧ t.enc.io.draws = s.enc.io.draws)

/-- What ENC.BYTE.LIT leaves unchanged while ENC stays ACTIVE. The buffer entries that change are those 40_encoder.md R83
writes: the one at enc.cnt, and entry 0 where a full buffer is flushed without a run start. That the others, and in LIT
run_val and run_len (10_state.md R22, R23: defined only in RUN), keep their values is the model's choice, log entry 12. -/
def Obligations.EncByteLitFrame : Prop :=
  ∀ (s t : State) (b : Byte), exec (.encByteLit b) s = .next t → t.enc.io.phase = .active →
    (∀ a, a ≠ s.enc.cnt.toNat → (a ≠ 0 ∨ s.enc.cnt.toNat ≠ 128 ∨ t.enc.mode = .run) →
      memRead t.enc.buf a = memRead s.enc.buf a) ∧
    (t.enc.mode = .lit → t.enc.runVal = s.enc.runVal ∧ t.enc.runLen = s.enc.runLen)

/-- What ENC.BYTE.RUN leaves unchanged while ENC stays ACTIVE. The buffer entry that changes is the one 40_encoder.md R85
writes: entry 0, where the byte is not equal. That the other entries and, while the run goes on, enc.cnt keep their values
in RUN, where no rule reads them, and that run_val, and run_len where the byte is not equal, keep theirs on leaving RUN
(10_state.md R22, R23: defined only in RUN), is the model's choice, log entry 12. -/
def Obligations.EncByteRunFrame : Prop :=
  ∀ (s t : State) (b : Byte), exec (.encByteRun b) s = .next t → t.enc.io.phase = .active →
    (∀ a, (a ≠ 0 ∨ b = s.enc.runVal) → memRead t.enc.buf a = memRead s.enc.buf a) ∧
    t.enc.runVal = s.enc.runVal ∧ (b ≠ s.enc.runVal → t.enc.runLen = s.enc.runLen) ∧
    (t.enc.mode = .run → t.enc.cnt = s.enc.cnt)

/-- 40_encoder.md R93 and R96: each ENC step writes at most one frame, and every frame is in bounds; only an
OutputError leaves part of one. -/
def Obligations.EncStepWritesAtMostOneFrame : Prop :=
  ∀ (s t : State) (i : Instr), isEncOp i = true → exec i s = .next t →
    ∃ x, t.enc.io.OUT = s.enc.io.OUT ++ x ∧
      (x = [] ∨ ∃ f bs, inEncBounds f ∧ frameBytes f = some bs ∧
        (x = bs ∨ (t.enc.io.err = .outputError ∧ x <+: bs ∧ x ≠ bs)))

/-- 40_encoder.md R97: ENC never consumes more than 128 BYTE items in a row without writing a frame, and from
`enc.cnt` = 0 it does consume 128 bytes without writing, where no two neighbours are equal. -/
def Obligations.EncSilentAtMost128Bytes : Prop :=
  (∀ (s t : State) (bs : List Byte), s.enc.Inv → s.enc.io.phase = .active →
    feed .enc (bs.map byteItem) s = .next t → t.enc.io.phase = .active → t.enc.io.OUT = s.enc.io.OUT →
    bs.length ≤ 128) ∧
  (∀ (s : State) (bs : List Byte), s.enc.io.phase = .active → s.enc.mode = .lit → s.enc.cnt = 0 →
    bs.length = 128 → noAdjacentEqual bs = true →
    ∃ t, feed .enc (bs.map byteItem) s = .next t ∧ t.enc.io.phase = .active ∧ t.enc.io.OUT = s.enc.io.OUT)

/-! ### DEC: results -/

/-- 41_decoder.md R103 and 30_encoding.md R61: the sentinel, as an item and as the frame END, ends DEC in DONE. -/
def Obligations.DecSentinelEnds : Prop :=
  ∀ (s : State) (i : Instr), i = .decTagSentinel ∨ i = .endFrame → s.dec.io.phase = .active → s.dec.tag = 0 →
    ∃ u : DecUnit, exec i s = .next { s with dec := u } ∧
      u.io = { s.dec.io with
        phase := .done, err := .none, IN := s.dec.io.IN ++ [0x00#8], draws := s.dec.io.draws + 1 }

/-- 41_decoder.md R104: a run tag opens a frame of count t. -/
def Obligations.DecTagRunOpensFrame : Prop :=
  ∀ (s : State) (t : Byte), s.dec.io.phase = .active → s.dec.tag = 0 → 0x01 ≤ t.toNat → t.toNat ≤ 0x7F →
    exec (.decTagRun t) s = .next { s with dec := {
      io := { s.dec.io with IN := s.dec.io.IN ++ [t] }, tag := t, rem := t } }

/-- 41_decoder.md R105: a literal tag opens a frame of count 0x100 - t. -/
def Obligations.DecTagLitOpensFrame : Prop :=
  ∀ (s : State) (t : Byte), s.dec.io.phase = .active → s.dec.tag = 0 → 0x80 ≤ t.toNat →
    exec (.decTagLit t) s = .next { s with dec := {
      io := { s.dec.io with IN := s.dec.io.IN ++ [t] }, tag := t, rem := BitVec.ofNat 8 (0x100 - t.toNat) } }

/-- 41_decoder.md R106: one byte is consumed for the whole run and written dec.rem times in one transaction, and DEC is
between frames; when the sink fails after k copies, those k stay, and DEC is FAILED with OutputError. -/
def Obligations.DecRunvalWritesCopies : Prop :=
  ∀ (s : State) (b : Byte) (rest : List SinkReply),
    s.dec.io.phase = .active → 0x01 ≤ s.dec.tag.toNat → s.dec.tag.toNat ≤ 0x7F → s.dec.rem = s.dec.tag →
    (s.dec.io.sink = List.replicate s.dec.rem.toNat .accept ++ rest →
      exec (.decRunval b) s = .next { s with dec := {
        io := { s.dec.io with
          IN := s.dec.io.IN ++ [b], OUT := s.dec.io.OUT ++ List.replicate s.dec.rem.toNat b, sink := rest }
        tag := 0, rem := 0 } }) ∧
    (∀ k, k < s.dec.rem.toNat → s.dec.io.sink = List.replicate k .accept ++ .fail :: rest →
      ∃ u : DecUnit, exec (.decRunval b) s = .next { s with dec := u } ∧
        u.io = { s.dec.io with
          phase := .failed, err := .outputError, IN := s.dec.io.IN ++ [b]
          OUT := s.dec.io.OUT ++ List.replicate k b, sink := rest, draws := s.dec.io.draws + 1 })

/-- 41_decoder.md R107: the byte is written once, dec.rem falls by one, and at 0 DEC is between frames; when the sink
fails it, DEC is FAILED with OutputError and nothing of it is delivered. -/
def Obligations.DecLitbyteCopiesByte : Prop :=
  ∀ (s : State) (b : Byte) (rest : List SinkReply),
    s.dec.io.phase = .active → 0x80 ≤ s.dec.tag.toNat → 1 ≤ s.dec.rem.toNat → s.dec.rem.toNat ≤ 128 →
    (s.dec.io.sink = .accept :: rest →
      exec (.decLitbyte b) s = .next { s with dec := {
        io := { s.dec.io with IN := s.dec.io.IN ++ [b], OUT := s.dec.io.OUT ++ [b], sink := rest }
        tag := if s.dec.rem.toNat = 1 then 0 else s.dec.tag
        rem := BitVec.ofNat 8 (s.dec.rem.toNat - 1) } }) ∧
    (s.dec.io.sink = .fail :: rest →
      ∃ u : DecUnit, exec (.decLitbyte b) s = .next { s with dec := u } ∧
        u.io = { s.dec.io with
          phase := .failed, err := .outputError, IN := s.dec.io.IN ++ [b]
          sink := rest, draws := s.dec.io.draws + 1 })

/-- 60_exceptions.md R140 and 20_memory.md R51: while the sink has not answered all of DEC's transaction, DEC has no step:
the operation stops by name, with the bytes not yet taken. -/
def Obligations.DecWaitsForSink : Prop :=
  ∀ (s : State) (b : Byte), s.dec.io.phase = .active →
    (∀ k, 0x01 ≤ s.dec.tag.toNat → s.dec.tag.toNat ≤ 0x7F → s.dec.rem = s.dec.tag → k < s.dec.rem.toNat →
      s.dec.io.sink = List.replicate k .accept →
      exec (.decRunval b) s = .fault (.sinkWait (List.replicate (s.dec.rem.toNat - k) b))) ∧
    (0x80 ≤ s.dec.tag.toNat → 1 ≤ s.dec.rem.toNat → s.dec.rem.toNat ≤ 128 → s.dec.io.sink = [] →
      exec (.decLitbyte b) s = .fault (.sinkWait [b]))

/-- 41_decoder.md R108: the end of input between frames is a success. -/
def Obligations.DecEosIdleEnds : Prop :=
  ∀ (s : State) (d : Byte), s.dec.io.phase = .active → s.dec.tag = 0 →
    ∃ u : DecUnit, exec (.decEosIdle d) s = .next { s with dec := u } ∧
      u.io = { s.dec.io with phase := .done, err := .none, draws := s.dec.io.draws + 1 }

/-- 41_decoder.md R109: the end of input in mid-frame is TruncatedStream; what was copied stays. -/
def Obligations.DecEosMidFails : Prop :=
  ∀ (s : State) (d : Byte), s.dec.io.phase = .active → s.dec.tag ≠ 0 →
    ∃ u : DecUnit, exec (.decEosMid d) s = .next { s with dec := u } ∧
      u.io = { s.dec.io with phase := .failed, err := .truncatedStream, draws := s.dec.io.draws + 1 }

/-- 41_decoder.md R110, 30_encoding.md R74 and 60_exceptions.md R125: RDERR and a reserved item end DEC in FAILED with
InputError, in mid-frame too. -/
def Obligations.DecReadErrorFails : Prop :=
  ∀ (s : State) (d : Byte) (i : Instr), i = .decRderr d ∨ i = .decRsvd d → s.dec.io.phase = .active →
    ∃ u : DecUnit, exec i s = .next { s with dec := u } ∧
      u.io = { s.dec.io with phase := .failed, err := .inputError, draws := s.dec.io.draws + 1 }

/-- 30_encoding.md R59: the frame RUN t v decodes to `value` repeated `tag` times, from between frames to between frames. -/
def Obligations.RunFrameDecodesToCopies : Prop :=
  ∀ (s : State) (t v : Byte) (rest : List SinkReply),
    s.dec.io.phase = .active → s.dec.tag = 0 → 0x01 ≤ t.toNat → t.toNat ≤ 0x7F →
    s.dec.io.sink = List.replicate t.toNat .accept ++ rest →
    exec (.run t v) s = .next { s with dec := {
      io := { s.dec.io with
        IN := s.dec.io.IN ++ [t, v], OUT := s.dec.io.OUT ++ List.replicate t.toNat v, sink := rest }
      tag := 0, rem := 0 } }

/-- 30_encoding.md R60: the frame LIT p decodes verbatim, from between frames to between frames. -/
def Obligations.LitFrameDecodesVerbatim : Prop :=
  ∀ (s : State) (p : List Byte) (rest : List SinkReply),
    s.dec.io.phase = .active → s.dec.tag = 0 → 1 ≤ p.length → p.length ≤ 128 →
    s.dec.io.sink = List.replicate p.length .accept ++ rest →
    exec (.lit p) s = .next { s with dec := {
      io := { s.dec.io with
        IN := s.dec.io.IN ++ litTag p.length :: p, OUT := s.dec.io.OUT ++ p, sink := rest }
      tag := 0, rem := 0 } }

/-- 41_decoder.md R107 and R112: when the sink fails the byte after the first k of a literal frame, those k stay, and no
further byte of the frame is consumed. -/
def Obligations.LitFrameStopsAtWriteFailure : Prop :=
  ∀ (s : State) (p : List Byte) (k : Nat) (rest : List SinkReply),
    s.dec.io.phase = .active → s.dec.tag = 0 → k < p.length → p.length ≤ 128 →
    s.dec.io.sink = List.replicate k .accept ++ .fail :: rest →
    ∃ u : DecUnit, exec (.lit p) s = .next { s with dec := u } ∧
      u.io = { s.dec.io with
        phase := .failed, err := .outputError
        IN := s.dec.io.IN ++ litTag p.length :: p.take (k + 1)
        OUT := s.dec.io.OUT ++ p.take k, sink := rest, draws := s.dec.io.draws + 1 }

/-- A frame instruction is its items one after the other: what exec makes of the frame is what the item operations make of
the item words it encodes to, whatever the phase and the sink's replies (30_encoding.md R68, R80; 41_decoder.md R102). -/
def Obligations.FrameIsItsItems : Prop :=
  ∀ (s : State) (i : Instr) (bs : List Byte), i.wf = true → frameBytes i = some bs → s.dec.tag = 0 →
    exec i s = feed .dec (encode i) s

/-! ### DEC: frames and bounds -/

/-- What every DEC operation, frames included, leaves unchanged (10_state.md R14, 20_memory.md R38): ENC with the whole
buffer, the host, the schedule and the input channel; IN and OUT only grow. -/
def Obligations.DecOperationsFrame : Prop :=
  ∀ (s t : State) (i : Instr), isEncOp i = false → exec i s = .next t →
    t.enc = s.enc ∧ t.host = s.host ∧ t.turn = s.turn ∧ t.tick = s.tick ∧
    t.dec.io.inQ = s.dec.io.inQ ∧ t.dec.io.hand = s.dec.io.hand ∧ t.dec.io.earlier = s.dec.io.earlier ∧
    s.dec.io.IN <+: t.dec.io.IN ∧
    s.dec.io.OUT <+: t.dec.io.OUT ∧ t.dec.io.sink <:+ s.dec.io.sink ∧
    (t.dec.io.phase = .active → t.dec.io.err = s.dec.io.err ∧ t.dec.io.draws = s.dec.io.draws)

/-- 41_decoder.md R119: one consumed byte makes at most 127 output bytes, and a tag byte or an item that is no byte makes
none. -/
def Obligations.DecOutputPerItem : Prop :=
  ∀ (s t : State) (w : ItemWord), feedItem .dec w s = .next t →
    t.dec.io.OUT.length ≤ s.dec.io.OUT.length + 127 ∧
    t.dec.io.IN = s.dec.io.IN ++ (if itemKind w = .byte then [itemData w] else []) ∧
    (s.dec.tag = 0 ∨ itemKind w ≠ .byte → t.dec.io.OUT = s.dec.io.OUT)

/-! ### Both units -/

/-- 70_reset_and_hazards.md R161 and 30_encoding.md R74: no rule depends on the data field of an EOS, RDERR or reserved
item, and a reserved item is handled exactly as RDERR. -/
def Obligations.ItemDataIgnoredAndReservedActsAsReadError : Prop :=
  ∀ (u : UnitId) (w w' : ItemWord) (s : State),
    (itemKind w = itemKind w' → itemKind w ≠ .byte → feedItem u w s = feedItem u w' s) ∧
    (itemKind w = .reserved → itemKind w' = .rderr → feedItem u w s = feedItem u w' s)

/-- 20_memory.md R53: ENC and DEC have no ordering relation. Steps of the two in either order give the same state. -/
def Obligations.UnitStepsCommute : Prop :=
  ∀ (s a b : State) (i j : Instr), isEncOp i = true → isEncOp j = false →
    exec i s = .next a → exec j s = .next b → ∃ t, exec j a = .next t ∧ exec i b = .next t

/-- 60_exceptions.md R130: in DONE and FAILED a unit has no step: it takes no item (`in_ready` = 0) and offers no byte, and
`done` is 1. -/
def Obligations.TerminalUnitHasNoStep : Prop :=
  ∀ (u : UnitId) (s : State), (s.io u).phase = .done ∨ (s.io u).phase = .failed →
    (∀ w : ItemWord, feedItem u w s = .fault .terminal) ∧ unitMove u s = .fault .terminal ∧
    (outPins u s).inReady = false ∧ (outPins u s).outByte = none ∧ (outPins u s).done = true

/-- 30_encoding.md R77: the five values of the status output, each the flags it stands for. -/
def Obligations.StatusValues : Prop :=
  ∀ (u : UnitId) (s : State), (s.io u).flagsOk →
    (status u s = 0b0000#4 ∧ (s.io u).phase = .active) ∨ (status u s = 0b0100#4 ∧ (s.io u).phase = .done) ∨
    (status u s = 0b1001#4 ∧ (s.io u).err = .inputError) ∨ (status u s = 0b1010#4 ∧ (s.io u).err = .outputError) ∨
    (status u s = 0b1011#4 ∧ (s.io u).err = .truncatedStream)

/-! ### The step of the machine, the host and reset -/

/-- A step runs the decoded instruction. Where it is unit u's turn, nothing is in its hand and an item is offered, step is
exec of what the item decodes to in u's FSM state, with the item taken from the channel and SCHED drawn again
(30_encoding.md R75; 20_memory.md R49); where the sink has not answered that operation's transaction, the item is taken
and in hand (20_memory.md R51). An item in hand is run the same way. A fault that is no wait stops the machine. -/
def Obligations.StepRunsDecodedItem : Prop :=
  ∀ (u : UnitId) (s : State) (w : ItemWord), s.turn = unitAgent u →
    (∀ q, (s.io u).hand = none → (s.io u).inQ = w :: q →
      (∀ t, exec (decode (s.fsm u) w) s = .next t →
        step s = .next { t.setInQ u q with turn := Config.sched t.tick, tick := t.tick + 1 }) ∧
      (∀ left, exec (decode (s.fsm u) w) s = .fault (.sinkWait left) →
        step s = .next { (s.setHand u (some w)).setInQ u q with turn := Config.sched s.tick, tick := s.tick + 1 }) ∧
      (∀ f, exec (decode (s.fsm u) w) s = .fault f → f.isWait = false → step s = .fault f)) ∧
    ((s.io u).hand = some w →
      (∀ t, exec (decode (s.fsm u) w) s = .next t →
        step s = .next { t.setHand u none with turn := Config.sched t.tick, tick := t.tick + 1 }) ∧
      (∀ f, exec (decode (s.fsm u) w) s = .fault f → f.isWait = false → step s = .fault f))

/-- The machine's own order (log entry 5): the host's turn does its next action, and an agent without a step gives the
move to another. With no agent able to move the run is over or waits (60_exceptions.md R130, R144; 70_reset_and_hazards.md R163). -/
def Obligations.StepOfHostAndOfNobody : Prop :=
  (∀ (s : State) (a : HostAct) (rest : List HostAct), s.turn = .host → s.host = a :: rest →
    step s = .next { doAct a { s with host := rest } with
      turn := Config.sched (doAct a { s with host := rest }).tick
      tick := (doAct a { s with host := rest }).tick + 1 }) ∧
  (∀ s : State, s.host = [] → (s.enc.io.phase = .done ∨ s.enc.io.phase = .failed) →
    (s.dec.io.phase = .done ∨ s.dec.io.phase = .failed) → step s = .fault .runOver) ∧
  (∀ s : State, s.host = [] → s.enc.io.inQ = [] → s.dec.io.inQ = [] → s.enc.io.hand = none → s.dec.io.hand = none →
    s.enc.io.phase = .active → s.dec.io.phase = .active → step s = .fault .waitingForHost)

/-- 10_state.md R33: the values the spec gives for reset. -/
def Obligations.ResetValues : Prop :=
  State.reset.enc.io.phase = .active ∧ State.reset.enc.io.err = .none ∧ State.reset.enc.mode = .lit ∧
  State.reset.enc.cnt = 0 ∧ State.reset.dec.io.phase = .active ∧ State.reset.dec.io.err = .none ∧
  State.reset.dec.tag = 0 ∧ State.reset.dec.rem = 0 ∧ State.reset.enc.io.IN = [] ∧ State.reset.enc.io.OUT = [] ∧
  State.reset.dec.io.IN = [] ∧ State.reset.dec.io.OUT = [] ∧ status .enc State.reset = 0b0000#4 ∧
  status .dec State.reset = 0b0000#4

/-- A host's reset of a unit gives its registers the reset values in any state, and leaves the other unit, the host and the
schedule alone (10_state.md R33; 70_reset_and_hazards.md R147, R160). The item in hand is dropped and no item leaves the
channel; what had been delivered, the transaction in flight included, stays delivered: it is kept in the model's own
ghost earlier (log entry 8). -/
def Obligations.HostResetRestartsUnit : Prop :=
  ∀ s : State,
    (∃ e, doAct (.reset .enc) s = { s with enc := e } ∧ e.io.phase = .active ∧ e.io.err = .none ∧ e.mode = .lit ∧
      e.cnt = 0 ∧ e.io.IN = [] ∧ e.io.OUT = [] ∧ e.io.hand = none ∧ e.io.inQ = s.enc.io.inQ ∧
      e.io.earlier = s.enc.io.earlier ++ (streamsNow .enc s).2) ∧
    (∃ d, doAct (.reset .dec) s = { s with dec := d } ∧ d.io.phase = .active ∧ d.io.err = .none ∧ d.tag = 0 ∧
      d.rem = 0 ∧ d.io.IN = [] ∧ d.io.OUT = [] ∧ d.io.hand = none ∧ d.io.inQ = s.dec.io.inQ ∧
      d.io.earlier = s.dec.io.earlier ++ (streamsNow .dec s).2)

/-- One rising edge of a unit's clock (30_encoding.md R76; 70_reset_and_hazards.md R147, R154). An item that transfers is
taken on that edge: its operation runs whole, or it is in hand and in_ready is 0. Where no item and no byte transfers
nothing changes. In mid-transaction out_err ends it, and out_ready completes it with its last byte. An edge with rst takes
no item, and what was delivered stays delivered. Log entry 9 holds the model's own choices here: in_ready is 0 while the
model's channel holds items, and rst does not lower it; out_err and out_ready do nothing where no byte is offered
(out_valid = 0), in the first two clauses and on an edge with rst; a byte offered on an edge with rst transfers before the
reset. The ghost earlier is the model's own (log entry 8). -/
def Obligations.EdgeTransfers : Prop :=
  ∀ (u : UnitId) (s : State) (p : InPins),
    (p.rst = false → (s.io u).phase = .active → (s.io u).hand = none → (s.io u).inQ = [] → p.inValid = true →
      (∀ t, exec (decode (s.fsm u) (mkItem p.inKind p.inData)) s = .next t → edge u p s = .next t) ∧
      (∀ left, exec (decode (s.fsm u) (mkItem p.inKind p.inData)) s = .fault (.sinkWait left) →
        ∃ t, edge u p s = .next t ∧ (t.io u).hand = some (mkItem p.inKind p.inData) ∧
          outstanding u t = some left ∧ (outPins u t).inReady = false)) ∧
    (p.rst = false → (p.inValid = false ∨ (outPins u s).inReady = false) →
      ((outPins u s).outByte = none ∨ (p.outErr = false ∧ p.outReady = false)) → edge u p s = .next s) ∧
    (∀ (w : ItemWord) (b : Byte) (left : List Byte), p.rst = false → (s.io u).hand = some w →
      outstanding u s = some (b :: left) →
      (p.outErr = true → ∃ t, edge u p s = .next t ∧ (t.io u).phase = .failed ∧ (t.io u).err = .outputError ∧
        (t.io u).hand = none ∧ (t.io u).OUT = (streamsNow u s).2) ∧
      (p.outErr = false → p.outReady = true → ∃ t, edge u p s = .next t ∧ (streamsNow u t).2 = (streamsNow u s).2 ++ [b] ∧
        (left ≠ [] → outstanding u t = some left) ∧ (left = [] → (t.io u).hand = none))) ∧
    (p.rst = true → ∃ t, edge u p s = .next t ∧ (t.io u).phase = .active ∧ (t.io u).err = .none ∧
      (t.io u).IN = [] ∧ (t.io u).OUT = [] ∧ (t.io u).hand = none ∧ (t.io u).inQ = (s.io u).inQ ∧
      (∀ b last, (outPins u s).outByte = some (b, last) → p.outErr = false → p.outReady = true →
        (t.io u).earlier = (s.io u).earlier ++ (streamsNow u s).2 ++ [b]) ∧
      ((outPins u s).outByte = none ∨ p.outErr = true ∨ p.outReady = false →
        (t.io u).earlier = (s.io u).earlier ++ (streamsNow u s).2))

/-- 60_exceptions.md R129: a unit in FAILED or DONE stays there until its reset: every step but a reset of the unit leaves
its flags and its ghost streams as they are. -/
def Obligations.TerminalUntilReset : Prop :=
  ∀ (u : UnitId) (s t : State), (s.io u).phase = .done ∨ (s.io u).phase = .failed →
    s.host.head? ≠ some (.reset u) → step s = .next t →
    (t.io u).phase = (s.io u).phase ∧ (t.io u).err = (s.io u).err ∧ (t.io u).IN = (s.io u).IN ∧
    (t.io u).OUT = (s.io u).OUT

/-! ### Invariants and whole-machine results -/

/-- The reset state is sound. -/
def Obligations.ResetIsSound : Prop := State.reset.Inv

/-- Every step keeps the canonical form of the lookahead buffer (20_memory.md R40). -/
def Obligations.StepKeepsBufferForm : Prop :=
  ∀ s t : State, Memory.wf s.enc.buf = true → step s = .next t → Memory.wf t.enc.buf = true

/-- Every step keeps ENC's invariant (10_state.md R31: the ranges, no equal neighbours pending, losslessness; R17, R18;
60_exceptions.md R124), whoever moves. -/
def Obligations.StepKeepsEncInvariant : Prop :=
  ∀ s t : State, s.enc.Inv → step s = .next t → t.enc.Inv

/-- Every step keeps DEC's invariant (10_state.md R32: tag and remaining count agree, OUT is what was read so far;
R17, R18), whoever moves. -/
def Obligations.StepKeepsDecInvariant : Prop :=
  ∀ s t : State, s.dec.Inv → step s = .next t → t.dec.Inv

/-- 40_encoder.md R94: when ENC reaches DONE, its output decodes to its input, all of it. -/
def Obligations.EncDoneRoundTrip : Prop :=
  ∀ u : EncUnit, u.Inv → u.io.phase = .done →
    wireDecode u.io.OUT = { out := u.io.IN, result := .ok, used := u.io.OUT.length }

/-- 41_decoder.md R113: DEC computes decode(s). Offered s and then EOS with every write answered OK, it ends DONE or
FAILED with TruncatedStream as decode says, with the bytes decode gives and those it uses. -/
def Obligations.DecComputesDecode : Prop :=
  ∀ (s : State) (x : List Byte),
    s.dec.io.phase = .active → s.dec.io.err = .none → s.dec.tag = 0 → s.dec.rem = 0 →
    takesAll s.dec.io (wireDecode x).out.length →
    ∃ t, feed .dec (byteProgram x) s = .next t ∧
      t.dec.io.OUT = s.dec.io.OUT ++ (wireDecode x).out ∧
      t.dec.io.IN = s.dec.io.IN ++ x.take (wireDecode x).used ∧
      ((wireDecode x).result = .ok → t.dec.io.phase = .done ∧ t.dec.io.err = .none) ∧
      ((wireDecode x).result = .truncated → t.dec.io.phase = .failed ∧ t.dec.io.err = .truncatedStream)

/-- 41_decoder.md R114: whatever bytes a new invocation of ENC is given, it ends DONE with an output that decodes to
them, and DEC fed that output ends DONE with those bytes. -/
def Obligations.CodecRoundTrip : Prop :=
  ∀ (s : State) (x : List Byte),
    s.enc.io.phase = .active → s.enc.mode = .lit → s.enc.cnt = 0 → s.enc.io.IN = [] → s.enc.io.OUT = [] →
    takesAll s.enc.io (2 * x.length) →
    s.dec.io.phase = .active → s.dec.tag = 0 → s.dec.rem = 0 → s.dec.io.OUT = [] → takesAll s.dec.io x.length →
    ∃ t r, feed .enc (byteProgram x) s = .next t ∧ t.enc.io.phase = .done ∧ t.enc.io.err = .none ∧
      t.enc.io.IN = x ∧
      wireDecode t.enc.io.OUT = { out := x, result := .ok, used := t.enc.io.OUT.length } ∧
      feed .dec (byteProgram t.enc.io.OUT) t = .next r ∧ r.dec.io.phase = .done ∧ r.dec.io.err = .none ∧
      r.dec.io.OUT = x

/-- 30_encoding.md R79: REP n, v stands for the frames ENC emits for rep(v, n) encoded alone. -/
def Obligations.EncOfCopiesIsRep : Prop :=
  ∀ (s : State) (n : Nat) (v : Byte), 1 ≤ n →
    s.enc.io.phase = .active → s.enc.mode = .lit → s.enc.cnt = 0 → s.enc.io.OUT = [] → takesAll s.enc.io (2 * n) →
    ∃ t, feed .enc (byteProgram (List.replicate n v)) s = .next t ∧ t.enc.io.phase = .done ∧
      t.enc.io.OUT = framesBytes (repFrames n v)
end

