-- ==== Sys2Proof/Laws/State.lean ====
section
/-! SUPPORT. The fields of the state after each of its named updates: one lemma per field that changes or that a proof
would otherwise unfold the update for. -/

namespace Sys2Proof.Machine

@[simp] theorem runMax_eq : Config.runMax = 127 := rfl
@[simp] theorem litMax_eq : Config.litMax = 128 := rfl
@[simp] theorem bufCap_eq : Config.bufCap = 129 := rfl
@[simp] theorem runMinEnc_eq : Config.runMinEnc = 2 := rfl

@[simp] theorem recvByte_IN (b : Byte) (c : UnitIO) : (recvByte b c).IN = c.IN ++ [b] := rfl
@[simp] theorem recvByte_OUT (b : Byte) (c : UnitIO) : (recvByte b c).OUT = c.OUT := rfl
@[simp] theorem recvByte_phase (b : Byte) (c : UnitIO) : (recvByte b c).phase = c.phase := rfl
@[simp] theorem recvByte_err (b : Byte) (c : UnitIO) : (recvByte b c).err = c.err := rfl
@[simp] theorem recvByte_inQ (b : Byte) (c : UnitIO) : (recvByte b c).inQ = c.inQ := rfl
@[simp] theorem recvByte_hand (b : Byte) (c : UnitIO) : (recvByte b c).hand = c.hand := rfl
@[simp] theorem recvByte_earlier (b : Byte) (c : UnitIO) : (recvByte b c).earlier = c.earlier := rfl
@[simp] theorem recvByte_sink (b : Byte) (c : UnitIO) : (recvByte b c).sink = c.sink := rfl
@[simp] theorem recvByte_draws (b : Byte) (c : UnitIO) : (recvByte b c).draws = c.draws := rfl

@[simp] theorem raise_phase (e : ErrKind) (c : UnitIO) : (raise e c).phase = .failed := rfl
@[simp] theorem raise_err (e : ErrKind) (c : UnitIO) : (raise e c).err = e := rfl
@[simp] theorem raise_IN (e : ErrKind) (c : UnitIO) : (raise e c).IN = c.IN := rfl
@[simp] theorem raise_OUT (e : ErrKind) (c : UnitIO) : (raise e c).OUT = c.OUT := rfl
@[simp] theorem raise_inQ (e : ErrKind) (c : UnitIO) : (raise e c).inQ = c.inQ := rfl
@[simp] theorem raise_hand (e : ErrKind) (c : UnitIO) : (raise e c).hand = c.hand := rfl
@[simp] theorem raise_earlier (e : ErrKind) (c : UnitIO) : (raise e c).earlier = c.earlier := rfl
@[simp] theorem raise_sink (e : ErrKind) (c : UnitIO) : (raise e c).sink = c.sink := rfl
@[simp] theorem raise_draws (e : ErrKind) (c : UnitIO) : (raise e c).draws = c.draws := rfl

@[simp] theorem finish_phase (c : UnitIO) : (finish c).phase = .done := rfl
@[simp] theorem finish_err (c : UnitIO) : (finish c).err = .none := rfl
@[simp] theorem finish_IN (c : UnitIO) : (finish c).IN = c.IN := rfl
@[simp] theorem finish_OUT (c : UnitIO) : (finish c).OUT = c.OUT := rfl
@[simp] theorem finish_inQ (c : UnitIO) : (finish c).inQ = c.inQ := rfl
@[simp] theorem finish_hand (c : UnitIO) : (finish c).hand = c.hand := rfl
@[simp] theorem finish_earlier (c : UnitIO) : (finish c).earlier = c.earlier := rfl
@[simp] theorem finish_sink (c : UnitIO) : (finish c).sink = c.sink := rfl
@[simp] theorem finish_draws (c : UnitIO) : (finish c).draws = c.draws := rfl

@[simp] theorem encRecv_io (b : Byte) (u : EncUnit) : (encRecv b u).io = recvByte b u.io := rfl
@[simp] theorem encRecv_mode (b : Byte) (u : EncUnit) : (encRecv b u).mode = u.mode := rfl
@[simp] theorem encRecv_buf (b : Byte) (u : EncUnit) : (encRecv b u).buf = u.buf := rfl
@[simp] theorem encRecv_cnt (b : Byte) (u : EncUnit) : (encRecv b u).cnt = u.cnt := rfl
@[simp] theorem encRecv_runVal (b : Byte) (u : EncUnit) : (encRecv b u).runVal = u.runVal := rfl
@[simp] theorem encRecv_runLen (b : Byte) (u : EncUnit) : (encRecv b u).runLen = u.runLen := rfl

@[simp] theorem decRecv_io (b : Byte) (u : DecUnit) : (decRecv b u).io = recvByte b u.io := rfl
@[simp] theorem decRecv_tag (b : Byte) (u : DecUnit) : (decRecv b u).tag = u.tag := rfl
@[simp] theorem decRecv_rem (b : Byte) (u : DecUnit) : (decRecv b u).rem = u.rem := rfl

@[simp] theorem encUnspecified_phase (u : EncUnit) : u.unspecified.io.phase = u.io.phase := rfl
@[simp] theorem encUnspecified_err (u : EncUnit) : u.unspecified.io.err = u.io.err := rfl
@[simp] theorem encUnspecified_IN (u : EncUnit) : u.unspecified.io.IN = u.io.IN := rfl
@[simp] theorem encUnspecified_OUT (u : EncUnit) : u.unspecified.io.OUT = u.io.OUT := rfl
@[simp] theorem encUnspecified_inQ (u : EncUnit) : u.unspecified.io.inQ = u.io.inQ := rfl
@[simp] theorem encUnspecified_hand (u : EncUnit) : u.unspecified.io.hand = u.io.hand := rfl
@[simp] theorem encUnspecified_earlier (u : EncUnit) : u.unspecified.io.earlier = u.io.earlier := rfl
@[simp] theorem encUnspecified_sink (u : EncUnit) : u.unspecified.io.sink = u.io.sink := rfl
@[simp] theorem encUnspecified_draws (u : EncUnit) : u.unspecified.io.draws = u.io.draws + 1 := rfl
@[simp] theorem encUnspecified_buf (u : EncUnit) : u.unspecified.buf = freeBuffer u.io.draws := rfl

@[simp] theorem decUnspecified_phase (u : DecUnit) : u.unspecified.io.phase = u.io.phase := rfl
@[simp] theorem decUnspecified_err (u : DecUnit) : u.unspecified.io.err = u.io.err := rfl
@[simp] theorem decUnspecified_IN (u : DecUnit) : u.unspecified.io.IN = u.io.IN := rfl
@[simp] theorem decUnspecified_OUT (u : DecUnit) : u.unspecified.io.OUT = u.io.OUT := rfl
@[simp] theorem decUnspecified_inQ (u : DecUnit) : u.unspecified.io.inQ = u.io.inQ := rfl
@[simp] theorem decUnspecified_hand (u : DecUnit) : u.unspecified.io.hand = u.io.hand := rfl
@[simp] theorem decUnspecified_earlier (u : DecUnit) : u.unspecified.io.earlier = u.io.earlier := rfl
@[simp] theorem decUnspecified_sink (u : DecUnit) : u.unspecified.io.sink = u.io.sink := rfl
@[simp] theorem decUnspecified_draws (u : DecUnit) : u.unspecified.io.draws = u.io.draws + 1 := rfl

@[simp] theorem io_enc (s : State) : s.io .enc = s.enc.io := rfl
@[simp] theorem io_dec (s : State) : s.io .dec = s.dec.io := rfl
@[simp] theorem fsm_enc (s : State) : s.fsm .enc = .enc s.enc.mode := rfl
@[simp] theorem fsm_dec (s : State) : s.fsm .dec = .dec s.dec.tag := rfl

@[simp] theorem setInQ_enc_enc (s : State) (q : List ItemWord) :
    (s.setInQ .enc q).enc = { s.enc with io := { s.enc.io with inQ := q } } := rfl
@[simp] theorem setInQ_enc_dec (s : State) (q : List ItemWord) : (s.setInQ .enc q).dec = s.dec := rfl
@[simp] theorem setInQ_dec_enc (s : State) (q : List ItemWord) : (s.setInQ .dec q).enc = s.enc := rfl
@[simp] theorem setInQ_dec_dec (s : State) (q : List ItemWord) :
    (s.setInQ .dec q).dec = { s.dec with io := { s.dec.io with inQ := q } } := rfl
@[simp] theorem setInQ_host (s : State) (u : UnitId) (q : List ItemWord) : (s.setInQ u q).host = s.host := by
  cases u <;> rfl
@[simp] theorem setInQ_turn (s : State) (u : UnitId) (q : List ItemWord) : (s.setInQ u q).turn = s.turn := by
  cases u <;> rfl
@[simp] theorem setInQ_tick (s : State) (u : UnitId) (q : List ItemWord) : (s.setInQ u q).tick = s.tick := by
  cases u <;> rfl

@[simp] theorem setHand_enc_enc (s : State) (h : Option ItemWord) :
    (s.setHand .enc h).enc = { s.enc with io := { s.enc.io with hand := h } } := rfl
@[simp] theorem setHand_enc_dec (s : State) (h : Option ItemWord) : (s.setHand .enc h).dec = s.dec := rfl
@[simp] theorem setHand_dec_enc (s : State) (h : Option ItemWord) : (s.setHand .dec h).enc = s.enc := rfl
@[simp] theorem setHand_dec_dec (s : State) (h : Option ItemWord) :
    (s.setHand .dec h).dec = { s.dec with io := { s.dec.io with hand := h } } := rfl
@[simp] theorem setHand_host (s : State) (u : UnitId) (h : Option ItemWord) : (s.setHand u h).host = s.host := by
  cases u <;> rfl
@[simp] theorem setHand_turn (s : State) (u : UnitId) (h : Option ItemWord) : (s.setHand u h).turn = s.turn := by
  cases u <;> rfl
@[simp] theorem setHand_tick (s : State) (u : UnitId) (h : Option ItemWord) : (s.setHand u h).tick = s.tick := by
  cases u <;> rfl

@[simp] theorem setSink_enc_enc (s : State) (rs : List SinkReply) :
    (s.setSink .enc rs).enc = { s.enc with io := { s.enc.io with sink := rs } } := rfl
@[simp] theorem setSink_enc_dec (s : State) (rs : List SinkReply) : (s.setSink .enc rs).dec = s.dec := rfl
@[simp] theorem setSink_dec_enc (s : State) (rs : List SinkReply) : (s.setSink .dec rs).enc = s.enc := rfl
@[simp] theorem setSink_dec_dec (s : State) (rs : List SinkReply) :
    (s.setSink .dec rs).dec = { s.dec with io := { s.dec.io with sink := rs } } := rfl
@[simp] theorem setSink_host (s : State) (u : UnitId) (rs : List SinkReply) : (s.setSink u rs).host = s.host := by
  cases u <;> rfl
@[simp] theorem setSink_turn (s : State) (u : UnitId) (rs : List SinkReply) : (s.setSink u rs).turn = s.turn := by
  cases u <;> rfl
@[simp] theorem setSink_tick (s : State) (u : UnitId) (rs : List SinkReply) : (s.setSink u rs).tick = s.tick := by
  cases u <;> rfl

@[simp] theorem restart_phase (c : UnitIO) (d : List Byte) : (c.restart d).phase = .active := rfl
@[simp] theorem restart_err (c : UnitIO) (d : List Byte) : (c.restart d).err = .none := rfl
@[simp] theorem restart_IN (c : UnitIO) (d : List Byte) : (c.restart d).IN = [] := rfl
@[simp] theorem restart_OUT (c : UnitIO) (d : List Byte) : (c.restart d).OUT = [] := rfl
@[simp] theorem restart_inQ (c : UnitIO) (d : List Byte) : (c.restart d).inQ = c.inQ := rfl
@[simp] theorem restart_hand (c : UnitIO) (d : List Byte) : (c.restart d).hand = none := rfl
@[simp] theorem restart_earlier (c : UnitIO) (d : List Byte) : (c.restart d).earlier = c.earlier ++ d := rfl
@[simp] theorem restart_draws (c : UnitIO) (d : List Byte) : (c.restart d).draws = c.draws := rfl

@[simp] theorem reschedule_enc (s : State) : (reschedule s).enc = s.enc := rfl
@[simp] theorem reschedule_dec (s : State) : (reschedule s).dec = s.dec := rfl
@[simp] theorem reschedule_host (s : State) : (reschedule s).host = s.host := rfl
@[simp] theorem reschedule_tick (s : State) : (reschedule s).tick = s.tick + 1 := rfl

end Sys2Proof.Machine
end

