-- ==== Sys2Proof/Laws/Memory.lean ====
section
/-! SUPPORT. The lookahead buffer: read after write, the canonical form, and spans. -/

namespace Sys2Proof.Machine

theorem memLookup_memInsert_same (m : Memory) (i : Nat) (b : Byte) : memLookup (memInsert m i b) i = some b := by
  induction m with
  | nil => simp [memInsert, memLookup]
  | cons c rest ih =>
    obtain ⟨j, x⟩ := c
    simp only [memInsert]
    split
    · simp [memLookup]
    · split
      · simp [memLookup]
      · simp only [memLookup]
        rw [if_neg (by omega), ih]

theorem memLookup_memInsert_other (m : Memory) {i j : Nat} (b : Byte) (h : j ≠ i) :
    memLookup (memInsert m i b) j = memLookup m j := by
  induction m with
  | nil => simp [memInsert, memLookup]; omega
  | cons c rest ih =>
    obtain ⟨k, x⟩ := c
    simp only [memInsert]
    split
    · simp [memLookup]; omega
    · split
      · simp only [memLookup]
        rw [if_neg (by omega), if_neg (by omega)]
      · simp only [memLookup, ih]

/-- MemWrite then MemRead: the byte written at its index. -/
theorem memRead_memWrite_same {m m' : Memory} {i : Nat} {b : Byte} (h : memWrite m i b = .ok m') :
    memRead m' i = .ok b := by
  unfold memWrite at h
  split at h
  · cases h
    simp_all [memRead, memLookup_memInsert_same]
  · cases h

/-- MemWrite then MemRead: every other index as before. -/
theorem memRead_memWrite_other {m m' : Memory} {i j : Nat} {b : Byte} (h : memWrite m i b = .ok m') (hj : j ≠ i) :
    memRead m' j = memRead m j := by
  unfold memWrite at h
  split at h
  · cases h
    simp [memRead, memLookup_memInsert_other m b hj]
  · cases h

theorem memWrite_ok {m : Memory} {i : Nat} {b : Byte} (h : i < Config.bufCap) :
    memWrite m i b = .ok (memInsert m i b) := by
  simp [memWrite, h]

theorem wf_head_lt {i j : Nat} {b c : Byte} {rest : Memory} (h : Memory.wf ((i, b) :: (j, c) :: rest) = true) :
    i < j := by
  simp only [Memory.wf, Bool.and_eq_true, decide_eq_true_eq] at h
  exact h.1

theorem wf_tail {c : Host.Cell} {rest : Memory} (h : Memory.wf (c :: rest) = true) : Memory.wf rest = true := by
  cases rest with
  | nil => rfl
  | cons d rest =>
    simp only [Memory.wf, Bool.and_eq_true] at h
    exact h.2

theorem wf_bound {i : Nat} {b : Byte} {rest : Memory} (h : Memory.wf ((i, b) :: rest) = true) : i < Config.bufCap := by
  induction rest generalizing i b with
  | nil => simpa [Memory.wf] using h
  | cons d rest ih =>
    obtain ⟨j, c⟩ := d
    exact lt_trans (wf_head_lt h) (ih (wf_tail h))

/-- A head below the list's first index, and inside the buffer, keeps the canonical form. -/
theorem wf_cons {i : Nat} {b : Byte} {rest : Memory} (hi : i < Config.bufCap) (hr : Memory.wf rest = true)
    (hlt : ∀ j c rest', rest = (j, c) :: rest' → i < j) : Memory.wf ((i, b) :: rest) = true := by
  cases rest with
  | nil => simpa [Memory.wf] using hi
  | cons d rest =>
    obtain ⟨j, c⟩ := d
    simp only [Memory.wf, Bool.and_eq_true, decide_eq_true_eq]
    exact ⟨hlt j c rest rfl, hr⟩

theorem memInsert_head {m : Memory} {i : Nat} {b : Byte} {j : Nat} {c : Byte} {rest : Memory}
    (h : memInsert m i b = (j, c) :: rest) : j = i ∨ ∃ c' rest', m = (j, c') :: rest' := by
  cases m with
  | nil => simp [memInsert] at h; exact .inl h.1.1.symm
  | cons d m =>
    obtain ⟨k, x⟩ := d
    simp only [memInsert] at h
    split at h
    · simp at h; exact .inl h.1.1.symm
    · split at h
      · simp at h; exact .inl h.1.1.symm
      · simp at h; exact .inr ⟨x, m, by rw [h.1.1]⟩

theorem wf_memInsert {m : Memory} {i : Nat} {b : Byte} (h : Memory.wf m = true) (hi : i < Config.bufCap) :
    Memory.wf (memInsert m i b) = true := by
  induction m with
  | nil => simpa [memInsert, Memory.wf] using hi
  | cons c rest ih =>
    obtain ⟨k, x⟩ := c
    simp only [memInsert]
    split
    · rename_i hlt
      exact wf_cons hi h (fun j c rest' e => by simp at e; omega)
    · split
      · rename_i he
        subst he
        refine wf_cons hi (wf_tail h) (fun j c rest' e => ?_)
        subst e
        exact wf_head_lt h
      · rename_i hlt hne
        refine wf_cons (wf_bound h) (ih (wf_tail h)) (fun j c rest' e => ?_)
        rcases memInsert_head e with rfl | ⟨c', rest'', e'⟩
        · omega
        · subst e'
          exact wf_head_lt h

/-- Every buffer write keeps the canonical form. -/
theorem wf_memWrite {m m' : Memory} {i : Nat} {b : Byte} (h : Memory.wf m = true) (hw : memWrite m i b = .ok m') :
    Memory.wf m' = true := by
  unfold memWrite at hw
  split at hw
  · cases hw
    exact wf_memInsert h ‹_›
  · cases hw

theorem wf_map_range' (f : Nat → Byte) (a n : Nat) (h : a + n ≤ Config.bufCap) :
    Memory.wf ((List.range' a n).map fun i => (i, f i)) = true := by
  induction n generalizing a with
  | zero => rfl
  | succ n ih =>
    simp only [List.range'_succ, List.map_cons]
    refine wf_cons (by omega) (ih (a + 1) (by omega)) (fun j c rest' e => ?_)
    cases n with
    | zero => simp at e
    | succ n =>
      simp only [List.range'_succ, List.map_cons, List.cons.injEq, Prod.mk.injEq] at e
      omega

/-- A buffer of free values has the canonical form. -/
theorem wf_freeBuffer (n : Nat) : Memory.wf (freeBuffer n) = true := by
  unfold freeBuffer
  rw [List.range_eq_range']
  exact wf_map_range' _ 0 Config.bufCap (by omega)

/-- The buffer of the reset state has the canonical form. -/
theorem wf_reset : Memory.wf State.reset.enc.buf = true := rfl

theorem memSpan_length {m : Memory} {i n : Nat} {p : List Byte} (h : memSpan m i n = .ok p) : p.length = n := by
  induction n generalizing i p with
  | zero => simp [memSpan] at h; simp [← h]
  | succ n ih =>
    simp only [memSpan] at h
    split at h
    · cases h
    · split at h
      · cases h
      · rename_i hbs
        cases h
        simp [ih hbs]

/-- The bytes of a span are what MemRead gives at its indices. -/
theorem memSpan_ok_iff {m : Memory} {i n : Nat} {p : List Byte} :
    memSpan m i n = .ok p ↔ p.length = n ∧ ∀ k (hk : k < p.length), memRead m (i + k) = .ok p[k] := by
  induction n generalizing i p with
  | zero =>
    simp only [memSpan, Except.ok.injEq]
    constructor
    · rintro rfl; simp
    · rintro ⟨h, -⟩; exact (List.length_eq_zero_iff.mp h).symm
  | succ n ih =>
    simp only [memSpan]
    constructor
    · intro h
      refine ⟨memSpan_length (i := i) (by simpa only [memSpan] using h), ?_⟩
      split at h
      · cases h
      · rename_i hb
        split at h
        · cases h
        · rename_i hbs
          cases h
          intro k hk
          cases k with
          | zero => simpa using hb
          | succ k =>
            have := (ih.mp hbs).2 k (by simpa using hk)
            simpa [Nat.add_assoc, Nat.add_comm 1 k] using this
    · rintro ⟨hlen, hall⟩
      cases p with
      | nil => simp at hlen
      | cons b bs =>
        have h0 : memRead m i = .ok b := hall 0 (by simp)
        have hrest : memSpan m (i + 1) n = .ok bs := by
          refine ih.mpr ⟨by simpa using hlen, fun k hk => ?_⟩
          have := hall (k + 1) (by simpa using hk)
          simpa [Nat.add_assoc, Nat.add_comm 1 k] using this
        simp [h0, hrest]

/-- A span does not see a write outside it. -/
theorem memSpan_memInsert_outside {m : Memory} {i n j : Nat} {b : Byte} (h : j < i ∨ i + n ≤ j) :
    memSpan (memInsert m j b) i n = memSpan m i n := by
  induction n generalizing i with
  | zero => rfl
  | succ n ih =>
    have hr : memRead (memInsert m j b) i = memRead m i := by
      simp only [memRead]
      rw [memLookup_memInsert_other m b (by omega)]
    simp only [memSpan, hr, ih (i := i + 1) (by omega)]

/-- Writing the entry after a span makes the span longer by the byte written (40_encoder.md R83). -/
theorem memSpan_memInsert_end {m : Memory} {n : Nat} {b : Byte} {p : List Byte} (h : memSpan m 0 n = .ok p)
    (hn : n < Config.bufCap) : memSpan (memInsert m n b) 0 (n + 1) = .ok (p ++ [b]) := by
  have hlen := memSpan_length h
  refine memSpan_ok_iff.mpr ⟨by simp [hlen], fun k hk => ?_⟩
  have hk' : k < n + 1 := by simpa [hlen] using hk
  rcases Nat.lt_succ_iff_lt_or_eq.mp hk' with hlt | rfl
  · have hp := (memSpan_ok_iff.mp h).2 k (by omega)
    rw [List.getElem_append_left (by omega), ← hp]
    simp only [memRead]
    rw [memLookup_memInsert_other m b (by omega)]
  · simp only [memRead, Nat.zero_add, hn, ↓reduceIte, memLookup_memInsert_same]
    rw [List.getElem_append_right (by omega)]
    simp

/-- The first k entries of a span. -/
theorem memSpan_take {m : Memory} {i n k : Nat} {p : List Byte} (h : memSpan m i n = .ok p) (hk : k ≤ n) :
    memSpan m i k = .ok (p.take k) := by
  have hlen := memSpan_length h
  refine memSpan_ok_iff.mpr ⟨by simp [hlen, hk], fun j hj => ?_⟩
  have := (memSpan_ok_iff.mp h).2 j (by simp at hj; omega)
  simpa using this

end Sys2Proof.Machine
end

