-- ==== Sys2Proof/Laws/Write.lean ====
section
/-! SUPPORT. What the sink can answer to a transaction, and what OutWrite makes of it (20_memory.md R48). -/

namespace Sys2Proof.Machine

theorem outWrite_accept (s : List Byte) (rest : List SinkReply) :
    outWrite s (List.replicate s.length .accept ++ rest) = .ok rest := by
  induction s with
  | nil => rfl
  | cons b bs ih => simp [List.replicate_succ, outWrite, ih]

theorem outWrite_fail (s : List Byte) (k : Nat) (rest : List SinkReply) (hk : k < s.length) :
    outWrite s (List.replicate k .accept ++ .fail :: rest) = .err k rest := by
  induction s generalizing k with
  | nil => simp at hk
  | cons b bs ih =>
    cases k with
    | zero => simp [outWrite]
    | succ k =>
      simp [List.replicate_succ, outWrite, ih k (by simpa using hk)]

theorem outWrite_short (s : List Byte) (k : Nat) (hk : k < s.length) :
    outWrite s (List.replicate k .accept) = .wait (s.drop k) := by
  induction s generalizing k with
  | nil => simp at hk
  | cons b bs ih =>
    cases k with
    | zero => simp [outWrite]
    | succ k => simp [List.replicate_succ, outWrite, ih k (by simpa using hk)]

/-- Everything the sink can answer to a transaction. -/
theorem outWrite_cases (s : List Byte) (rs : List SinkReply) :
    (∃ rest, outWrite s rs = .ok rest ∧ rs = List.replicate s.length .accept ++ rest) ∨
    (∃ k rest, outWrite s rs = .err k rest ∧ k < s.length ∧ rs = List.replicate k .accept ++ .fail :: rest) ∨
    (∃ k, outWrite s rs = .wait (s.drop k) ∧ k < s.length ∧ rs = List.replicate k .accept) := by
  induction s generalizing rs with
  | nil => exact .inl ⟨rs, rfl, rfl⟩
  | cons b bs ih =>
    cases rs with
    | nil => exact .inr (.inr ⟨0, rfl, by simp, rfl⟩)
    | cons r rs =>
      cases r with
      | fail => exact .inr (.inl ⟨0, rs, rfl, by simp, rfl⟩)
      | accept =>
        rcases ih rs with ⟨rest, h, hr⟩ | ⟨k, rest, h, hk, hr⟩ | ⟨k, h, hk, hr⟩
        · exact .inl ⟨rest, by simp [outWrite, h], by simp [List.replicate_succ, hr]⟩
        · exact .inr (.inl ⟨k + 1, rest, by simp [outWrite, h], by simpa using hk, by simp [List.replicate_succ, hr]⟩)
        · exact .inr (.inr ⟨k + 1, by simp [outWrite, h], by simpa using hk, by simp [List.replicate_succ, hr]⟩)

/-- The unit's channels and ghosts after a transaction the sink took whole. -/
def UnitIO.wrote (c : UnitIO) (s : List Byte) (rest : List SinkReply) : UnitIO :=
  { c with OUT := c.OUT ++ s, sink := rest }

theorem encWrite_accept {s : List Byte} {u : EncUnit} {rest : List SinkReply}
    (h : u.io.sink = List.replicate s.length .accept ++ rest) :
    encWrite s u = .go { u with io := u.io.wrote s rest } := by
  simp [encWrite, ioWrite, h, outWrite_accept, UnitIO.wrote]

theorem decWrite_accept {s : List Byte} {u : DecUnit} {rest : List SinkReply}
    (h : u.io.sink = List.replicate s.length .accept ++ rest) :
    decWrite s u = .go { u with io := u.io.wrote s rest } := by
  simp [decWrite, ioWrite, h, outWrite_accept, UnitIO.wrote]

/-- Everything OutWrite can do in ENC. -/
theorem encWrite_cases (s : List Byte) (u : EncUnit) :
    (∃ rest, encWrite s u = .go { u with io := u.io.wrote s rest } ∧
      u.io.sink = List.replicate s.length .accept ++ rest) ∨
    (∃ k rest, k < s.length ∧ u.io.sink = List.replicate k .accept ++ .fail :: rest ∧
      encWrite s u = .ended (EncUnit.unspecified { u with io := raise .outputError (u.io.wrote (s.take k) rest) })) ∨
    (∃ k, k < s.length ∧ u.io.sink = List.replicate k .accept ∧ encWrite s u = .stop (.sinkWait (s.drop k))) := by
  rcases outWrite_cases s u.io.sink with ⟨rest, h, hr⟩ | ⟨k, rest, h, hk, hr⟩ | ⟨k, h, hk, hr⟩
  · exact .inl ⟨rest, by simp [encWrite, ioWrite, h, UnitIO.wrote], hr⟩
  · exact .inr (.inl ⟨k, rest, hk, hr, by simp [encWrite, ioWrite, h, UnitIO.wrote]⟩)
  · exact .inr (.inr ⟨k, hk, hr, by simp [encWrite, ioWrite, h]⟩)

/-- Everything OutWrite can do in DEC. -/
theorem decWrite_cases (s : List Byte) (u : DecUnit) :
    (∃ rest, decWrite s u = .go { u with io := u.io.wrote s rest } ∧
      u.io.sink = List.replicate s.length .accept ++ rest) ∨
    (∃ k rest, k < s.length ∧ u.io.sink = List.replicate k .accept ++ .fail :: rest ∧
      decWrite s u = .ended (DecUnit.unspecified { u with io := raise .outputError (u.io.wrote (s.take k) rest) })) ∨
    (∃ k, k < s.length ∧ u.io.sink = List.replicate k .accept ∧ decWrite s u = .stop (.sinkWait (s.drop k))) := by
  rcases outWrite_cases s u.io.sink with ⟨rest, h, hr⟩ | ⟨k, rest, h, hk, hr⟩ | ⟨k, h, hk, hr⟩
  · exact .inl ⟨rest, by simp [decWrite, ioWrite, h, UnitIO.wrote], hr⟩
  · exact .inr (.inl ⟨k, rest, hk, hr, by simp [decWrite, ioWrite, h, UnitIO.wrote]⟩)
  · exact .inr (.inr ⟨k, hk, hr, by simp [decWrite, ioWrite, h]⟩)

end Sys2Proof.Machine
end

