-- ==== Sys2Proof/Laws/Ops.lean ====
section
/-! SUPPORT. What the shared operations can do: the gate, the lifting to the machine, and frame emission. -/

namespace Sys2Proof.Machine

/-- Where the gate lets an operation through. -/
theorem gate_pass {α : Type} {p : Phase} {sel inRange : Bool} (x : Flow α) (hp : p = .active) (hs : sel = true)
    (hr : inRange = true) : gate p sel inRange x = x := by
  subst hp hs hr; rfl

/-- Everything the gate can do. -/
theorem gate_cases {α : Type} (p : Phase) (sel inRange : Bool) (x : Flow α) :
    (p = .active ∧ sel = true ∧ inRange = true ∧ gate p sel inRange x = x) ∨
    (p = .active ∧ sel = false ∧ gate p sel inRange x = .stop .notSelected) ∨
    (p = .active ∧ sel = true ∧ inRange = false ∧ gate p sel inRange x = .stop .operandRange) ∨
    ((p = .done ∨ p = .failed) ∧ gate p sel inRange x = .stop .terminal) ∨
    (p = .reserved ∧ gate p sel inRange x = .stop .phaseReserved) := by
  cases p <;> cases sel <;> cases inRange <;> simp [gate]

/-- A unit in DONE or FAILED has no step (60_exceptions.md R130). -/
theorem gate_terminal {α : Type} {p : Phase} (sel inRange : Bool) (x : Flow α) (hp : p.isTerminal = true) :
    gate p sel inRange x = .stop .terminal := by
  cases p <;> simp_all [gate, Phase.isTerminal]

theorem liftEnc_next {s t : State} {x : Flow EncUnit} (h : liftEnc s x = .next t) :
    ∃ u, (x = .go u ∨ x = .ended u) ∧ t = { s with enc := u } := by
  cases x with
  | go u => exact ⟨u, .inl rfl, by simpa [liftEnc] using h.symm⟩
  | ended u => exact ⟨u, .inr rfl, by simpa [liftEnc] using h.symm⟩
  | stop f => simp [liftEnc] at h

theorem liftDec_next {s t : State} {x : Flow DecUnit} (h : liftDec s x = .next t) :
    ∃ u, (x = .go u ∨ x = .ended u) ∧ t = { s with dec := u } := by
  cases x with
  | go u => exact ⟨u, .inl rfl, by simpa [liftDec] using h.symm⟩
  | ended u => exact ⟨u, .inr rfl, by simpa [liftDec] using h.symm⟩
  | stop f => simp [liftDec] at h

theorem bind_go {α : Type} {x : Flow α} {k : α → Flow α} {a : α} (h : x.bind k = .go a) :
    ∃ b, x = .go b ∧ k b = .go a := by
  cases x with
  | go b => exact ⟨b, rfl, h⟩
  | ended b => simp [Flow.bind] at h
  | stop f => simp [Flow.bind] at h

theorem bind_ended {α : Type} {x : Flow α} {k : α → Flow α} {a : α} (h : x.bind k = .ended a) :
    x = .ended a ∨ ∃ b, x = .go b ∧ k b = .ended a := by
  cases x with
  | go b => exact .inr ⟨b, rfl, h⟩
  | ended b => exact .inl (by simpa [Flow.bind] using h)
  | stop f => simp [Flow.bind] at h

@[simp] theorem bind_of_go {α : Type} (a : α) (k : α → Flow α) : (Flow.go a).bind k = k a := rfl
@[simp] theorem bind_of_ended {α : Type} (a : α) (k : α → Flow α) : (Flow.ended a).bind k = .ended a := rfl
@[simp] theorem bind_of_stop {α : Type} (f : Fault) (k : α → Flow α) : (Flow.stop f : Flow α).bind k = .stop f := rfl

/-- EmitRun in its operand range is one transaction (40_encoder.md R81). -/
theorem emitRun_eq {len : Nat} (v : Byte) (u : EncUnit) (h2 : 2 ≤ len) (h127 : len ≤ 127) :
    emitRun len v u = encWrite [runTag len, v] u := by
  simp [emitRun, Config.runMinEnc, Config.runMax, h2, h127]

/-- EmitLit in its operand range is one transaction (40_encoder.md R82). -/
theorem emitLit_eq {s : List Byte} (u : EncUnit) (h1 : 1 ≤ s.length) (h128 : s.length ≤ 128) :
    emitLit s u = encWrite (litTag s.length :: s) u := by
  simp [emitLit, Config.litMax, h1, h128]

/-- With nothing to flush, nothing is written (40_encoder.md R89). -/
@[simp] theorem flushFirst_zero (u : EncUnit) : flushFirst 0 u = .go u := rfl

/-- Flushing the first n pending bytes is one literal frame (40_encoder.md R83, R86). -/
theorem flushFirst_eq {n : Nat} {u : EncUnit} {p : List Byte} (hp : memSpan u.buf 0 n = .ok p) (h1 : 1 ≤ n)
    (h128 : n ≤ 128) : flushFirst n u = encWrite (litTag n :: p) u := by
  have hlen := memSpan_length hp
  rw [flushFirst, if_neg (by omega), hp]
  subst hlen
  exact emitLit_eq u h1 h128

/-- The run-start check on pending bytes p and a new byte b: it holds where b equals the last of p (40_encoder.md R83). -/
theorem lastPairEqual_append {m : Memory} {p : List Byte} {b : Byte} (h : memSpan m 0 (p.length + 1) = .ok (p ++ [b])) :
    lastPairEqual m (p.length + 1) = .ok (decide (p.getLast? = some b)) := by
  obtain ⟨-, hall⟩ := memSpan_ok_iff.mp h
  rcases List.eq_nil_or_concat p with rfl | ⟨q, x, rfl⟩
  · simp [lastPairEqual]
  · rw [List.concat_eq_append] at hall ⊢
    have hb := hall (q.length + 1) (by simp)
    have hx := hall q.length (by simp)
    rw [List.getElem_append_right (by simp)] at hb
    rw [List.getElem_append_left (by simp), List.getElem_append_right (by simp)] at hx
    simp only [Nat.zero_add, List.length_append, List.length_cons, List.length_nil, Nat.sub_self,
      List.getElem_cons_zero] at hb hx
    simp only [lastPairEqual, List.length_append, List.length_cons, List.length_nil, Nat.zero_add,
      List.getLast?_append, List.getLast?_singleton, Option.some_or, Option.some.injEq]
    rw [if_neg (by omega), show q.length + 1 + 1 - 1 = q.length + 1 by omega,
      show q.length + 1 + 1 - 2 = q.length by omega, hb, hx]
    by_cases e : b = x
    · simp [e]
    · simp [e, Ne.symm e]

end Sys2Proof.Machine
end

