-- ==== Sys2Proof/Laws/Encoder.lean ====
section
/-! SUPPORT. Everything the ENC operations can do when they answer a next state: one inversion lemma an operation. -/

namespace Sys2Proof.Machine

/-- The unit after a transaction that the sink took whole. -/
def EncUnit.sent (u : EncUnit) (tx : List Byte) (rest : List SinkReply) : EncUnit :=
  { u with io := u.io.wrote tx rest }

/-- The unit after a transaction that the sink failed after k bytes (60_exceptions.md R126, R127). -/
def EncUnit.outputError (u : EncUnit) (tx : List Byte) (k : Nat) (rest : List SinkReply) : EncUnit :=
  EncUnit.unspecified { u with io := raise .outputError (u.io.wrote (tx.take k) rest) }

@[simp] theorem wrote_phase (c : UnitIO) (s : List Byte) (r : List SinkReply) : (c.wrote s r).phase = c.phase := rfl
@[simp] theorem wrote_err (c : UnitIO) (s : List Byte) (r : List SinkReply) : (c.wrote s r).err = c.err := rfl
@[simp] theorem wrote_IN (c : UnitIO) (s : List Byte) (r : List SinkReply) : (c.wrote s r).IN = c.IN := rfl
@[simp] theorem wrote_OUT (c : UnitIO) (s : List Byte) (r : List SinkReply) : (c.wrote s r).OUT = c.OUT ++ s := rfl
@[simp] theorem wrote_inQ (c : UnitIO) (s : List Byte) (r : List SinkReply) : (c.wrote s r).inQ = c.inQ := rfl
@[simp] theorem wrote_sink (c : UnitIO) (s : List Byte) (r : List SinkReply) : (c.wrote s r).sink = r := rfl
@[simp] theorem wrote_draws (c : UnitIO) (s : List Byte) (r : List SinkReply) : (c.wrote s r).draws = c.draws := rfl

theorem encWrite_go {tx : List Byte} {u v : EncUnit} (h : encWrite tx u = .go v) :
    ∃ rest, v = u.sent tx rest ∧ u.io.sink = List.replicate tx.length .accept ++ rest := by
  rcases encWrite_cases tx u with ⟨rest, e, hs⟩ | ⟨k, rest, -, -, e⟩ | ⟨k, -, -, e⟩ <;> rw [e] at h <;> cases h
  exact ⟨rest, rfl, hs⟩

theorem encWrite_ended {tx : List Byte} {u v : EncUnit} (h : encWrite tx u = .ended v) :
    ∃ k rest, v = u.outputError tx k rest ∧ k < tx.length ∧ u.io.sink = List.replicate k .accept ++ .fail :: rest := by
  rcases encWrite_cases tx u with ⟨rest, e, hs⟩ | ⟨k, rest, hk, hs, e⟩ | ⟨k, -, -, e⟩ <;> rw [e] at h <;> cases h
  exact ⟨k, rest, rfl, hk, hs⟩

/-- A flush is nothing, or one literal frame of the bytes it reads. -/
theorem flushFirst_cases {n : Nat} {u : EncUnit} {f : Flow EncUnit} (h : flushFirst n u = f)
    (hf : ∀ e, f ≠ .stop e) :
    (n = 0 ∧ f = .go u) ∨
    (∃ p, memSpan u.buf 0 n = .ok p ∧ 1 ≤ n ∧ n ≤ 128 ∧ f = encWrite (litTag n :: p) u) := by
  rw [flushFirst] at h
  split at h
  · exact .inl ⟨‹_›, h.symm⟩
  · split at h
    · exact absurd h.symm (hf _)
    · rename_i p hp
      have hlen := memSpan_length hp
      simp only [emitLit, litMax_eq] at h
      split at h
      · subst hlen
        exact .inr ⟨p, hp, by omega, by omega, h.symm⟩
      · exact absurd h.symm (hf _)

theorem emitRun_cases {n : Nat} {v : Byte} {u : EncUnit} {f : Flow EncUnit} (h : emitRun n v u = f)
    (hf : ∀ e, f ≠ .stop e) : 2 ≤ n ∧ n ≤ 127 ∧ f = encWrite [runTag n, v] u := by
  rw [emitRun] at h
  split at h
  · rename_i hr
    exact ⟨hr.1, hr.2, h.symm⟩
  · exact absurd h.symm (hf _)

/-- Everything the gate lets through when the step does not stop. -/
theorem gate_through {α : Type} {p : Phase} {sel inRange : Bool} {x f : Flow α} (h : gate p sel inRange x = f)
    (hf : ∀ e, f ≠ .stop e) : p = .active ∧ sel = true ∧ inRange = true ∧ x = f := by
  rcases gate_cases p sel inRange x with ⟨a, b, c, e⟩ | ⟨-, -, e⟩ | ⟨-, -, -, e⟩ | ⟨-, e⟩ | ⟨-, e⟩
  · exact ⟨a, b, c, e.symm.trans h⟩
  all_goals exact absurd (h.symm.trans e) (hf _)

/-- The LIT state after the append of R83: the byte at index cnt, cnt one more. -/
def EncUnit.appended (u : EncUnit) (b : Byte) : EncUnit :=
  { encRecv b u with buf := memInsert u.buf u.cnt.toNat b, cnt := u.cnt + 1 }

/-- The RUN state after a run start (40_encoder.md R83). -/
def EncUnit.running (u : EncUnit) (b : Byte) : EncUnit := { u with runVal := b, runLen := 2, mode := .run, cnt := 0 }

/-- Everything ENC.BYTE.LIT can do (40_encoder.md R83). -/
theorem encByteLit_cases {b : Byte} {u v : EncUnit} (h : encByteLit b u = .go v ∨ encByteLit b u = .ended v) :
    u.io.phase = .active ∧ u.mode = .lit ∧ u.cnt.toNat ≤ 128 ∧
    ((lastPairEqual (u.appended b).buf (u.cnt.toNat + 1) = .ok false ∧ u.cnt.toNat < 128 ∧ v = u.appended b) ∨
     (lastPairEqual (u.appended b).buf (u.cnt.toNat + 1) = .ok true ∧ u.cnt.toNat ≤ 1 ∧ v = (u.appended b).running b) ∨
     (∃ p, lastPairEqual (u.appended b).buf (u.cnt.toNat + 1) = .ok true ∧ 2 ≤ u.cnt.toNat ∧
        memSpan (u.appended b).buf 0 (u.cnt.toNat - 1) = .ok p ∧
        ((∃ rest, u.io.sink = List.replicate (p.length + 1) .accept ++ rest ∧
            v = ((u.appended b).sent (litTag p.length :: p) rest).running b) ∨
         (∃ k rest, k < p.length + 1 ∧ v = (u.appended b).outputError (litTag p.length :: p) k rest ∧
            u.io.sink = List.replicate k .accept ++ .fail :: rest))) ∨
     (∃ p, lastPairEqual (u.appended b).buf (u.cnt.toNat + 1) = .ok false ∧ u.cnt.toNat = 128 ∧
        memSpan (u.appended b).buf 0 128 = .ok p ∧
        ((∃ rest, u.io.sink = List.replicate 129 .accept ++ rest ∧
            v = { (u.appended b).sent (litTag 128 :: p) rest with buf := memInsert (u.appended b).buf 0 b, cnt := 1 }) ∨
         (∃ k rest, k < 129 ∧ v = (u.appended b).outputError (litTag 128 :: p) k rest ∧
            u.io.sink = List.replicate k .accept ++ .fail :: rest)))) := by
  obtain ⟨f, hf, hcase⟩ : ∃ f, encByteLit b u = f ∧ (f = .go v ∨ f = .ended v) := ⟨_, rfl, h⟩
  have hns : ∀ e, f ≠ .stop e := by rintro e rfl; rcases hcase with h | h <;> cases h
  obtain ⟨hp, hm, hr, hx⟩ := gate_through hf hns
  have hm : u.mode = .lit := by simpa using hm
  have hr : u.cnt.toNat ≤ 128 := by simpa [litInRange] using hr
  refine ⟨hp, hm, hr, ?_⟩
  rw [appendByte, encRecv_buf, encRecv_cnt, memWrite_ok (by simp; omega)] at hx
  change (match lastPairEqual (u.appended b).buf (u.cnt.toNat + 1) with
    | .error f => Flow.stop f
    | .ok true => runStart b (u.cnt.toNat + 1) (u.appended b)
    | .ok false => if u.cnt.toNat + 1 = 129 then fullBuffer (u.appended b) else .go (u.appended b)) = f at hx
  split at hx
  · exact absurd hx.symm (hns _)
  · rename_i hl
    rw [runStart] at hx
    generalize hg : flushFirst (u.cnt.toNat + 1 - 2) (u.appended b) = g at hx
    have hgs : ∀ e, g ≠ .stop e := by rintro e rfl; exact hns e hx.symm
    rcases flushFirst_cases hg hgs with ⟨h0, rfl⟩ | ⟨p, hspan, h1, h128, rfl⟩
    · right; left
      refine ⟨hl, by omega, ?_⟩
      simp only [bind_of_go] at hx
      subst hx
      rcases hcase with h | h <;> cases h
      rfl
    · right; right; left
      have hlen := memSpan_length hspan
      refine ⟨p, hl, by omega, by rw [← hspan]; congr 1, ?_⟩
      rcases encWrite_cases (litTag (u.cnt.toNat + 1 - 2) :: p) (u.appended b) with
        ⟨rest, e, hs⟩ | ⟨k, rest, hk, hs, e⟩ | ⟨k, -, -, e⟩
      · rw [e] at hx
        simp only [bind_of_go] at hx
        subst hx
        rcases hcase with h | h <;> cases h
        exact .inl ⟨rest, hs, by rw [hlen]; rfl⟩
      · rw [e] at hx
        simp only [bind_of_ended] at hx
        subst hx
        rcases hcase with h | h <;> cases h
        exact .inr ⟨k, rest, by simpa using hk, by rw [hlen]; rfl, hs⟩
      · rw [e] at hx
        exact absurd hx.symm (hns _)
  · rename_i hl
    split at hx
    · rename_i h129
      right; right; right
      rw [fullBuffer] at hx
      generalize hg : flushFirst Config.litMax (u.appended b) = g at hx
      have hgs : ∀ e, g ≠ .stop e := by rintro e rfl; exact hns e hx.symm
      have hb : memRead (u.appended b).buf 128 = .ok b := by
        have : u.cnt.toNat = 128 := by omega
        simp only [EncUnit.appended, this]
        exact memRead_memWrite_same (memWrite_ok (by simp))
      rcases flushFirst_cases hg hgs with ⟨h0, -⟩ | ⟨p, hspan, h1, h128, rfl⟩
      · simp at h0
      · refine ⟨p, hl, by omega, hspan, ?_⟩
        have hlen := memSpan_length hspan
        rcases encWrite_cases (litTag Config.litMax :: p) (u.appended b) with
          ⟨rest, e, hs⟩ | ⟨k, rest, hk, hs, e⟩ | ⟨k, -, -, e⟩
        · rw [e] at hx
          simp only [bind_of_go, litMax_eq, hb, memWrite_ok (show 0 < Config.bufCap by simp)] at hx
          subst hx
          rcases hcase with h | h <;> cases h
          exact .inl ⟨rest, by simpa [hlen, EncUnit.appended] using hs, rfl⟩
        · rw [e] at hx
          simp only [bind_of_ended] at hx
          subst hx
          rcases hcase with h | h <;> cases h
          exact .inr ⟨k, rest, by simpa [hlen] using hk, rfl, hs⟩
        · rw [e] at hx
          exact absurd hx.symm (hns _)
    · left
      subst hx
      refine ⟨hl, by omega, ?_⟩
      rcases hcase with h | h <;> cases h
      rfl

/-- The RUN state after an equal byte (40_encoder.md R85). -/
def EncUnit.extended (u : EncUnit) (b : Byte) : EncUnit := { encRecv b u with runLen := u.runLen + 1 }

/-- The LIT state with b the only byte pending (40_encoder.md R85). -/
def EncUnit.restarted (u : EncUnit) (b : Byte) : EncUnit := { u with mode := .lit, buf := memInsert u.buf 0 b, cnt := 1 }

/-- Everything ENC.BYTE.RUN can do (40_encoder.md R85). -/
theorem encByteRun_cases {b : Byte} {u v : EncUnit} (h : encByteRun b u = .go v ∨ encByteRun b u = .ended v) :
    u.io.phase = .active ∧ u.mode = .run ∧ 2 ≤ u.runLen.toNat ∧ u.runLen.toNat ≤ 126 ∧
    ((b = u.runVal ∧ u.runLen.toNat < 126 ∧ v = u.extended b) ∨
     (b = u.runVal ∧ u.runLen.toNat = 126 ∧
        ((∃ rest, u.io.sink = List.replicate 2 .accept ++ rest ∧
            v = { (u.extended b).sent [runTag 127, u.runVal] rest with mode := .lit, cnt := 0 }) ∨
         (∃ k rest, k < 2 ∧
            v = (u.extended b).outputError [runTag 127, u.runVal] k rest ∧
            u.io.sink = List.replicate k .accept ++ .fail :: rest))) ∨
     (b ≠ u.runVal ∧
        ((∃ rest, u.io.sink = List.replicate 2 .accept ++ rest ∧
            v = ((encRecv b u).sent [runTag u.runLen.toNat, u.runVal] rest).restarted b) ∨
         (∃ k rest, k < 2 ∧ v = (encRecv b u).outputError [runTag u.runLen.toNat, u.runVal] k rest ∧
            u.io.sink = List.replicate k .accept ++ .fail :: rest)))) := by
  obtain ⟨f, hf, hcase⟩ : ∃ f, encByteRun b u = f ∧ (f = .go v ∨ f = .ended v) := ⟨_, rfl, h⟩
  have hns : ∀ e, f ≠ .stop e := by rintro e rfl; rcases hcase with h | h <;> cases h
  obtain ⟨hp, hm, hr, hx⟩ := gate_through hf hns
  have hm : u.mode = .run := by simpa using hm
  have hr : 2 ≤ u.runLen.toNat ∧ u.runLen.toNat ≤ 126 := by simpa [runInRange] using hr
  refine ⟨hp, hm, hr.1, hr.2, ?_⟩
  rw [extendRun] at hx
  by_cases hb : b = u.runVal
  · rw [if_pos (by exact hb)] at hx
    by_cases h126 : u.runLen.toNat + 1 = 127
    · rw [if_pos (by exact h126), emitRun_eq _ _ (by simp) (by simp)] at hx
      right; left
      refine ⟨hb, by omega, ?_⟩
      rcases encWrite_cases [runTag 127, u.runVal] (u.extended b) with
        ⟨rest, e, hs⟩ | ⟨k, rest, hk, hs, e⟩ | ⟨k, -, -, e⟩
      · change (encWrite [runTag 127, u.runVal] (u.extended b)).bind _ = f at hx
        rw [e] at hx
        simp only [bind_of_go] at hx
        subst hx
        rcases hcase with h | h <;> cases h
        exact .inl ⟨rest, hs, rfl⟩
      · change (encWrite [runTag 127, u.runVal] (u.extended b)).bind _ = f at hx
        rw [e] at hx
        simp only [bind_of_ended] at hx
        subst hx
        rcases hcase with h | h <;> cases h
        exact .inr ⟨k, rest, hk, rfl, hs⟩
      · change (encWrite [runTag 127, u.runVal] (u.extended b)).bind _ = f at hx
        rw [e] at hx
        exact absurd hx.symm (hns _)
    · rw [if_neg (by exact h126)] at hx
      left
      subst hx
      refine ⟨hb, by omega, ?_⟩
      rcases hcase with h | h <;> cases h
      rfl
  · rw [if_neg (by exact hb), encRecv_runVal, encRecv_runLen, emitRun_eq _ _ hr.1 (by omega)] at hx
    right; right
    refine ⟨hb, ?_⟩
    rcases encWrite_cases [runTag u.runLen.toNat, u.runVal] (encRecv b u) with
      ⟨rest, e, hs⟩ | ⟨k, rest, hk, hs, e⟩ | ⟨k, -, -, e⟩
    · rw [e] at hx
      simp only [bind_of_go, memWrite_ok (show 0 < Config.bufCap by simp)] at hx
      subst hx
      rcases hcase with h | h <;> cases h
      exact .inl ⟨rest, hs, rfl⟩
    · rw [e] at hx
      simp only [bind_of_ended] at hx
      subst hx
      rcases hcase with h | h <;> cases h
      exact .inr ⟨k, rest, hk, rfl, hs⟩
    · rw [e] at hx
      exact absurd hx.symm (hns _)

/-- The unit after a successful end (60_exceptions.md R128). -/
def EncUnit.finished (u : EncUnit) : EncUnit := EncUnit.unspecified { u with io := finish u.io }

/-- Everything ENC.EOS.LIT can do (40_encoder.md R86). -/
theorem encEosLit_cases {u v : EncUnit} (h : encEosLit u = .go v ∨ encEosLit u = .ended v) :
    u.io.phase = .active ∧ u.mode = .lit ∧ u.cnt.toNat ≤ 128 ∧
    ((u.cnt.toNat = 0 ∧ v = u.finished) ∨
     (∃ p, memSpan u.buf 0 u.cnt.toNat = .ok p ∧ 1 ≤ p.length ∧
        ((∃ rest, u.io.sink = List.replicate (p.length + 1) .accept ++ rest ∧
            v = (u.sent (litTag p.length :: p) rest).finished) ∨
         (∃ k rest, k < p.length + 1 ∧ v = u.outputError (litTag p.length :: p) k rest ∧
            u.io.sink = List.replicate k .accept ++ .fail :: rest)))) := by
  obtain ⟨f, hf, hcase⟩ : ∃ f, encEosLit u = f ∧ (f = .go v ∨ f = .ended v) := ⟨_, rfl, h⟩
  have hns : ∀ e, f ≠ .stop e := by rintro e rfl; rcases hcase with h | h <;> cases h
  obtain ⟨hp, hm, hr, hx⟩ := gate_through hf hns
  have hm : u.mode = .lit := by simpa using hm
  have hr : u.cnt.toNat ≤ 128 := by simpa [litInRange] using hr
  refine ⟨hp, hm, hr, ?_⟩
  generalize hg : flushFirst u.cnt.toNat u = g at hx
  have hgs : ∀ e, g ≠ .stop e := by rintro e rfl; exact hns e hx.symm
  rcases flushFirst_cases hg hgs with ⟨h0, rfl⟩ | ⟨p, hspan, h1, h128, rfl⟩
  · simp only [bind_of_go, encFinish] at hx
    subst hx
    refine .inl ⟨h0, ?_⟩
    rcases hcase with h | h <;> cases h
    rfl
  · have hlen := memSpan_length hspan
    refine .inr ⟨p, hspan, by omega, ?_⟩
    rw [← hlen] at hx
    rcases encWrite_cases (litTag p.length :: p) u with ⟨rest, e, hs⟩ | ⟨k, rest, hk, hs, e⟩ | ⟨k, -, -, e⟩
    · rw [e] at hx
      simp only [bind_of_go, encFinish] at hx
      subst hx
      rcases hcase with h | h <;> cases h
      exact .inl ⟨rest, hs, rfl⟩
    · rw [e] at hx
      simp only [bind_of_ended] at hx
      subst hx
      rcases hcase with h | h <;> cases h
      exact .inr ⟨k, rest, by simpa using hk, rfl, hs⟩
    · rw [e] at hx
      exact absurd hx.symm (hns _)

/-- Everything ENC.EOS.RUN can do (40_encoder.md R87). -/
theorem encEosRun_cases {u v : EncUnit} (h : encEosRun u = .go v ∨ encEosRun u = .ended v) :
    u.io.phase = .active ∧ u.mode = .run ∧ 2 ≤ u.runLen.toNat ∧ u.runLen.toNat ≤ 126 ∧
    ((∃ rest, u.io.sink = List.replicate 2 .accept ++ rest ∧
        v = (u.sent [runTag u.runLen.toNat, u.runVal] rest).finished) ∨
     (∃ k rest, k < 2 ∧ v = u.outputError [runTag u.runLen.toNat, u.runVal] k rest ∧
        u.io.sink = List.replicate k .accept ++ .fail :: rest)) := by
  obtain ⟨f, hf, hcase⟩ : ∃ f, encEosRun u = f ∧ (f = .go v ∨ f = .ended v) := ⟨_, rfl, h⟩
  have hns : ∀ e, f ≠ .stop e := by rintro e rfl; rcases hcase with h | h <;> cases h
  obtain ⟨hp, hm, hr, hx⟩ := gate_through hf hns
  have hm : u.mode = .run := by simpa using hm
  have hr : 2 ≤ u.runLen.toNat ∧ u.runLen.toNat ≤ 126 := by simpa [runInRange] using hr
  refine ⟨hp, hm, hr.1, hr.2, ?_⟩
  rw [emitRun_eq _ _ hr.1 (by omega)] at hx
  rcases encWrite_cases [runTag u.runLen.toNat, u.runVal] u with ⟨rest, e, hs⟩ | ⟨k, rest, hk, hs, e⟩ | ⟨k, -, -, e⟩
  · rw [e] at hx
    simp only [bind_of_go, encFinish] at hx
    subst hx
    rcases hcase with h | h <;> cases h
    exact .inl ⟨rest, hs, rfl⟩
  · rw [e] at hx
    simp only [bind_of_ended] at hx
    subst hx
    rcases hcase with h | h <;> cases h
    exact .inr ⟨k, rest, hk, rfl, hs⟩
  · rw [e] at hx
    exact absurd hx.symm (hns _)

/-- Everything ENC.RDERR and ENC.RSVD can do (40_encoder.md R88). -/
theorem encRderr_cases {u v : EncUnit} (h : encRderr u = .go v ∨ encRderr u = .ended v) :
    u.io.phase = .active ∧ v = EncUnit.unspecified { u with io := raise .inputError u.io } := by
  obtain ⟨f, hf, hcase⟩ : ∃ f, encRderr u = f ∧ (f = .go v ∨ f = .ended v) := ⟨_, rfl, h⟩
  have hns : ∀ e, f ≠ .stop e := by rintro e rfl; rcases hcase with h | h <;> cases h
  obtain ⟨hp, -, -, hx⟩ := gate_through hf hns
  subst hx
  refine ⟨hp, ?_⟩
  rcases hcase with h | h <;> cases h
  rfl

end Sys2Proof.Machine
end

