-- ==== Sys2Proof/Laws/Decoder.lean ====
section
/-! SUPPORT. Everything the DEC operations can do when they answer a next state: one inversion lemma an operation. -/

namespace Sys2Proof.Machine

/-- The unit after a transaction that the sink took whole. -/
def DecUnit.sent (u : DecUnit) (tx : List Byte) (rest : List SinkReply) : DecUnit :=
  { u with io := u.io.wrote tx rest }

/-- The unit after a transaction that the sink failed after k bytes (60_exceptions.md R126, R127). -/
def DecUnit.outputError (u : DecUnit) (tx : List Byte) (k : Nat) (rest : List SinkReply) : DecUnit :=
  DecUnit.unspecified { u with io := raise .outputError (u.io.wrote (tx.take k) rest) }

/-- The unit after a successful end (60_exceptions.md R128). -/
def DecUnit.finished (u : DecUnit) : DecUnit := DecUnit.unspecified { u with io := finish u.io }

/-- The unit after the tag t opened a frame (41_decoder.md R104, R105). -/
def DecUnit.opened (u : DecUnit) (t : Byte) : DecUnit :=
  { decRecv t u with tag := t, rem := BitVec.ofNat 8 (tagCount t) }

/-- The unit after one literal payload byte (41_decoder.md R107). -/
def DecUnit.counted (u : DecUnit) : DecUnit :=
  { u with rem := u.rem - 1, tag := if u.rem - 1 = 0x00#8 then 0x00#8 else u.tag }

theorem decTagSentinel_cases {u v : DecUnit} (h : decTagSentinel u = .go v ∨ decTagSentinel u = .ended v) :
    u.io.phase = .active ∧ u.tag = 0x00#8 ∧ decTagSentinel u = .ended v ∧ v = (decRecv 0x00#8 u).finished := by
  obtain ⟨f, hf, hcase⟩ : ∃ f, decTagSentinel u = f ∧ (f = .go v ∨ f = .ended v) := ⟨_, rfl, h⟩
  have hns : ∀ e, f ≠ .stop e := by rintro e rfl; rcases hcase with h | h <;> cases h
  obtain ⟨hp, hs, -, hx⟩ := gate_through hf hns
  subst hx
  rcases hcase with h | h <;> cases h
  exact ⟨hp, by simpa [betweenFrames] using hs, hf, rfl⟩

theorem decTagRun_cases {t : Byte} {u v : DecUnit} (h : decTagRun t u = .go v ∨ decTagRun t u = .ended v) :
    u.io.phase = .active ∧ u.tag = 0x00#8 ∧ tagClass t = .run ∧ decTagRun t u = .go v ∧ v = u.opened t := by
  obtain ⟨f, hf, hcase⟩ : ∃ f, decTagRun t u = f ∧ (f = .go v ∨ f = .ended v) := ⟨_, rfl, h⟩
  have hns : ∀ e, f ≠ .stop e := by rintro e rfl; rcases hcase with h | h <;> cases h
  obtain ⟨hp, hs, -, hx⟩ := gate_through hf hns
  subst hx
  have hs : u.tag = 0x00#8 ∧ tagClass t = .run := by simpa [betweenFrames] using hs
  rcases hcase with h | h <;> cases h
  exact ⟨hp, hs.1, hs.2, hf, rfl⟩

theorem decTagLit_cases {t : Byte} {u v : DecUnit} (h : decTagLit t u = .go v ∨ decTagLit t u = .ended v) :
    u.io.phase = .active ∧ u.tag = 0x00#8 ∧ tagClass t = .literal ∧ decTagLit t u = .go v ∧ v = u.opened t := by
  obtain ⟨f, hf, hcase⟩ : ∃ f, decTagLit t u = f ∧ (f = .go v ∨ f = .ended v) := ⟨_, rfl, h⟩
  have hns : ∀ e, f ≠ .stop e := by rintro e rfl; rcases hcase with h | h <;> cases h
  obtain ⟨hp, hs, -, hx⟩ := gate_through hf hns
  subst hx
  have hs : u.tag = 0x00#8 ∧ tagClass t = .literal := by simpa [betweenFrames] using hs
  rcases hcase with h | h <;> cases h
  exact ⟨hp, hs.1, hs.2, hf, rfl⟩

theorem decRunval_cases {b : Byte} {u v : DecUnit} (h : decRunval b u = .go v ∨ decRunval b u = .ended v) :
    u.io.phase = .active ∧ tagClass u.tag = .run ∧ u.rem = u.tag ∧
    ((∃ rest, u.io.sink = List.replicate u.rem.toNat .accept ++ rest ∧ decRunval b u = .go v ∧
        v = { (decRecv b u).sent (List.replicate u.rem.toNat b) rest with rem := 0, tag := 0 }) ∨
     (∃ k rest, k < u.rem.toNat ∧ decRunval b u = .ended v ∧
        v = (decRecv b u).outputError (List.replicate u.rem.toNat b) k rest ∧
        u.io.sink = List.replicate k .accept ++ .fail :: rest)) := by
  obtain ⟨f, hf, hcase⟩ : ∃ f, decRunval b u = f ∧ (f = .go v ∨ f = .ended v) := ⟨_, rfl, h⟩
  have hns : ∀ e, f ≠ .stop e := by rintro e rfl; rcases hcase with h | h <;> cases h
  obtain ⟨hp, hs, hr, hx⟩ := gate_through hf hns
  refine ⟨hp, by simpa using hs, by simpa using hr, ?_⟩
  rcases decWrite_cases (List.replicate u.rem.toNat b) (decRecv b u) with
    ⟨rest, e, hs⟩ | ⟨k, rest, hk, hs, e⟩ | ⟨k, -, -, e⟩
  · rw [e] at hx
    simp only [bind_of_go] at hx
    subst hx
    rcases hcase with h | h <;> cases h
    exact .inl ⟨rest, by simpa using hs, hf, rfl⟩
  · rw [e] at hx
    simp only [bind_of_ended] at hx
    subst hx
    rcases hcase with h | h <;> cases h
    exact .inr ⟨k, rest, by simpa using hk, hf, rfl, hs⟩
  · rw [e] at hx
    exact absurd hx.symm (hns _)

theorem decLitbyte_cases {b : Byte} {u v : DecUnit} (h : decLitbyte b u = .go v ∨ decLitbyte b u = .ended v) :
    u.io.phase = .active ∧ tagClass u.tag = .literal ∧ 1 ≤ u.rem.toNat ∧ u.rem.toNat ≤ 128 ∧
    ((∃ rest, u.io.sink = .accept :: rest ∧ decLitbyte b u = .go v ∧
        v = ((decRecv b u).sent [b] rest).counted) ∨
     (∃ rest, decLitbyte b u = .ended v ∧ v = (decRecv b u).outputError [b] 0 rest ∧
        u.io.sink = .fail :: rest)) := by
  obtain ⟨f, hf, hcase⟩ : ∃ f, decLitbyte b u = f ∧ (f = .go v ∨ f = .ended v) := ⟨_, rfl, h⟩
  have hns : ∀ e, f ≠ .stop e := by rintro e rfl; rcases hcase with h | h <;> cases h
  obtain ⟨hp, hs, hr, hx⟩ := gate_through hf hns
  have hr : 1 ≤ u.rem.toNat ∧ u.rem.toNat ≤ 128 := of_decide_eq_true hr
  refine ⟨hp, by simpa using hs, hr.1, hr.2, ?_⟩
  rcases decWrite_cases [b] (decRecv b u) with ⟨rest, e, hs⟩ | ⟨k, rest, hk, hs, e⟩ | ⟨k, -, -, e⟩
  · rw [e] at hx
    simp only [bind_of_go] at hx
    subst hx
    rcases hcase with h | h <;> cases h
    exact .inl ⟨rest, by simpa using hs, hf, rfl⟩
  · have hk0 : k = 0 := by simpa using hk
    subst hk0
    rw [e] at hx
    simp only [bind_of_ended] at hx
    subst hx
    rcases hcase with h | h <;> cases h
    exact .inr ⟨rest, hf, rfl, by simpa using hs⟩
  · rw [e] at hx
    exact absurd hx.symm (hns _)

theorem decEosIdle_cases {u v : DecUnit} (h : decEosIdle u = .go v ∨ decEosIdle u = .ended v) :
    u.io.phase = .active ∧ u.tag = 0x00#8 ∧ v = u.finished := by
  obtain ⟨f, hf, hcase⟩ : ∃ f, decEosIdle u = f ∧ (f = .go v ∨ f = .ended v) := ⟨_, rfl, h⟩
  have hns : ∀ e, f ≠ .stop e := by rintro e rfl; rcases hcase with h | h <;> cases h
  obtain ⟨hp, hs, -, hx⟩ := gate_through hf hns
  subst hx
  rcases hcase with h | h <;> cases h
  exact ⟨hp, by simpa [betweenFrames] using hs, rfl⟩

theorem decEosMid_cases {u v : DecUnit} (h : decEosMid u = .go v ∨ decEosMid u = .ended v) :
    u.io.phase = .active ∧ u.tag ≠ 0x00#8 ∧
      v = DecUnit.unspecified { u with io := raise .truncatedStream u.io } := by
  obtain ⟨f, hf, hcase⟩ : ∃ f, decEosMid u = f ∧ (f = .go v ∨ f = .ended v) := ⟨_, rfl, h⟩
  have hns : ∀ e, f ≠ .stop e := by rintro e rfl; rcases hcase with h | h <;> cases h
  obtain ⟨hp, hs, -, hx⟩ := gate_through hf hns
  subst hx
  rcases hcase with h | h <;> cases h
  exact ⟨hp, by simpa [betweenFrames] using hs, rfl⟩

theorem decRderr_cases {u v : DecUnit} (h : decRderr u = .go v ∨ decRderr u = .ended v) :
    u.io.phase = .active ∧ v = DecUnit.unspecified { u with io := raise .inputError u.io } := by
  obtain ⟨f, hf, hcase⟩ : ∃ f, decRderr u = f ∧ (f = .go v ∨ f = .ended v) := ⟨_, rfl, h⟩
  have hns : ∀ e, f ≠ .stop e := by rintro e rfl; rcases hcase with h | h <;> cases h
  obtain ⟨hp, -, -, hx⟩ := gate_through hf hns
  subst hx
  rcases hcase with h | h <;> cases h
  exact ⟨hp, rfl⟩

end Sys2Proof.Machine
end

