-- ==== Sys2Proof/Laws/Fetch.lean ====
section
/-! SUPPORT. Who moved in a step, and what a move of a unit is. -/

namespace Sys2Proof.Machine

/-- A move of the first agent that has one is the move of some agent. -/
theorem firstMove_next {as : List Agent} {s t : State} (h : firstMove as s = .next t) :
    ∃ a ∈ as, agentMove a s = .next t := by
  induction as with
  | nil => simp [firstMove] at h
  | cons a as ih =>
    simp only [firstMove] at h
    split at h
    · rename_i u hu
      cases h
      exact ⟨a, by simp, hu⟩
    · split at h
      · obtain ⟨b, hb, hm⟩ := ih h
        exact ⟨b, by simp [hb], hm⟩
      · cases h
    · cases h

/-- A step is one agent's move, and then SCHED's draw. -/
theorem step_next {s t : State} (h : step s = .next t) : ∃ a r, agentMove a s = .next r ∧ t = reschedule r := by
  simp only [step, stepOnce] at h
  split at h
  · rename_i r hr
    cases h
    obtain ⟨a, -, ha⟩ := firstMove_next hr
    exact ⟨a, r, ha, rfl⟩
  · cases h
  · cases h

/-- The only fault that is a wait for the sink. -/
theorem untaken_isSome {f : Fault} (h : f.untaken.isSome = true) : ∃ left, f = .sinkWait left := by
  cases f <;> simp [Fault.untaken] at h ⊢

/-- Everything taking an item can be: its whole step, or the item in hand. -/
theorem takeItem_next {u : UnitId} {w : ItemWord} {s t : State} (h : takeItem u w s = .next t) :
    exec (decode (s.fsm u) w) s = .next t ∨
    ∃ left, exec (decode (s.fsm u) w) s = .fault (.sinkWait left) ∧ t = s.setHand u (some w) := by
  simp only [takeItem, feedItem] at h
  split at h
  · cases h
    exact .inl ‹_›
  · split at h
    · rename_i hf
      obtain ⟨left, rfl⟩ := untaken_isSome hf
      cases h
      exact .inr ⟨left, ‹_›, rfl⟩
    · cases h
  · cases h

/-- Going on with the item in hand is its whole step. -/
theorem resumeItem_next {u : UnitId} {w : ItemWord} {s t : State} (h : resumeItem u w s = .next t) :
    ∃ r, exec (decode (s.fsm u) w) s = .next r ∧ t = r.setHand u none := by
  simp only [resumeItem, feedItem] at h
  split at h
  · rename_i r hr
    cases h
    exact ⟨r, hr, rfl⟩
  · cases h
  · cases h

/-- Everything a unit's move can be: the step of the item in hand, the step of the next item, or taking that item. -/
theorem unitMove_next {u : UnitId} {s t : State} (h : unitMove u s = .next t) :
    (∃ w r, (s.io u).hand = some w ∧ exec (decode (s.fsm u) w) s = .next r ∧ t = r.setHand u none) ∨
    (∃ w q r, (s.io u).hand = none ∧ (s.io u).inQ = w :: q ∧ exec (decode (s.fsm u) w) s = .next r ∧
      t = r.setInQ u q) ∨
    (∃ w q left, (s.io u).hand = none ∧ (s.io u).inQ = w :: q ∧
      exec (decode (s.fsm u) w) s = .fault (.sinkWait left) ∧ t = (s.setHand u (some w)).setInQ u q) := by
  simp only [unitMove] at h
  split at h
  · rename_i w hw
    obtain ⟨r, hr, rfl⟩ := resumeItem_next h
    exact .inl ⟨w, r, hw, hr, rfl⟩
  · rename_i hn
    split at h
    · cases h
    · rename_i w q hq
      split at h
      · rename_i r hr
        cases h
        rcases takeItem_next hr with he | ⟨left, he, rfl⟩
        · exact .inr (.inl ⟨w, q, r, hn, hq, he, rfl⟩)
        · exact .inr (.inr ⟨w, q, left, hn, hq, he, rfl⟩)
      · cases h
      · cases h

/-- Everything a reply can complete: nothing, or the step of the item in hand. -/
theorem settle_cases (u : UnitId) (s : State) :
    settle u s = s ∨
    ∃ w r, (s.io u).hand = some w ∧ exec (decode (s.fsm u) w) s = .next r ∧ settle u s = r.setHand u none := by
  simp only [settle]
  split
  · exact .inl rfl
  · rename_i w hw
    split
    · rename_i t ht
      obtain ⟨r, hr, rfl⟩ := resumeItem_next ht
      exact .inr ⟨w, r, hw, hr, rfl⟩
    · exact .inl rfl
    · exact .inl rfl

/-- Everything a step can be: a unit's move, or a host action. -/
theorem step_cases {s t : State} (h : step s = .next t) :
    (∃ u r, unitMove u s = .next r ∧ t = reschedule r) ∨
    (∃ a rest, s.host = a :: rest ∧ t = reschedule (doAct a { s with host := rest })) := by
  obtain ⟨a, r, ha, rfl⟩ := step_next h
  cases a with
  | enc => exact .inl ⟨.enc, r, ha, rfl⟩
  | dec => exact .inl ⟨.dec, r, ha, rfl⟩
  | host =>
    simp only [agentMove, hostMove] at ha
    split at ha
    · cases ha
    · rename_i a rest hh
      cases ha
      exact .inr ⟨a, rest, hh, rfl⟩

/-- The first agent in the order moves where it can. -/
theorem stepOnce_of_first {s t : State} {a : Agent} {rest : List Agent} (ho : moveOrder s.turn = a :: rest)
    (h : agentMove a s = .next t) : step s = .next (reschedule t) := by
  simp [step, stepOnce, ho, firstMove, h]

end Sys2Proof.Machine
end

