-- ==== Sys2Proof/Laws/Wire.lean ====
section
/-! SUPPORT. The equations of decode(s) without its fuel, and the fields of a tag. -/

namespace Sys2Proof.Machine

/-- The fuel does not matter once it is more than the length. -/
theorem wireLoop_fuel {s : List Byte} {n m : Nat} (hn : s.length < n) (hm : s.length < m) :
    wireLoop n s = wireLoop m s := by
  induction n generalizing s m with
  | zero => omega
  | succ n ih =>
    cases m with
    | zero => omega
    | succ m =>
      cases s with
      | nil => rfl
      | cons t rest =>
        simp only [List.length_cons] at hn hm
        simp only [wireLoop]
        cases tagClass t with
        | sentinel => rfl
        | run =>
          cases rest with
          | nil => rfl
          | cons v rest =>
            simp only [List.length_cons] at hn hm
            simp only [ih (s := rest) (m := m) (by omega) (by omega)]
        | literal =>
          simp only
          split
          · rfl
          · rw [ih (s := rest.drop (tagCount t)) (m := m) (by rw [List.length_drop]; omega)
              (by rw [List.length_drop]; omega)]

theorem wireDecode_nil : wireDecode [] = { out := [], result := .ok, used := 0 } := rfl

theorem wireDecode_sentinel {t : Byte} {rest : List Byte} (h : tagClass t = .sentinel) :
    wireDecode (t :: rest) = { out := [], result := .ok, used := 1 } := by
  simp [wireDecode, wireLoop, h]

theorem wireDecode_run_short {t : Byte} (h : tagClass t = .run) :
    wireDecode [t] = { out := [], result := .truncated, used := 1 } := by
  simp [wireDecode, wireLoop, h]

theorem wireDecode_run {t v : Byte} {rest : List Byte} (h : tagClass t = .run) :
    wireDecode (t :: v :: rest) = (wireDecode rest).after (List.replicate (tagCount t) v) 2 := by
  have e : wireLoop (rest.length + 1 + 1) rest = wireLoop (rest.length + 1) rest :=
    wireLoop_fuel (by omega) (by omega)
  simp only [wireDecode, List.length_cons, wireLoop, h, e]

theorem wireDecode_literal_short {t : Byte} {rest : List Byte} (h : tagClass t = .literal)
    (hs : rest.length < tagCount t) :
    wireDecode (t :: rest) = { out := rest, result := .truncated, used := rest.length + 1 } := by
  simp [wireDecode, wireLoop, h, hs]

theorem wireDecode_literal {t : Byte} {p rest : List Byte} (h : tagClass t = .literal) (hp : p.length = tagCount t) :
    wireDecode (t :: (p ++ rest)) = (wireDecode rest).after p (tagCount t + 1) := by
  have e : wireLoop ((p ++ rest).length + 1) rest = wireLoop (rest.length + 1) rest :=
    wireLoop_fuel (by rw [List.length_append]; omega) (by omega)
  have hs : ¬ (p ++ rest).length < tagCount t := by rw [List.length_append]; omega
  simp only [wireDecode, List.length_cons, wireLoop, h, if_neg hs]
  rw [← hp, List.drop_left, List.take_left, e]

theorem tagClass_sentinel_iff (t : Byte) : tagClass t = .sentinel ↔ t = 0x00#8 := by
  simp only [tagClass]
  split
  · simp_all
  · split <;> simp_all

theorem tagK_iff (t : Byte) : tagK t = true ↔ 0x80 ≤ t.toNat := by
  have h : t.msb = decide (2 ^ 7 ≤ t.toNat) := BitVec.msb_eq_decide t
  have e : tagK t = t.msb := by simp [tagK, BitVec.msb_eq_getLsbD_last]
  rw [e, h]
  simp

theorem tagClass_literal_iff (t : Byte) : tagClass t = .literal ↔ 0x80 ≤ t.toNat := by
  rw [← tagK_iff]
  simp only [tagClass]
  split
  · rename_i h; subst h; simp [tagK]
  · split <;> simp_all

theorem tagClass_run_iff (t : Byte) : tagClass t = .run ↔ 1 ≤ t.toNat ∧ t.toNat ≤ 0x7F := by
  have h1 := tagClass_sentinel_iff t
  have h2 := tagClass_literal_iff t
  have h0 : t = 0x00#8 ↔ t.toNat = 0 := by rw [← BitVec.toNat_inj]; simp
  cases hc : tagClass t <;> simp [hc] at h1 h2 <;> simp [h0] at h1 ⊢ <;> omega

/-- The count of a tag by its range (30_encoding.md R65). -/
theorem tagCount_eq (t : Byte) : tagCount t = if 0x80 ≤ t.toNat then 0x100 - t.toNat else t.toNat := by
  unfold tagCount
  by_cases h : tagK t = true
  · rw [if_pos h, if_pos ((tagK_iff t).mp h)]
  · have h' : ¬ 0x80 ≤ t.toNat := fun hh => h ((tagK_iff t).mpr hh)
    rw [if_neg h, if_neg h']
    have : (tagC t).toNat = t.toNat % 2 ^ 7 := by simp [tagC, BitVec.extractLsb'_toNat]
    omega

end Sys2Proof.Machine
end

