-- ==== Sys2Proof/Laws/PerInstr.lean ====
section
/-! SUPPORT. A fact about every instruction as syntax: the family FrameItems of LAWS.json. -/

namespace Sys2Proof.Laws.FrameItems

open Sys2Proof

/-- The item words of a frame are the BYTE items of its bytes (30_encoding.md R80), and an item operation is one word. -/
def Statement (i : Instr) : Prop :=
  match frameBytes i with
  | some bs => encode i = bs.map byteItem
  | none => (encode i).length = 1

theorem endFrame : Statement .endFrame := rfl
theorem run (t v : Byte) : Statement (.run t v) := rfl
theorem lit (p : List Byte) : Statement (.lit p) := rfl
theorem encByteLit (b : Byte) : Statement (.encByteLit b) := rfl
theorem encByteRun (b : Byte) : Statement (.encByteRun b) := rfl
theorem encEosLit (d : Byte) : Statement (.encEosLit d) := rfl
theorem encEosRun (d : Byte) : Statement (.encEosRun d) := rfl
theorem encRderr (d : Byte) : Statement (.encRderr d) := rfl
theorem encRsvd (d : Byte) : Statement (.encRsvd d) := rfl
theorem decTagSentinel : Statement .decTagSentinel := rfl
theorem decTagRun (t : Byte) : Statement (.decTagRun t) := rfl
theorem decTagLit (t : Byte) : Statement (.decTagLit t) := rfl
theorem decRunval (b : Byte) : Statement (.decRunval b) := rfl
theorem decLitbyte (b : Byte) : Statement (.decLitbyte b) := rfl
theorem decEosIdle (d : Byte) : Statement (.decEosIdle d) := rfl
theorem decEosMid (d : Byte) : Statement (.decEosMid d) := rfl
theorem decRderr (d : Byte) : Statement (.decRderr d) := rfl
theorem decRsvd (d : Byte) : Statement (.decRsvd d) := rfl

end Sys2Proof.Laws.FrameItems
end

