-- ==== Sys2Proof/Tests/Slice0.lean ====
section
/-! SUPPORT. The model's own tests: the checks of WellFormed, words written out from the spec's encodings, one step an
instruction with results from the spec's examples and vectors, and a witness for each statement with hypotheses. -/

namespace Sys2Proof.Tests

open Sys2Proof Sys2Proof.Machine Sys2Proof.Claims

/-- The state of an outcome, if there is one. -/
def nextOf (o : Host.Outcome State Fault Refusal) : Option State :=
  match o with
  | .next s => some s
  | .fault _ => none
  | .refused _ => none

/-- The fault of an outcome, if it is one. -/
def faultOf (o : Host.Outcome State Fault Refusal) : Option Fault :=
  match o with
  | .next _ => none
  | .fault f => some f
  | .refused _ => none

/-- ENC in LIT with p pending and the sink's replies rs. -/
def encLit (p : List Byte) (rs : List SinkReply) : State :=
  { State.reset with enc := { EncUnit.reset with
      io := { UnitIO.reset with sink := rs }
      buf := (List.range p.length).zip p
      cnt := BitVec.ofNat 8 p.length } }

/-- ENC in RUN with a run of n times v and the sink's replies rs. -/
def encRun (n : Nat) (v : Byte) (rs : List SinkReply) : State :=
  { State.reset with enc := { EncUnit.reset with
      io := { UnitIO.reset with sink := rs }, mode := .run, runVal := v, runLen := BitVec.ofNat 7 n } }

/-- DEC with the registers tag and rem and the sink's replies rs. -/
def decAt (tag rem : Byte) (rs : List SinkReply) : State :=
  { State.reset with dec := { io := { UnitIO.reset with sink := rs }, tag := tag, rem := rem } }

/-- Both units in a terminal phase. -/
def bothDone : State :=
  { State.reset with
    enc := { EncUnit.reset with io := { UnitIO.reset with phase := .done } }
    dec := { DecUnit.reset with io := { UnitIO.reset with phase := .failed, err := .truncatedStream } } }

/-- What the tests read of ENC: mode, cnt, run_val, run_len, OUT. -/
def encView (s : State) : EncMode × BitVec 8 × Byte × BitVec 7 × List Byte :=
  (s.enc.mode, s.enc.cnt, s.enc.runVal, s.enc.runLen, s.enc.io.OUT)

/-- What the tests read of a unit's end: its status and its OUT. -/
def endView (u : UnitId) (s : State) : BitVec 4 × List Byte := (status u s, (s.io u).OUT)

/-- What the tests read of DEC: tag, rem, OUT. -/
def decView (s : State) : Byte × BitVec 8 × List Byte := (s.dec.tag, s.dec.rem, s.dec.io.OUT)

/-! ### WellFormed refuses (30_encoding.md R59, R60, R68) -/

theorem test_illFormed_run_count_0 : Instr.wf (.run 0x00#8 0x41#8) = false := by decide

theorem test_illFormed_run_count_128 : Instr.wf (.run 0x80#8 0x41#8) = false := by decide

theorem test_illFormed_lit_empty : Instr.wf (.lit []) = false := by decide

theorem test_illFormed_lit_129 : Instr.wf (.lit (List.replicate 129 0x00#8)) = false := by simp [Instr.wf, Config.litMax]

theorem test_illFormed_decTagRun_0 : Instr.wf (.decTagRun 0x00#8) = false := by decide

theorem test_illFormed_decTagRun_128 : Instr.wf (.decTagRun 0x80#8) = false := by decide

theorem test_illFormed_decTagLit_127 : Instr.wf (.decTagLit 0x7F#8) = false := by decide

theorem test_wellFormed_run_127 : Instr.wf (.run 0x7F#8 0x00#8) = true := by decide

theorem test_wellFormed_lit_128 : Instr.wf (.lit (List.replicate 128 0x00#8)) = true := by simp [Instr.wf, Config.litMax]

/-! ### Decoding: every constructor from a word written out from 30_encoding.md R68, R73 and R78 -/

theorem test_decode_endFrame : decodeFrame [0x00#8, 0x41#8] = .ok (.endFrame, [0x41#8]) := by rfl

theorem test_decode_run : decodeFrame [0x49#8, 0x5A#8] = .ok (.run 0x49#8 0x5A#8, []) := by rfl

theorem test_decode_lit : decodeFrame [0xFE#8, 0x43#8, 0x44#8, 0x00#8] = .ok (.lit [0x43#8, 0x44#8], [0x00#8]) := by rfl

theorem test_decode_encByteLit : decode (.enc .lit) 0b0001000001#10 = .encByteLit 0x41#8 := by decide

theorem test_decode_encByteRun : decode (.enc .run) 0b0011111111#10 = .encByteRun 0xFF#8 := by decide

theorem test_decode_encEosLit : decode (.enc .lit) 0b0110100101#10 = .encEosLit 0xA5#8 := by decide

theorem test_decode_encEosRun : decode (.enc .run) 0b0100000000#10 = .encEosRun 0x00#8 := by decide

theorem test_decode_encRderr : decode (.enc .run) 0b1011111111#10 = .encRderr 0xFF#8 := by decide

theorem test_decode_encRsvd : decode (.enc .lit) 0b1100000000#10 = .encRsvd 0x00#8 := by decide

theorem test_decode_decTagSentinel : decode (.dec 0x00#8) 0b0000000000#10 = .decTagSentinel := by decide

theorem test_decode_decTagRun : decode (.dec 0x00#8) 0b0001111111#10 = .decTagRun 0x7F#8 := by decide

theorem test_decode_decTagLit : decode (.dec 0x00#8) 0b0010000000#10 = .decTagLit 0x80#8 := by decide

theorem test_decode_decRunval : decode (.dec 0x01#8) 0b0000000000#10 = .decRunval 0x00#8 := by decide

theorem test_decode_decLitbyte : decode (.dec 0x80#8) 0b0000000000#10 = .decLitbyte 0x00#8 := by decide

theorem test_decode_decEosIdle : decode (.dec 0x00#8) 0b0100000000#10 = .decEosIdle 0x00#8 := by decide

theorem test_decode_decEosMid : decode (.dec 0x03#8) 0b0100000000#10 = .decEosMid 0x00#8 := by decide

theorem test_decode_decRderr : decode (.dec 0xFE#8) 0b1000000000#10 = .decRderr 0x00#8 := by decide

theorem test_decode_decRsvd : decode (.dec 0x00#8) 0b1100000001#10 = .decRsvd 0x01#8 := by decide

theorem test_decodeFrame_noTag : decodeFrame [] = .error .noTag := by rfl
theorem test_decodeFrame_runWithoutValue : decodeFrame [0x03#8] = .error .runWithoutValue := by rfl
theorem test_decodeFrame_literalTooShort : decodeFrame [0xFE#8, 0x41#8] = .error .literalTooShort := by rfl
theorem test_byteItem_word : byteItem 0x41#8 = 0x041#10 := by decide
theorem test_eosItem_word : eosItem = 0x100#10 := by decide
theorem test_rderrItem_word : rderrItem = 0x200#10 := by decide
theorem test_tableWord_run : decodeTableWord 8 0x03 = some (.run 0x03#8 0x00#8) := by decide
theorem test_tableWord_item : decodeTableWord 16 0x141 = some (.encEosLit 0x41#8) := by decide
theorem test_tableWord_wide_refused : decodeTableWord 16 0x441 = none := by decide

/-- The counts of 95_test_vectors.md section 4. -/
theorem test_tagCounts :
    [0x01#8, 0x02#8, 0x49#8, 0x7F#8, 0x80#8, 0x81#8, 0x82#8, 0xC0#8, 0xFC#8, 0xFE#8, 0xFF#8].map tagCount =
      [1, 2, 73, 127, 128, 127, 126, 64, 4, 2, 1] := by decide

/-! ### One step an instruction -/

/-- Program P1 step 3: `[0xFF, 0x01]` is written and RUN entered. -/
theorem test_encByteLit_runStart :
    (nextOf (exec (.encByteLit 0x02#8) (encLit [0x01#8, 0x02#8] [.accept, .accept]))).map encView =
      some (.run, 0, 0x02#8, 2, [0xFF#8, 0x01#8]) := by decide

/-- Vector E-4, step 2: a byte that differs stays pending. -/
theorem test_encByteLit_pending :
    (nextOf (exec (.encByteLit 0x42#8) (encLit [0x41#8] []))).map encView = some (.lit, 2, 0, 0, []) := by decide

/-- Program P1 step 4: the run `[0x02, 0x02]` is closed by 0x03. -/
theorem test_encByteRun_unequal :
    (nextOf (exec (.encByteRun 0x03#8) (encRun 2 0x02#8 [.accept, .accept]))).map
      (fun s => (s.enc.mode, s.enc.cnt, s.enc.buf, s.enc.io.OUT)) =
      some (.lit, 1, [(0, 0x03#8)], [0x02#8, 0x02#8]) := by decide

/-- Vector E-7, step 127: the run closes at 127 in the same step. -/
theorem test_encByteRun_127 :
    (nextOf (exec (.encByteRun 0x58#8) (encRun 126 0x58#8 [.accept, .accept]))).map
      (fun s => (s.enc.mode, s.enc.cnt, s.enc.io.OUT)) = some (.lit, 0, [0x7F#8, 0x58#8]) := by decide

/-- Program P1 step 5. -/
theorem test_encEosLit :
    (nextOf (exec (.encEosLit 0x00#8) (encLit [0x03#8] [.accept, .accept]))).map (endView .enc) =
      some (0b0100#4, [0xFF#8, 0x03#8]) := by decide

/-- Vector L1-5: empty input gives empty output. -/
theorem test_encEosLit_empty :
    (nextOf (exec (.encEosLit 0x00#8) State.reset)).map (endView .enc) = some (0b0100#4, []) := by decide

/-- Program P6 step 4. -/
theorem test_encEosRun :
    (nextOf (exec (.encEosRun 0x00#8) (encRun 3 0x41#8 [.accept, .accept]))).map (endView .enc) =
      some (0b0100#4, [0x03#8, 0x41#8]) := by decide

/-- Vector X-7 in RUN: the tag byte alone reached the sink. -/
theorem test_encEosRun_outputError :
    (nextOf (exec (.encEosRun 0x00#8) (encRun 3 0x41#8 [.accept, .fail]))).map (endView .enc) =
      some (0b1010#4, [0x03#8]) := by decide

/-- Vector X-1. -/
theorem test_encRderr :
    (nextOf (exec (.encRderr 0x00#8) (encRun 2 0x41#8 []))).map (endView .enc) = some (0b1001#4, []) := by decide

/-- Vector X-8. -/
theorem test_encRsvd :
    (nextOf (exec (.encRsvd 0x00#8) (encLit [0x41#8] []))).map (endView .enc) = some (0b1001#4, []) := by decide

/-- Vector D-2. -/
theorem test_decTagSentinel :
    (nextOf (exec .decTagSentinel State.reset)).map (endView .dec) = some (0b0100#4, []) := by decide

/-- 41_decoder.md R104's example. -/
theorem test_decTagRun :
    (nextOf (exec (.decTagRun 0x03#8) State.reset)).map decView = some (0x03#8, 3, []) := by decide

/-- Vector D-16: the largest remaining count. -/
theorem test_decTagLit :
    (nextOf (exec (.decTagLit 0x80#8) State.reset)).map decView = some (0x80#8, 128, []) := by decide

/-- 41_decoder.md R106's example. -/
theorem test_decRunval :
    (nextOf (exec (.decRunval 0x41#8) (decAt 0x03#8 3 [.accept, .accept, .accept]))).map decView =
      some (0x00#8, 0, [0x41#8, 0x41#8, 0x41#8]) := by decide

/-- Vector X-10: two copies reached the sink. -/
theorem test_decRunval_outputError :
    (nextOf (exec (.decRunval 0x41#8) (decAt 0x03#8 3 [.accept, .accept, .fail]))).map (endView .dec) =
      some (0b1010#4, [0x41#8, 0x41#8]) := by decide

/-- 41_decoder.md R107's example. -/
theorem test_decLitbyte :
    (nextOf (exec (.decLitbyte 0x43#8) (decAt 0xFE#8 2 [.accept]))).map decView = some (0xFE#8, 1, [0x43#8]) := by
  decide

/-- Program P2 step 2: the last payload byte returns DEC to between frames. -/
theorem test_decLitbyte_last :
    (nextOf (exec (.decLitbyte 0x01#8) (decAt 0xFF#8 1 [.accept]))).map decView = some (0x00#8, 0, [0x01#8]) := by
  decide

/-- Vector D-1. -/
theorem test_decEosIdle :
    (nextOf (exec (.decEosIdle 0x00#8) State.reset)).map (endView .dec) = some (0b0100#4, []) := by decide

/-- Vector D-4. -/
theorem test_decEosMid :
    (nextOf (exec (.decEosMid 0x00#8) (decAt 0x03#8 3 []))).map (endView .dec) = some (0b1011#4, []) := by decide

/-- Vector D-13: a read failure in mid-frame is InputError. -/
theorem test_decRderr :
    (nextOf (exec (.decRderr 0x00#8) (decAt 0xFE#8 1 []))).map (endView .dec) = some (0b1001#4, []) := by decide

/-- 95_test_vectors.md section 4: the word 0x300 is handled as RDERR. -/
theorem test_decRsvd :
    (nextOf (exec (.decRsvd 0x00#8) State.reset)).map (endView .dec) = some (0b1001#4, []) := by decide

/-- 30_encoding.md R61 as a frame. -/
theorem test_endFrame :
    (nextOf (exec .endFrame State.reset)).map (endView .dec) = some (0b0100#4, []) := by decide

/-- Vector D-9: tag 0x01 is accepted and a value byte of 0x00 is data. -/
theorem test_run :
    (nextOf (exec (.run 0x01#8 0x00#8) (decAt 0 0 [.accept]))).map decView = some (0x00#8, 0, [0x00#8]) := by decide

/-- 30_encoding.md R60: the frame `[0xFE, 0x43, 0x44]`. -/
theorem test_lit :
    (nextOf (exec (.lit [0x43#8, 0x44#8]) (decAt 0 0 [.accept, .accept]))).map decView =
      some (0x00#8, 0, [0x43#8, 0x44#8]) := by decide

/-- Vector X-11: the second byte of the literal fails. -/
theorem test_lit_outputError :
    (nextOf (exec (.lit [0x01#8, 0x02#8, 0x03#8]) (decAt 0 0 [.accept, .fail]))).map
      (fun s => (endView .dec s, s.dec.io.IN)) =
      some ((0b1010#4, [0x01#8]), [0xFD#8, 0x01#8, 0x02#8]) := by decide

/-- 60_exceptions.md R130: no operation in a terminal phase. -/
theorem test_terminal : faultOf (exec (.encByteLit 0x41#8) bothDone) = some .terminal := by decide

/-- 60_exceptions.md R140: a unit whose sink has not answered has no step. -/
theorem test_sinkWait :
    faultOf (exec (.encEosRun 0x00#8) (encRun 3 0x41#8 [.accept])) = some (.sinkWait [0x41#8]) := by decide

/-! ### The step, the channels and the ports -/

/-- A placed item word is what the next step runs (30_encoding.md R73): 0x041 is ENC's first pending byte. -/
theorem test_withFetchWord :
    (nextOf (step (State.reset.withFetchWord 16 0x041))).map (fun s => (s.enc.cnt, s.enc.io.inQ, s.enc.io.IN)) =
      some (1, [], [0x41#8]) := by decide

/-- A placed tag is what DEC's next step takes, with its zero payload behind it. -/
theorem test_withFetchWord_tag :
    (nextOf (step (State.reset.withFetchWord 8 0x03))).map (fun s => (decView s, s.dec.io.inQ)) =
      some ((0x03#8, 3, []), [0x000#10]) := by decide

/-- With nothing offered, the machine waits for the host (60_exceptions.md R144). -/
theorem test_step_reset : faultOf (step State.reset) = some .waitingForHost := by decide

/-- With both units terminal the run is over (70_reset_and_hazards.md R163). -/
theorem test_step_over : faultOf (step bothDone) = some .runOver := by decide

/-- ENC with the run of three 0x41 pending, EOS in hand and the tag byte taken by the sink. -/
def encWaiting : State :=
  { State.reset with enc := { (encRun 3 0x41#8 []).enc with
      io := { UnitIO.reset with sink := [.accept], hand := some 0x100#10 } } }

/-- A unit that waits for its sink offers the byte not taken, here the last one, and takes no item (30_encoding.md R76). -/
theorem test_pins_waiting :
    outPins .enc encWaiting =
      { inReady := false, outByte := some (0x41#8, true), done := false, status := 0b0000#4 } := by decide

/-- The pins of an edge that offers an item. -/
def itemPins (k : BitVec 2) (b : Byte) : InPins :=
  { rst := false, inValid := true, inKind := k, inData := b, outReady := false, outErr := false }

/-- The pins of an edge on which the sink answers. -/
def sinkPins (rst ready err : Bool) : InPins :=
  { rst := rst, inValid := false, inKind := 0b00#2, inData := 0x00#8, outReady := ready, outErr := err }

/-- An edge with in_valid and in_ready: the unit takes the item on it (30_encoding.md R76). -/
theorem test_edge_item :
    (nextOf (edge .dec (itemPins 0b00#2 0x03#8) State.reset)).map (fun s => (decView s, s.dec.io.inQ)) =
      some ((0x03#8, 3, []), []) := by decide

/-- A value byte is taken and waits for the sink: in_ready is 0 (70_reset_and_hazards.md R154). -/
theorem test_edge_waits :
    (nextOf (edge .dec (itemPins 0b00#2 0x41#8) (decAt 0x03#8 3 []))).map (outPins .dec) =
      some { inReady := false, outByte := some (0x41#8, false), done := false, status := 0b0000#4 } := by decide

/-- The edge that takes the last byte completes the step. -/
theorem test_edge_completes :
    (nextOf (edge .enc (sinkPins false true false) encWaiting)).map (fun s => (endView .enc s, s.enc.io.hand)) =
      some ((0b0100#4, [0x03#8, 0x41#8]), none) := by decide

/-- A reset in mid-transaction: the item in hand and its replies go, the byte delivered stays delivered
(70_reset_and_hazards.md R147). -/
theorem test_edge_reset :
    (nextOf (edge .enc (sinkPins true false false) encWaiting)).map
      (fun s => (endView .enc s, s.enc.io.hand, s.enc.io.sink, s.enc.io.earlier)) =
      some ((0b0000#4, []), none, [], [0x03#8]) := by decide

/-- The byte offered on the reset edge transfers first where out_ready is 1 (log entry 9). -/
theorem test_edge_reset_byte :
    (nextOf (edge .enc (sinkPins true true false) encWaiting)).map (fun s => s.enc.io.earlier) =
      some [0x03#8, 0x41#8] := by decide

/-- An item offered on an edge with rst is not taken (70_reset_and_hazards.md R147). -/
theorem test_edge_reset_item :
    (nextOf (edge .enc { itemPins 0b00#2 0x41#8 with rst := true } State.reset)).map
      (fun s => (s.enc.cnt, s.enc.io.IN, s.enc.io.inQ)) = some (0, [], []) := by decide

/-- The items left after a sentinel are discarded by the host (70_reset_and_hazards.md R157). -/
theorem test_discard :
    (doAct (.discard .dec) (bothDone.setInQ .dec [0x041#10, 0x100#10])).dec.io.inQ = [] := by decide

/-- A reset of DEC in mid-frame (70_reset_and_hazards.md R147, R160). -/
theorem test_reset_act :
    (fun s => (decView s, status .dec s)) (doAct (.reset .dec) (decAt 0xFE#8 1 [])) =
      ((0x00#8, 0, []), 0b0000#4) := by decide

/-- decode(s) on vector D-6, and on D-11 where a sentinel ends it (95_test_vectors.md section 3). -/
theorem test_wireDecode :
    wireDecode [0xFF#8, 0x01#8, 0x02#8, 0x02#8, 0xFF#8, 0x03#8] =
      { out := [0x01#8, 0x02#8, 0x02#8, 0x03#8], result := .ok, used := 6 } ∧
    wireDecode [0x02#8, 0x41#8, 0x00#8, 0xFF#8, 0x42#8] =
      { out := [0x41#8, 0x41#8], result := .ok, used := 3 } := by decide

/-- REP 200, 0x5A and REP 128, 0x41 (30_encoding.md R79). -/
theorem test_rep :
    framesBytes (repFrames 200 0x5A#8) = [0x7F#8, 0x5A#8, 0x49#8, 0x5A#8] ∧
    framesBytes (repFrames 128 0x41#8) = [0x7F#8, 0x41#8, 0xFF#8, 0x41#8] := by decide

/-! ### Witnesses: for each statement with hypotheses, values that meet them -/

theorem witness_ItemDecodeOfEncode :
    ∃ (i : Instr) (f : FsmState), i.wf = true ∧ i.selectedIn f = true :=
  ⟨.decRunval 0x00#8, .dec 0x7F#8, by decide, by decide⟩

theorem witness_FrameDecodeOfEncode :
    ∃ (i : Instr) (bs : List Byte), i.wf = true ∧ frameBytes i = some bs :=
  ⟨.lit [0x00#8], [0xFF#8, 0x00#8], by decide, by decide⟩

theorem witness_FrameEncodeOfDecode :
    ∃ (s rest : List Byte) (i : Instr), decodeFrame s = .ok (i, rest) :=
  ⟨[0x7F#8, 0x00#8, 0x01#8], [0x01#8], .run 0x7F#8 0x00#8, by rfl⟩

theorem witness_TagAndCountInverse_literal :
    ∃ n : Nat, 1 ≤ n ∧ n ≤ 128 :=
  ⟨128, by decide, by decide⟩

theorem witness_TagAndCountInverse_run :
    ∃ n : Nat, 2 ≤ n ∧ n ≤ 127 :=
  ⟨127, by decide, by decide⟩

theorem witness_TagClassRanges_sentinel :
    ∃ t : Byte, tagClass t = .sentinel :=
  ⟨0x00#8, by decide⟩

theorem witness_TagClassRanges_run_low :
    ∃ t : Byte, tagClass t = .run :=
  ⟨0x01#8, by decide⟩

theorem witness_TagClassRanges_run_high :
    ∃ t : Byte, tagClass t = .run :=
  ⟨0x7F#8, by decide⟩

theorem witness_TagClassRanges_literal_low :
    ∃ t : Byte, tagClass t = .literal :=
  ⟨0x80#8, by decide⟩

theorem witness_TagClassRanges_literal_high :
    ∃ t : Byte, tagClass t = .literal :=
  ⟨0xFF#8, by decide⟩

theorem witness_WireDecodeReadsFrames :
    ∃ fs : List Instr, fs.all isDataFrame = true :=
  ⟨[.run 0x01#8 0x00#8, .lit [0x00#8]], by decide⟩

theorem witness_WireDecodeStopsAtSentinel :
    ∃ fs : List Instr, fs.all isDataFrame = true :=
  ⟨[.run 0x7F#8 0x00#8], by decide⟩

theorem witness_EncByteLitBuffersByte :
    ∃ (s : State) (b : Byte) (p : List Byte), s.enc.io.phase = .active ∧ s.enc.mode = .lit ∧
    s.enc.cnt.toNat < 128 ∧ memSpan s.enc.buf 0 s.enc.cnt.toNat = .ok p ∧ p.getLast? ≠ some b :=
  ⟨encLit [0x41#8] [], 0x42#8, [0x41#8], by decide, by decide, by decide, by rfl, by decide⟩

theorem witness_EncByteLitStartsRunOfPair :
    ∃ (s : State) (b : Byte), s.enc.io.phase = .active ∧ s.enc.mode = .lit ∧ s.enc.cnt = 1 ∧
    memSpan s.enc.buf 0 1 = .ok [b] :=
  ⟨encLit [0x41#8] [], 0x41#8, by decide, by decide, by decide, by rfl⟩

theorem witness_EncByteLitFlushesAndStartsRun :
    ∃ (s : State) (b : Byte) (p : List Byte) (rest : List SinkReply), s.enc.io.phase = .active ∧
    s.enc.mode = .lit ∧ 1 ≤ p.length ∧ s.enc.cnt.toNat = p.length + 1 ∧ s.enc.cnt.toNat ≤ 128 ∧
    memSpan s.enc.buf 0 s.enc.cnt.toNat = .ok (p ++ [b]) ∧
    s.enc.io.sink = List.replicate (p.length + 1) .accept ++ rest :=
  ⟨encLit [0x01#8, 0x02#8] [.accept, .accept, .fail], 0x02#8, [0x01#8], [.fail], by decide, by decide, by decide, by decide, by decide, by rfl, by decide⟩

/-- 128 pending bytes, no two neighbours equal. -/
def alternating : List Byte := (List.replicate 64 [0x01#8, 0x02#8]).flatten

set_option maxRecDepth 4000 in
theorem witness_EncByteLitFlushesAndStartsRun_at129 :
    ∃ (s : State) (b : Byte) (p : List Byte) (rest : List SinkReply), s.enc.io.phase = .active ∧
    s.enc.mode = .lit ∧ 1 ≤ p.length ∧ s.enc.cnt.toNat = p.length + 1 ∧ s.enc.cnt.toNat ≤ 128 ∧
    memSpan s.enc.buf 0 s.enc.cnt.toNat = .ok (p ++ [b]) ∧
    s.enc.io.sink = List.replicate (p.length + 1) .accept ++ rest :=
  ⟨encLit alternating (List.replicate 128 .accept), 0x02#8, alternating.dropLast, [], by decide, by decide, by decide, by decide, by decide, by rfl, by decide⟩

set_option maxRecDepth 4000 in
theorem witness_EncByteLitFlushesFullBuffer :
    ∃ (s : State) (b : Byte) (p : List Byte) (rest : List SinkReply), s.enc.io.phase = .active ∧
    s.enc.mode = .lit ∧ s.enc.cnt.toNat = 128 ∧ memSpan s.enc.buf 0 128 = .ok p ∧ p.getLast? ≠ some b ∧
    s.enc.io.sink = List.replicate 129 .accept ++ rest :=
  ⟨encLit alternating (List.replicate 129 .accept), 0x01#8, alternating, [], by decide, by decide, by decide, by rfl, by decide, by decide⟩

theorem witness_EncByteRunExtendsRun :
    ∃ s : State, s.enc.io.phase = .active ∧ s.enc.mode = .run ∧ 2 ≤ s.enc.runLen.toNat ∧
    s.enc.runLen.toNat < 126 :=
  ⟨encRun 125 0x41#8 [], by decide, by decide, by decide, by decide⟩

theorem witness_EncByteRunClosesAt127 :
    ∃ (s : State) (rest : List SinkReply), s.enc.io.phase = .active ∧ s.enc.mode = .run ∧
    s.enc.runLen.toNat = 126 ∧ s.enc.io.sink = .accept :: .accept :: rest :=
  ⟨encRun 126 0x41#8 [.accept, .accept], [], by decide, by decide, by decide, by decide⟩

theorem witness_EncByteRunClosedByUnequalByte :
    ∃ (s : State) (b : Byte) (rest : List SinkReply), s.enc.io.phase = .active ∧ s.enc.mode = .run ∧
    2 ≤ s.enc.runLen.toNat ∧ s.enc.runLen.toNat ≤ 126 ∧ b ≠ s.enc.runVal ∧
    s.enc.io.sink = .accept :: .accept :: rest :=
  ⟨encRun 126 0x41#8 [.accept, .accept], 0x42#8, [], by decide, by decide, by decide, by decide, by decide, by decide⟩

theorem witness_EncEosLitFlushesAndEnds_taken :
    ∃ (s : State) (p : List Byte) (rest : List SinkReply), s.enc.io.phase = .active ∧ s.enc.mode = .lit ∧
    s.enc.cnt.toNat ≤ 128 ∧ memSpan s.enc.buf 0 s.enc.cnt.toNat = .ok p ∧
    s.enc.io.sink = List.replicate (if p = [] then 0 else p.length + 1) .accept ++ rest :=
  ⟨encLit [0x03#8] [.accept, .accept], [0x03#8], [], by decide, by decide, by decide, by rfl, by decide⟩

theorem witness_EncEosLitFlushesAndEnds_empty :
    ∃ (s : State) (p : List Byte) (rest : List SinkReply), s.enc.io.phase = .active ∧ s.enc.mode = .lit ∧
    s.enc.cnt.toNat ≤ 128 ∧ memSpan s.enc.buf 0 s.enc.cnt.toNat = .ok p ∧
    s.enc.io.sink = List.replicate (if p = [] then 0 else p.length + 1) .accept ++ rest :=
  ⟨encLit [] [], [], [], by decide, by decide, by decide, by rfl, by decide⟩

set_option maxRecDepth 4000 in
theorem witness_EncEosLitFlushesAndEnds_full :
    ∃ (s : State) (p : List Byte) (rest : List SinkReply), s.enc.io.phase = .active ∧ s.enc.mode = .lit ∧
    s.enc.cnt.toNat ≤ 128 ∧ memSpan s.enc.buf 0 s.enc.cnt.toNat = .ok p ∧
    s.enc.io.sink = List.replicate (if p = [] then 0 else p.length + 1) .accept ++ rest :=
  ⟨encLit alternating (List.replicate 129 .accept), alternating, [], by decide, by decide, by decide, by rfl, by decide⟩

theorem witness_EncEosLitFlushesAndEnds_failed :
    ∃ (s : State) (p : List Byte) (k : Nat) (rest : List SinkReply), s.enc.io.phase = .active ∧
    s.enc.mode = .lit ∧ s.enc.cnt.toNat ≤ 128 ∧ memSpan s.enc.buf 0 s.enc.cnt.toNat = .ok p ∧ p ≠ [] ∧
    k < p.length + 1 ∧ s.enc.io.sink = List.replicate k .accept ++ .fail :: rest :=
  ⟨encLit [0x03#8] [.accept, .fail], [0x03#8], 1, [], by decide, by decide, by decide, by rfl, by decide, by decide, by decide⟩

theorem witness_EncEosRunFlushesAndEnds_taken :
    ∃ (s : State) (rest : List SinkReply), s.enc.io.phase = .active ∧ s.enc.mode = .run ∧
    2 ≤ s.enc.runLen.toNat ∧ s.enc.runLen.toNat ≤ 126 ∧ s.enc.io.sink = .accept :: .accept :: rest :=
  ⟨encRun 126 0x41#8 [.accept, .accept], [], by decide, by decide, by decide, by decide, by decide⟩

theorem witness_EncEosRunFlushesAndEnds_failed :
    ∃ (s : State) (k : Nat) (rest : List SinkReply), s.enc.io.phase = .active ∧ s.enc.mode = .run ∧
    2 ≤ s.enc.runLen.toNat ∧ s.enc.runLen.toNat ≤ 126 ∧ k < 2 ∧
    s.enc.io.sink = List.replicate k .accept ++ .fail :: rest :=
  ⟨encRun 2 0x41#8 [.accept, .fail], 1, [], by decide, by decide, by decide, by decide, by decide, by decide⟩

theorem witness_EncReadErrorFails :
    ∃ s : State, s.enc.io.phase = .active :=
  ⟨encRun 2 0x41#8 [], by decide⟩

theorem witness_EncWriteFailureKeepsPrefix_byteLit :
    ∃ (s : State) (i : Instr) (p : List Byte) (k : Nat) (rest : List SinkReply), isEncOp i = true ∧
    i.selectedIn (.enc s.enc.mode) = true ∧ encReady s.enc p ∧ k < (encTx i s.enc p).length ∧
    s.enc.io.sink = List.replicate k .accept ++ .fail :: rest :=
  ⟨encLit [0x01#8, 0x02#8] [.accept, .fail], .encByteLit 0x02#8, [0x01#8, 0x02#8], 1, [], by decide, by decide, ⟨by decide, by rfl, by decide, by decide⟩, by decide, by decide⟩

theorem witness_EncWaitsForSink_byteLit :
    ∃ (s : State) (i : Instr) (p : List Byte) (k : Nat), isEncOp i = true ∧
    i.selectedIn (.enc s.enc.mode) = true ∧ encReady s.enc p ∧ k < (encTx i s.enc p).length ∧
    s.enc.io.sink = List.replicate k .accept :=
  ⟨encLit [0x01#8, 0x02#8] [.accept], .encByteLit 0x02#8, [0x01#8, 0x02#8], 1, by decide, by decide, ⟨by decide, by rfl, by decide, by decide⟩, by decide, by decide⟩

theorem witness_EncWriteFailureKeepsPrefix_byteRun :
    ∃ (s : State) (i : Instr) (p : List Byte) (k : Nat) (rest : List SinkReply), isEncOp i = true ∧
    i.selectedIn (.enc s.enc.mode) = true ∧ encReady s.enc p ∧ k < (encTx i s.enc p).length ∧
    s.enc.io.sink = List.replicate k .accept ++ .fail :: rest :=
  ⟨encRun 126 0x41#8 [.accept, .fail], .encByteRun 0x41#8, List.replicate 126 0x41#8, 1, [], by decide, by decide, ⟨by decide, by rfl, by decide, by decide⟩, by decide, by decide⟩

theorem witness_EncWaitsForSink_byteRun :
    ∃ (s : State) (i : Instr) (p : List Byte) (k : Nat), isEncOp i = true ∧
    i.selectedIn (.enc s.enc.mode) = true ∧ encReady s.enc p ∧ k < (encTx i s.enc p).length ∧
    s.enc.io.sink = List.replicate k .accept :=
  ⟨encRun 126 0x41#8 [.accept], .encByteRun 0x41#8, List.replicate 126 0x41#8, 1, by decide, by decide, ⟨by decide, by rfl, by decide, by decide⟩, by decide, by decide⟩

theorem witness_EncWriteFailureKeepsPrefix_eosLit :
    ∃ (s : State) (i : Instr) (p : List Byte) (k : Nat) (rest : List SinkReply), isEncOp i = true ∧
    i.selectedIn (.enc s.enc.mode) = true ∧ encReady s.enc p ∧ k < (encTx i s.enc p).length ∧
    s.enc.io.sink = List.replicate k .accept ++ .fail :: rest :=
  ⟨encLit [0x01#8, 0x02#8] [.accept, .fail], .encEosLit 0x00#8, [0x01#8, 0x02#8], 1, [], by decide, by decide, ⟨by decide, by rfl, by decide, by decide⟩, by decide, by decide⟩

theorem witness_EncWaitsForSink_eosLit :
    ∃ (s : State) (i : Instr) (p : List Byte) (k : Nat), isEncOp i = true ∧
    i.selectedIn (.enc s.enc.mode) = true ∧ encReady s.enc p ∧ k < (encTx i s.enc p).length ∧
    s.enc.io.sink = List.replicate k .accept :=
  ⟨encLit [0x01#8, 0x02#8] [.accept], .encEosLit 0x00#8, [0x01#8, 0x02#8], 1, by decide, by decide, ⟨by decide, by rfl, by decide, by decide⟩, by decide, by decide⟩

theorem witness_EncWriteFailureKeepsPrefix_eosRun :
    ∃ (s : State) (i : Instr) (p : List Byte) (k : Nat) (rest : List SinkReply), isEncOp i = true ∧
    i.selectedIn (.enc s.enc.mode) = true ∧ encReady s.enc p ∧ k < (encTx i s.enc p).length ∧
    s.enc.io.sink = List.replicate k .accept ++ .fail :: rest :=
  ⟨encRun 2 0x41#8 [.accept, .fail], .encEosRun 0x00#8, [0x41#8, 0x41#8], 1, [], by decide, by decide, ⟨by decide, by rfl, by decide, by decide⟩, by decide, by decide⟩

theorem witness_EncWaitsForSink_eosRun :
    ∃ (s : State) (i : Instr) (p : List Byte) (k : Nat), isEncOp i = true ∧
    i.selectedIn (.enc s.enc.mode) = true ∧ encReady s.enc p ∧ k < (encTx i s.enc p).length ∧
    s.enc.io.sink = List.replicate k .accept :=
  ⟨encRun 2 0x41#8 [.accept], .encEosRun 0x00#8, [0x41#8, 0x41#8], 1, by decide, by decide, ⟨by decide, by rfl, by decide, by decide⟩, by decide, by decide⟩

theorem witness_EncOperationsFrame_read :
    ∃ (s t : State) (i : Instr), isEncOp i = true ∧ exec i s = .next t :=
  ⟨State.reset, _, .encRderr 0x00#8, by decide, rfl⟩

theorem witness_EncOperationsFrame_lit :
    ∃ (s t : State) (i : Instr), isEncOp i = true ∧ exec i s = .next t :=
  ⟨encLit [0x41#8] [], _, .encByteLit 0x41#8, by decide, rfl⟩

theorem witness_EncByteLitFrame :
    ∃ (s t : State) (b : Byte), exec (.encByteLit b) s = .next t ∧ t.enc.io.phase = .active :=
  ⟨State.reset, _, 0x41#8, rfl, by decide⟩

set_option maxRecDepth 4000 in
theorem witness_EncByteLitFrame_at128 :
    ∃ (s t : State) (b : Byte), exec (.encByteLit b) s = .next t ∧ t.enc.io.phase = .active ∧
    s.enc.cnt.toNat = 128 ∧ t.enc.mode = .lit :=
  ⟨encLit alternating (List.replicate 129 .accept), _, 0x01#8, rfl, by decide, by decide, by decide⟩

set_option maxRecDepth 4000 in
theorem witness_EncByteLitFrame_at128_run :
    ∃ (s t : State) (b : Byte), exec (.encByteLit b) s = .next t ∧ t.enc.io.phase = .active ∧
    s.enc.cnt.toNat = 128 ∧ t.enc.mode = .run :=
  ⟨encLit alternating (List.replicate 128 .accept), _, 0x02#8, rfl, by decide, by decide, by decide⟩

theorem witness_EncByteRunFrame_equal :
    ∃ (s t : State) (b : Byte), exec (.encByteRun b) s = .next t ∧ t.enc.io.phase = .active ∧ b = s.enc.runVal :=
  ⟨encRun 2 0x41#8 [], _, 0x41#8, rfl, by decide, by decide⟩

theorem witness_EncByteRunFrame_unequal :
    ∃ (s t : State) (b : Byte), exec (.encByteRun b) s = .next t ∧ t.enc.io.phase = .active ∧ b ≠ s.enc.runVal :=
  ⟨encRun 2 0x41#8 [.accept, .accept], _, 0x42#8, rfl, by decide, by decide⟩

theorem witness_EncStepWritesAtMostOneFrame :
    ∃ (s t : State) (i : Instr), isEncOp i = true ∧ exec i s = .next t :=
  ⟨encLit [0x41#8] [.accept, .fail], _, .encEosLit 0x00#8, by decide, rfl⟩

/-- The reset state's ENC is sound, whatever the sink. -/
theorem encLit_nil_inv (rs : List SinkReply) : (encLit [] rs).enc.Inv := by
  refine ⟨⟨by simp [encLit, EncUnit.reset, UnitIO.reset], by simp [encLit, EncUnit.reset, UnitIO.reset]⟩,
    by simp [encLit, EncUnit.reset, UnitIO.reset], rfl, fun _ => ⟨fun _ => ⟨by simp [encLit], [], rfl, rfl⟩, ?_, [], [], rfl, ⟨[], rfl, rfl, rfl⟩, rfl⟩, ?_, ?_⟩
  · simp [encLit, EncUnit.reset]
  · simp [encLit, EncUnit.reset, UnitIO.reset]
  · simp [encLit, EncUnit.reset, UnitIO.reset]

theorem witness_EncSilentAtMost128Bytes :
    ∃ (s t : State) (bs : List Byte), s.enc.Inv ∧ s.enc.io.phase = .active ∧
    feed .enc (bs.map byteItem) s = .next t ∧ t.enc.io.phase = .active ∧ t.enc.io.OUT = s.enc.io.OUT :=
  ⟨encLit [] [], _, [0x41#8, 0x42#8], encLit_nil_inv [], by decide, rfl, by decide, by decide⟩

set_option maxRecDepth 4000 in
theorem witness_EncSilentAtMost128Bytes_reached :
    ∃ (s : State) (bs : List Byte), s.enc.io.phase = .active ∧ s.enc.mode = .lit ∧ s.enc.cnt = 0 ∧
    bs.length = 128 ∧ noAdjacentEqual bs = true :=
  ⟨State.reset, alternating, by decide, by decide, by decide, by decide, by decide⟩

theorem witness_DecSentinelEnds_item :
    ∃ (s : State) (i : Instr), (i = .decTagSentinel ∨ i = .endFrame) ∧ s.dec.io.phase = .active ∧
    s.dec.tag = 0 :=
  ⟨State.reset, .decTagSentinel, by decide, by decide, by decide⟩

theorem witness_DecSentinelEnds_frame :
    ∃ (s : State) (i : Instr), (i = .decTagSentinel ∨ i = .endFrame) ∧ s.dec.io.phase = .active ∧
    s.dec.tag = 0 :=
  ⟨State.reset, .endFrame, by decide, by decide, by decide⟩

theorem witness_DecTagRunOpensFrame_low :
    ∃ (s : State) (t : Byte), s.dec.io.phase = .active ∧ s.dec.tag = 0 ∧ 0x01 ≤ t.toNat ∧ t.toNat ≤ 0x7F :=
  ⟨State.reset, 0x01#8, by decide, by decide, by decide, by decide⟩

theorem witness_DecTagRunOpensFrame_high :
    ∃ (s : State) (t : Byte), s.dec.io.phase = .active ∧ s.dec.tag = 0 ∧ 0x01 ≤ t.toNat ∧ t.toNat ≤ 0x7F :=
  ⟨State.reset, 0x7F#8, by decide, by decide, by decide, by decide⟩

theorem witness_DecTagLitOpensFrame_low :
    ∃ (s : State) (t : Byte), s.dec.io.phase = .active ∧ s.dec.tag = 0 ∧ 0x80 ≤ t.toNat :=
  ⟨State.reset, 0x80#8, by decide, by decide, by decide⟩

theorem witness_DecTagLitOpensFrame_high :
    ∃ (s : State) (t : Byte), s.dec.io.phase = .active ∧ s.dec.tag = 0 ∧ 0x80 ≤ t.toNat :=
  ⟨State.reset, 0xFF#8, by decide, by decide, by decide⟩

theorem witness_DecRunvalWritesCopies_taken :
    ∃ (s : State) (rest : List SinkReply), s.dec.io.phase = .active ∧ 0x01 ≤ s.dec.tag.toNat ∧
    s.dec.tag.toNat ≤ 0x7F ∧ s.dec.rem = s.dec.tag ∧
    s.dec.io.sink = List.replicate s.dec.rem.toNat .accept ++ rest :=
  ⟨decAt 0x01#8 1 [.accept], [], by decide, by decide, by decide, by decide, by decide⟩

theorem witness_DecRunvalWritesCopies_failed :
    ∃ (s : State) (k : Nat) (rest : List SinkReply), s.dec.io.phase = .active ∧ 0x01 ≤ s.dec.tag.toNat ∧
    s.dec.tag.toNat ≤ 0x7F ∧ s.dec.rem = s.dec.tag ∧ k < s.dec.rem.toNat ∧
    s.dec.io.sink = List.replicate k .accept ++ .fail :: rest :=
  ⟨decAt 0x7F#8 0x7F#8 [.accept, .fail], 1, [], by decide, by decide, by decide, by decide, by decide, by decide⟩

theorem witness_DecLitbyteCopiesByte_taken :
    ∃ (s : State) (rest : List SinkReply), s.dec.io.phase = .active ∧ 0x80 ≤ s.dec.tag.toNat ∧
    1 ≤ s.dec.rem.toNat ∧ s.dec.rem.toNat ≤ 128 ∧ s.dec.io.sink = .accept :: rest :=
  ⟨decAt 0x80#8 128 [.accept], [], by decide, by decide, by decide, by decide, by decide⟩

theorem witness_DecLitbyteCopiesByte_last :
    ∃ (s : State) (rest : List SinkReply), s.dec.io.phase = .active ∧ 0x80 ≤ s.dec.tag.toNat ∧
    1 ≤ s.dec.rem.toNat ∧ s.dec.rem.toNat ≤ 128 ∧ s.dec.io.sink = .accept :: rest ∧ s.dec.rem.toNat = 1 :=
  ⟨decAt 0xFF#8 1 [.accept], [], by decide, by decide, by decide, by decide, by decide, by decide⟩

theorem witness_DecLitbyteCopiesByte_failed :
    ∃ (s : State) (rest : List SinkReply), s.dec.io.phase = .active ∧ 0x80 ≤ s.dec.tag.toNat ∧
    1 ≤ s.dec.rem.toNat ∧ s.dec.rem.toNat ≤ 128 ∧ s.dec.io.sink = .fail :: rest :=
  ⟨decAt 0xFF#8 1 [.fail], [], by decide, by decide, by decide, by decide, by decide⟩

theorem witness_DecWaitsForSink_run :
    ∃ (s : State) (k : Nat), s.dec.io.phase = .active ∧ 0x01 ≤ s.dec.tag.toNat ∧ s.dec.tag.toNat ≤ 0x7F ∧
    s.dec.rem = s.dec.tag ∧ k < s.dec.rem.toNat ∧ s.dec.io.sink = List.replicate k .accept :=
  ⟨decAt 0x03#8 3 [.accept], 1, by decide, by decide, by decide, by decide, by decide, by decide⟩

theorem witness_DecWaitsForSink_lit :
    ∃ s : State, s.dec.io.phase = .active ∧ 0x80 ≤ s.dec.tag.toNat ∧ 1 ≤ s.dec.rem.toNat ∧
    s.dec.rem.toNat ≤ 128 ∧ s.dec.io.sink = [] :=
  ⟨decAt 0x80#8 128 [], by decide, by decide, by decide, by decide, by decide⟩

theorem witness_DecEosIdleEnds :
    ∃ s : State, s.dec.io.phase = .active ∧ s.dec.tag = 0 :=
  ⟨State.reset, by decide, by decide⟩

theorem witness_DecEosMidFails :
    ∃ s : State, s.dec.io.phase = .active ∧ s.dec.tag ≠ 0 :=
  ⟨decAt 0x03#8 3 [], by decide, by decide⟩

theorem witness_DecReadErrorFails :
    ∃ s : State, s.dec.io.phase = .active :=
  ⟨decAt 0xFE#8 1 [], by decide⟩

theorem witness_RunFrameDecodesToCopies :
    ∃ (s : State) (t : Byte) (rest : List SinkReply), s.dec.io.phase = .active ∧ s.dec.tag = 0 ∧
    0x01 ≤ t.toNat ∧ t.toNat ≤ 0x7F ∧ s.dec.io.sink = List.replicate t.toNat .accept ++ rest :=
  ⟨decAt 0 0 (List.replicate 127 .accept), 0x7F#8, [], by decide, by decide, by decide, by decide, by decide⟩

theorem witness_LitFrameDecodesVerbatim :
    ∃ (s : State) (p : List Byte) (rest : List SinkReply), s.dec.io.phase = .active ∧ s.dec.tag = 0 ∧
    1 ≤ p.length ∧ p.length ≤ 128 ∧ s.dec.io.sink = List.replicate p.length .accept ++ rest :=
  ⟨decAt 0 0 [.accept], [0x43#8], [], by decide, by decide, by decide, by decide, by decide⟩

set_option maxRecDepth 4000 in
theorem witness_LitFrameDecodesVerbatim_128 :
    ∃ (s : State) (p : List Byte) (rest : List SinkReply), s.dec.io.phase = .active ∧ s.dec.tag = 0 ∧
    1 ≤ p.length ∧ p.length ≤ 128 ∧ s.dec.io.sink = List.replicate p.length .accept ++ rest :=
  ⟨decAt 0 0 (List.replicate 128 .accept), alternating, [], by decide, by decide, by decide, by decide, by decide⟩

theorem witness_LitFrameStopsAtWriteFailure :
    ∃ (s : State) (p : List Byte) (k : Nat) (rest : List SinkReply), s.dec.io.phase = .active ∧
    s.dec.tag = 0 ∧ k < p.length ∧ p.length ≤ 128 ∧ s.dec.io.sink = List.replicate k .accept ++ .fail :: rest :=
  ⟨decAt 0 0 [.accept, .fail], [0x01#8, 0x02#8], 1, [], by decide, by decide, by decide, by decide, by decide⟩

theorem witness_FrameIsItsItems :
    ∃ (s : State) (i : Instr) (bs : List Byte), i.wf = true ∧ frameBytes i = some bs ∧ s.dec.tag = 0 :=
  ⟨State.reset, .run 0x02#8 0x00#8, [0x02#8, 0x00#8], by decide, by decide, by decide⟩

theorem witness_DecOperationsFrame :
    ∃ (s t : State) (i : Instr), isEncOp i = false ∧ exec i s = .next t :=
  ⟨decAt 0 0 [.accept], _, .lit [0x01#8], by decide, rfl⟩

theorem witness_DecOperationsFrame_item :
    ∃ (s t : State) (i : Instr), isEncOp i = false ∧ exec i s = .next t :=
  ⟨decAt 0x03#8 3 [], _, .decEosMid 0x00#8, by decide, rfl⟩

theorem witness_DecOutputPerItem :
    ∃ (s t : State) (w : ItemWord), feedItem .dec w s = .next t :=
  ⟨decAt 0x7F#8 0x7F#8 (List.replicate 127 .accept), _, 0x041#10, rfl⟩

theorem witness_DecOutputPerItem_tag :
    ∃ (s t : State) (w : ItemWord), feedItem .dec w s = .next t ∧ s.dec.tag = 0 :=
  ⟨State.reset, _, 0x041#10, rfl, rfl⟩

theorem witness_DecOutputPerItem_noByte :
    ∃ (s t : State) (w : ItemWord), feedItem .dec w s = .next t ∧ itemKind w ≠ .byte :=
  ⟨decAt 0x03#8 3 [], _, 0x100#10, rfl, by decide⟩

theorem witness_ItemDataIgnored :
    ∃ w w' : ItemWord, itemKind w = itemKind w' ∧ itemKind w ≠ .byte :=
  ⟨0x100#10, 0x1A5#10, by decide, by decide⟩

theorem witness_ReservedActsAsReadError :
    ∃ w w' : ItemWord, itemKind w = .reserved ∧ itemKind w' = .rderr :=
  ⟨0x300#10, 0x2FF#10, by decide, by decide⟩

theorem witness_UnitStepsCommute :
    ∃ (s a b : State) (i j : Instr), isEncOp i = true ∧ isEncOp j = false ∧ exec i s = .next a ∧
    exec j s = .next b :=
  ⟨State.reset, _, _, .encByteLit 0x41#8, .decTagRun 0x02#8, by decide, by decide, rfl, rfl⟩

theorem witness_TerminalUnitHasNoStep :
    (bothDone.io .enc).phase = .done ∧ (bothDone.io .dec).phase = .failed :=
  ⟨by decide, by decide⟩

theorem witness_StatusValues :
    (State.reset.io .enc).flagsOk ∧ (bothDone.io .enc).flagsOk ∧ (bothDone.io .dec).flagsOk :=
  ⟨⟨by decide, by decide⟩, ⟨by decide, by decide⟩, ⟨by decide, by decide⟩⟩

theorem witness_StepRunsDecodedItem :
    ∃ (u : UnitId) (s t : State) (w : ItemWord) (q : List ItemWord), s.turn = unitAgent u ∧
    (s.io u).hand = none ∧ (s.io u).inQ = w :: q ∧ exec (decode (s.fsm u) w) s = .next t :=
  ⟨.enc, State.reset.withFetchWord 16 0x041, _, 0x041#10, [], by decide, by decide, by decide, rfl⟩

theorem witness_StepRunsDecodedItem_taken :
    ∃ (u : UnitId) (s : State) (w : ItemWord) (q : List ItemWord) (left : List Byte), s.turn = unitAgent u ∧
    (s.io u).hand = none ∧ (s.io u).inQ = w :: q ∧ exec (decode (s.fsm u) w) s = .fault (.sinkWait left) :=
  ⟨.enc, (encLit [0x41#8] []).withFetchWord 16 0x100, 0x100#10, [], [0xFF#8, 0x41#8], by decide, by decide, by decide, rfl⟩

/-- A unit whose phase field holds 3 (93_implementation_defined.md U17). -/
def phaseThree : State :=
  { State.reset with dec := { DecUnit.reset with io := { UnitIO.reset with phase := .reserved, inQ := [0x000#10] } }, turn := .dec }

theorem witness_StepRunsDecodedItem_fault :
    ∃ (u : UnitId) (s : State) (w : ItemWord) (q : List ItemWord) (f : Fault), s.turn = unitAgent u ∧
    (s.io u).hand = none ∧ (s.io u).inQ = w :: q ∧ exec (decode (s.fsm u) w) s = .fault f ∧ f.isWait = false :=
  ⟨.dec, phaseThree, 0x000#10, [], .phaseReserved, by decide, by decide, by decide, rfl, by decide⟩

theorem witness_StepRunsDecodedItem_hand :
    ∃ (u : UnitId) (s t : State) (w : ItemWord), s.turn = unitAgent u ∧ (s.io u).hand = some w ∧
    exec (decode (s.fsm u) w) s = .next t :=
  ⟨.enc, encWaiting.setSink .enc [.accept, .accept], _, 0x100#10, by decide, by decide, rfl⟩

theorem witness_StepRunsDecodedItem_handFault :
    ∃ (u : UnitId) (s : State) (w : ItemWord) (f : Fault), s.turn = unitAgent u ∧ (s.io u).hand = some w ∧
    exec (decode (s.fsm u) w) s = .fault f ∧ f.isWait = false :=
  ⟨.dec, phaseThree.setHand .dec (some 0x041#10), 0x041#10, .phaseReserved, by decide, by decide, rfl, by decide⟩

theorem witness_StepOfHostAndOfNobody_host :
    ∃ (s : State) (a : HostAct) (rest : List HostAct), s.turn = .host ∧ s.host = a :: rest :=
  ⟨{ State.reset with host := [.reset .enc], turn := .host }, .reset .enc, [], by decide, by decide⟩

theorem witness_StepOfHostAndOfNobody_over :
    ∃ s : State, s.host = [] ∧ (s.enc.io.phase = .done ∨ s.enc.io.phase = .failed) ∧
    (s.dec.io.phase = .done ∨ s.dec.io.phase = .failed) :=
  ⟨bothDone, by decide, by decide, by decide⟩

theorem witness_StepOfHostAndOfNobody_wait :
    ∃ s : State, s.host = [] ∧ s.enc.io.inQ = [] ∧ s.dec.io.inQ = [] ∧ s.enc.io.hand = none ∧
    s.dec.io.hand = none ∧ s.enc.io.phase = .active ∧ s.dec.io.phase = .active :=
  ⟨State.reset, by decide, by decide, by decide, by decide, by decide, by decide, by decide⟩

theorem witness_EdgeTransfers_item :
    ∃ (u : UnitId) (s : State) (p : InPins) (t : State), p.rst = false ∧ (s.io u).phase = .active ∧
    (s.io u).hand = none ∧ (s.io u).inQ = [] ∧ p.inValid = true ∧
    exec (decode (s.fsm u) (mkItem p.inKind p.inData)) s = .next t :=
  ⟨.dec, State.reset, itemPins 0b00#2 0x03#8, _, by decide, by decide, by decide, by decide, by decide, rfl⟩

theorem witness_EdgeTransfers_itemWaits :
    ∃ (u : UnitId) (s : State) (p : InPins) (left : List Byte), p.rst = false ∧ (s.io u).phase = .active ∧
    (s.io u).hand = none ∧ (s.io u).inQ = [] ∧ p.inValid = true ∧
    exec (decode (s.fsm u) (mkItem p.inKind p.inData)) s = .fault (.sinkWait left) :=
  ⟨.dec, decAt 0x03#8 3 [], itemPins 0b00#2 0x41#8, [0x41#8, 0x41#8, 0x41#8], by decide, by decide, by decide, by decide, by decide, rfl⟩

theorem witness_EdgeTransfers_idle :
    ∃ (u : UnitId) (s : State) (p : InPins), p.rst = false ∧
    (p.inValid = false ∨ (outPins u s).inReady = false) ∧ (outPins u s).outByte = none ∧ p.outErr = true :=
  ⟨.enc, State.reset, sinkPins false true true, by decide, by decide, by decide, by decide⟩

theorem witness_EdgeTransfers_held :
    ∃ (u : UnitId) (s : State) (p : InPins), p.rst = false ∧
    (p.inValid = false ∨ (outPins u s).inReady = false) ∧ p.outErr = false ∧ p.outReady = false :=
  ⟨.enc, encWaiting, itemPins 0b00#2 0x41#8, by decide, by decide, by decide, by decide⟩

theorem witness_EdgeTransfers_err :
    ∃ (u : UnitId) (s : State) (p : InPins) (w : ItemWord) (b : Byte) (left : List Byte), p.rst = false ∧
    (s.io u).hand = some w ∧ outstanding u s = some (b :: left) ∧ p.outErr = true :=
  ⟨.enc, encWaiting, sinkPins false true true, 0x100#10, 0x41#8, [], by decide, by decide, by decide, by decide⟩

theorem witness_EdgeTransfers_last :
    ∃ (u : UnitId) (s : State) (p : InPins) (w : ItemWord) (b : Byte) (left : List Byte), p.rst = false ∧
    (s.io u).hand = some w ∧ outstanding u s = some (b :: left) ∧ p.outErr = false ∧ p.outReady = true ∧
    left = [] :=
  ⟨.enc, encWaiting, sinkPins false true false, 0x100#10, 0x41#8, [], by decide, by decide, by decide, by decide, by decide, by decide⟩

theorem witness_EdgeTransfers_byte :
    ∃ (u : UnitId) (s : State) (p : InPins) (w : ItemWord) (b : Byte) (left : List Byte), p.rst = false ∧
    (s.io u).hand = some w ∧ outstanding u s = some (b :: left) ∧ p.outErr = false ∧ p.outReady = true ∧
    left ≠ [] :=
  ⟨.enc, encWaiting.setSink .enc [], sinkPins false true false, 0x100#10, 0x03#8, [0x41#8], by decide, by decide, by decide, by decide, by decide, by decide⟩

theorem witness_EdgeTransfers_rstByte :
    ∃ (u : UnitId) (s : State) (p : InPins) (b : Byte) (last : Bool), p.rst = true ∧
    (outPins u s).outByte = some (b, last) ∧ p.outErr = false ∧ p.outReady = true :=
  ⟨.enc, encWaiting, sinkPins true true false, 0x41#8, true, by decide, by decide, by decide, by decide⟩

theorem witness_EdgeTransfers_rstErr :
    ∃ (u : UnitId) (s : State) (p : InPins), p.rst = true ∧ (outPins u s).outByte ≠ none ∧ p.outErr = true :=
  ⟨.enc, encWaiting, sinkPins true true true, by decide, by decide, by decide⟩

theorem witness_EdgeTransfers_rstHeld :
    ∃ (u : UnitId) (s : State) (p : InPins), p.rst = true ∧ (outPins u s).outByte ≠ none ∧ p.outReady = false :=
  ⟨.enc, encWaiting, sinkPins true false false, by decide, by decide, by decide⟩

theorem witness_EdgeTransfers_rstIdle :
    ∃ (u : UnitId) (s : State) (p : InPins), p.rst = true ∧ (outPins u s).outByte = none ∧
    (outPins u s).inReady = true ∧ p.inValid = true :=
  ⟨.enc, State.reset, { itemPins 0b00#2 0x41#8 with rst := true }, by decide, by decide, by decide, by decide⟩

theorem witness_TerminalUntilReset :
    ∃ (u : UnitId) (s t : State), ((s.io u).phase = .done ∨ (s.io u).phase = .failed) ∧
    s.host.head? ≠ some (.reset u) ∧ step s = .next t :=
  ⟨.dec, { bothDone with host := [.reset .enc], turn := .host }, _, by decide, by decide, rfl⟩

theorem witness_StepKeepsBufferForm :
    ∃ (s t : State), Memory.wf s.enc.buf = true ∧ step s = .next t :=
  ⟨State.reset.withFetchWord 16 0x041, _, by decide, rfl⟩

/-- DEC between frames with nothing read is sound, whatever the sink. -/
theorem decAt_zero_inv (rs : List SinkReply) : (decAt 0 0 rs).dec.Inv := by
  refine ⟨⟨by simp [decAt, UnitIO.reset], by simp [decAt, UnitIO.reset]⟩,
    fun _ => ⟨by simp [decAt], ?_, ?_, [], [], rfl, rfl, rfl, fun _ => rfl, ?_⟩, ?_, ?_, ?_⟩
  · simp [decAt, tagClass]
  · simp [decAt, tagClass]
  · simp [decAt, tagClass]
  · simp [decAt, UnitIO.reset]
  · simp [decAt, UnitIO.reset]
  · simp [decAt, UnitIO.reset]

theorem witness_StepKeepsEncInvariant :
    ∃ (s t : State), s.enc.Inv ∧ step s = .next t :=
  ⟨(encLit [] []).withFetchWord 16 0x041, _, encLit_nil_inv [], rfl⟩

theorem witness_StepKeepsDecInvariant :
    ∃ (s t : State), s.dec.Inv ∧ step s = .next t :=
  ⟨(decAt 0 0 []).withFetchWord 8 0x03, _, decAt_zero_inv [], rfl⟩

theorem witness_EncDoneRoundTrip : ∃ u : EncUnit, u.Inv ∧ u.io.phase = .done ∧ u.io.IN = [0x41#8] := by
  refine ⟨{ EncUnit.reset with io := { UnitIO.reset with phase := .done, IN := [0x41#8], OUT := [0xFF#8, 0x41#8] } },
    ⟨⟨by decide, by decide⟩, by decide, rfl, ?_, fun _ => ⟨[.lit [0x41#8]], rfl, rfl, rfl⟩, ?_⟩, rfl, rfl⟩
  · intro h; cases h
  · intro h; cases h

theorem witness_DecComputesDecode_ok :
    ∃ (s : State) (x : List Byte), s.dec.io.phase = .active ∧ s.dec.io.err = .none ∧ s.dec.tag = 0 ∧
    s.dec.rem = 0 ∧ takesAll s.dec.io (wireDecode x).out.length ∧ (wireDecode x).result = .ok :=
  ⟨decAt 0 0 [.accept, .accept], [0x02#8, 0x41#8], by decide, by decide, by decide, by decide, ⟨by decide, by decide⟩, by decide⟩

theorem witness_DecComputesDecode_truncated :
    ∃ (s : State) (x : List Byte), s.dec.io.phase = .active ∧ s.dec.io.err = .none ∧ s.dec.tag = 0 ∧
    s.dec.rem = 0 ∧ takesAll s.dec.io (wireDecode x).out.length ∧ (wireDecode x).result = .truncated :=
  ⟨decAt 0 0 [.accept], [0xFE#8, 0x41#8], by decide, by decide, by decide, by decide, ⟨by decide, by decide⟩, by decide⟩

/-- Both units fresh, each with a sink that takes four bytes. -/
def fresh4 : State :=
  { encLit [] (List.replicate 4 .accept) with dec := (decAt 0 0 (List.replicate 4 .accept)).dec }

theorem witness_CodecRoundTrip :
    ∃ (s : State) (x : List Byte), s.enc.io.phase = .active ∧ s.enc.mode = .lit ∧ s.enc.cnt = 0 ∧
    s.enc.io.OUT = [] ∧ s.enc.io.IN = [] ∧ takesAll s.enc.io (2 * x.length) ∧ s.dec.io.phase = .active ∧
    s.dec.tag = 0 ∧ s.dec.rem = 0 ∧ s.dec.io.OUT = [] ∧ takesAll s.dec.io x.length :=
  ⟨fresh4, [0x41#8, 0x42#8], by decide, by decide, by decide, by decide, by decide, ⟨by decide, by decide⟩, by decide, by decide, by decide, by decide, ⟨by decide, by decide⟩⟩

theorem witness_EncOfCopiesIsRep :
    ∃ (s : State) (n : Nat), 1 ≤ n ∧ s.enc.io.phase = .active ∧ s.enc.mode = .lit ∧ s.enc.cnt = 0 ∧
    s.enc.io.OUT = [] ∧ takesAll s.enc.io (2 * n) :=
  ⟨fresh4, 2, by decide, by decide, by decide, by decide, by decide, ⟨by decide, by decide⟩⟩

end Sys2Proof.Tests
end

section
/-! PROOFS. What exec can do, said once for each unit, and the induction principle for properties that every step keeps. -/

namespace Sys2Proof.Machine

open Sys2Proof.Claims

/-- The operation x answers v, whether the step goes on or has ended. -/
abbrev Flow.Answers {α : Type} (x : Flow α) (v : α) : Prop := x = .go v ∨ x = .ended v

/-- ENC's operation i takes the unit from u to v (40_encoder.md R83 to R88). -/
inductive EncOpStep (u v : EncUnit) : Instr → Prop where
  | byteLit (b : Byte) (h : (encByteLit b u).Answers v) : EncOpStep u v (.encByteLit b)
  | byteRun (b : Byte) (h : (encByteRun b u).Answers v) : EncOpStep u v (.encByteRun b)
  | eosLit (d : Byte) (h : (encEosLit u).Answers v) : EncOpStep u v (.encEosLit d)
  | eosRun (d : Byte) (h : (encEosRun u).Answers v) : EncOpStep u v (.encEosRun d)
  | rderr (d : Byte) (h : (encRderr u).Answers v) : EncOpStep u v (.encRderr d)
  | rsvd (d : Byte) (h : (encRderr u).Answers v) : EncOpStep u v (.encRsvd d)

/-- Some item operation of DEC takes the unit from u to v (41_decoder.md R103 to R110). -/
inductive DecItemStep (u v : DecUnit) : Prop where
  | tagSentinel (h : (decTagSentinel u).Answers v)
  | tagRun (t : Byte) (h : (decTagRun t u).Answers v)
  | tagLit (t : Byte) (h : (decTagLit t u).Answers v)
  | runval (b : Byte) (h : (decRunval b u).Answers v)
  | litbyte (b : Byte) (h : (decLitbyte b u).Answers v)
  | eosIdle (h : (decEosIdle u).Answers v)
  | eosMid (h : (decEosMid u).Answers v)
  | rderr (h : (decRderr u).Answers v)

/-- DEC's item operations, one after the other, take the unit from u to v. -/
abbrev DecSteps : DecUnit → DecUnit → Prop := Relation.ReflTransGen DecItemStep

/-- A sequence answers what its first part answers at an end, or what its second part answers after it. -/
theorem bind_answers {α : Type} {x : Flow α} {k : α → Flow α} {a : α} (h : (x.bind k).Answers a) :
    x.Answers a ∨ ∃ b, x.Answers b ∧ (k b).Answers a := by
  rcases h with h | h
  · obtain ⟨b, hb, ha⟩ := bind_go h
    exact .inr ⟨b, .inl hb, .inl ha⟩
  · rcases bind_ended h with hx | ⟨b, hb, ha⟩
    · exact .inl (.inr hx)
    · exact .inr ⟨b, .inl hb, .inr ha⟩

theorem decPayload_steps {bs : List Byte} {u v : DecUnit} (h : (decPayload bs u).Answers v) : DecSteps u v := by
  induction bs generalizing u with
  | nil =>
    rcases h with h | h <;> cases h
    exact .refl
  | cons b bs ih =>
    rcases bind_answers h with hb | ⟨w, hb, hw⟩
    · exact .single (.litbyte b hb)
    · exact .head (.litbyte b hb) (ih hw)

theorem decRunFrame_steps {t b : Byte} {u v : DecUnit} (h : (decRunFrame t b u).Answers v) : DecSteps u v := by
  rcases bind_answers h with ht | ⟨w, ht, hw⟩
  · exact .single (.tagRun t ht)
  · exact .head (.tagRun t ht) (.single (.runval b hw))

theorem decLitFrame_steps {p : List Byte} {u v : DecUnit} (h : (decLitFrame p u).Answers v) : DecSteps u v := by
  rw [decLitFrame] at h
  split at h
  · rcases bind_answers h with ht | ⟨w, ht, hw⟩
    · exact .single (.tagLit _ ht)
    · exact .head (.tagLit _ ht) (decPayload_steps hw)
  · rcases h with h | h <;> cases h

/-- Everything an ENC operation can do to the machine. -/
theorem exec_enc_next {s t : State} {i : Instr} (hi : isEncOp i = true) (h : exec i s = .next t) :
    ∃ v, EncOpStep s.enc v i ∧ t = { s with enc := v } := by
  have lift {x : Flow EncUnit} (hx : liftEnc s x = .next t) (hstep : ∀ v, x.Answers v → EncOpStep s.enc v i) :
      ∃ v, EncOpStep s.enc v i ∧ t = { s with enc := v } := by
    obtain ⟨v, hv, rfl⟩ := liftEnc_next hx
    exact ⟨v, hstep v hv, rfl⟩
  cases i with
  | encByteLit b => exact lift h fun _ => .byteLit b
  | encByteRun b => exact lift h fun _ => .byteRun b
  | encEosLit d => exact lift h fun _ => .eosLit d
  | encEosRun d => exact lift h fun _ => .eosRun d
  | encRderr d => exact lift h fun _ => .rderr d
  | encRsvd d => exact lift h fun _ => .rsvd d
  | _ => cases hi

/-- Everything a DEC operation or a frame can do to the machine: item operations of DEC, one after the other. -/
theorem exec_dec_next {s t : State} {i : Instr} (hi : isEncOp i = false) (h : exec i s = .next t) :
    ∃ v, DecSteps s.dec v ∧ t = { s with dec := v } := by
  have lift {x : Flow DecUnit} (hx : liftDec s x = .next t) (hstep : ∀ v, x.Answers v → DecSteps s.dec v) :
      ∃ v, DecSteps s.dec v ∧ t = { s with dec := v } := by
    obtain ⟨v, hv, rfl⟩ := liftDec_next hx
    exact ⟨v, hstep v hv, rfl⟩
  cases i with
  | endFrame => exact lift h fun _ hv => .single (.tagSentinel hv)
  | run t b => exact lift h fun _ => decRunFrame_steps
  | lit p => exact lift h fun _ => decLitFrame_steps
  | decTagSentinel => exact lift h fun _ hv => .single (.tagSentinel hv)
  | decTagRun t => exact lift h fun _ hv => .single (.tagRun t hv)
  | decTagLit t => exact lift h fun _ hv => .single (.tagLit t hv)
  | decRunval b => exact lift h fun _ hv => .single (.runval b hv)
  | decLitbyte b => exact lift h fun _ hv => .single (.litbyte b hv)
  | decEosIdle d => exact lift h fun _ hv => .single (.eosIdle hv)
  | decEosMid d => exact lift h fun _ hv => .single (.eosMid hv)
  | decRderr d => exact lift h fun _ hv => .single (.rderr hv)
  | decRsvd d => exact lift h fun _ hv => .single (.rderr hv)
  | _ => cases hi

/-- In ENC every item is an ENC operation (30_encoding.md R75). -/
theorem isEncOp_decode_enc (m : EncMode) (w : ItemWord) : isEncOp (decode (.enc m) w) = true := by
  simp only [decode, decodeEnc]
  cases itemKind w <;> cases m <;> rfl

/-- In DEC no item is an ENC operation (30_encoding.md R75). -/
theorem isEncOp_decode_dec (t : Byte) (w : ItemWord) : isEncOp (decode (.dec t) w) = false := by
  simp only [decode, decodeDec, decodeDecByte]
  cases itemKind w
  case byte => cases tagClass t <;> cases tagClass (itemData w) <;> rfl
  case eos => by_cases h : t = 0x00#8 <;> simp [h, isEncOp]
  case rderr => rfl
  case reserved => rfl

/-- A property of the machine that no part of a step breaks: not the bookkeeping of the channels, the hand, the host and
the schedule, not the step of an item in either unit, and not a unit's reset. -/
structure KeptByParts (Q : State → Prop) : Prop where
  inQ : ∀ s u q, Q s → Q (s.setInQ u q)
  hand : ∀ s u h, Q s → Q (s.setHand u h)
  sink : ∀ s u rs, Q s → Q (s.setSink u rs)
  sched : ∀ s host turn tick, Q s → Q { s with host := host, turn := turn, tick := tick }
  item : ∀ s u w r, Q s → exec (decode (s.fsm u) w) s = .next r → Q r
  reset : ∀ s u, Q s → Q (resetUnit u s)

theorem KeptByParts.after_unitMove {Q : State → Prop} (hQ : KeptByParts Q) {s t : State} {u : UnitId} (hs : Q s)
    (h : unitMove u s = .next t) : Q t := by
  rcases unitMove_next h with ⟨w, r, -, hr, rfl⟩ | ⟨w, q, r, -, -, hr, rfl⟩ | ⟨w, q, left, -, -, -, rfl⟩
  · exact hQ.hand _ _ _ (hQ.item s u w r hs hr)
  · exact hQ.inQ _ _ _ (hQ.item s u w r hs hr)
  · exact hQ.inQ _ _ _ (hQ.hand _ _ _ hs)

theorem KeptByParts.after_settle {Q : State → Prop} (hQ : KeptByParts Q) {s : State} (u : UnitId) (hs : Q s) :
    Q (settle u s) := by
  rcases settle_cases u s with e | ⟨w, r, -, hr, e⟩ <;> rw [e]
  · exact hs
  · exact hQ.hand _ _ _ (hQ.item s u w r hs hr)

theorem KeptByParts.after_doAct {Q : State → Prop} (hQ : KeptByParts Q) {s : State} (a : HostAct) (hs : Q s) :
    Q (doAct a s) := by
  cases a with
  | offer u w => exact hQ.inQ _ _ _ hs
  | reply u r => exact hQ.after_settle u (hQ.sink _ _ _ hs)
  | reset u => exact hQ.reset s u hs
  | discard u =>
    simp only [doAct, discardItems]
    split
    · exact hQ.inQ _ _ _ hs
    · exact hs

/-- A property that no part of a step breaks is kept by every step, whoever moves. -/
theorem KeptByParts.after_step {Q : State → Prop} (hQ : KeptByParts Q) {s t : State} (hs : Q s) (h : step s = .next t) :
    Q t := by
  rcases step_cases h with ⟨u, r, hr, rfl⟩ | ⟨a, rest, -, rfl⟩
  · exact hQ.sched r r.host _ _ (hQ.after_unitMove hs hr)
  · have hacted := hQ.after_doAct a (hQ.sched s rest s.turn s.tick hs)
    exact hQ.sched _ (doAct a { s with host := rest }).host _ _ hacted

end Sys2Proof.Machine
end

section
/-! PROOFS. What an operation leaves unchanged in its unit's flags, ghosts and channels. -/

namespace Sys2Proof.Machine

open Sys2Proof.Claims

/-- From c to d a unit has consumed the bytes bs and nothing is lost: the input channel, the hand and the earlier output
are as they were, OUT only grows, sink replies are only used up, and a unit still ACTIVE has raised and drawn nothing. -/
structure UnitIO.Extends (bs : List Byte) (c d : UnitIO) : Prop where
  inQ : d.inQ = c.inQ
  hand : d.hand = c.hand
  earlier : d.earlier = c.earlier
  IN : d.IN = c.IN ++ bs
  OUT : c.OUT <+: d.OUT
  sink : d.sink <:+ c.sink
  active : d.phase = .active → c.phase = .active ∧ d.err = c.err ∧ d.draws = c.draws

namespace UnitIO.Extends

theorem refl (c : UnitIO) : Extends [] c c :=
  ⟨rfl, rfl, rfl, (List.append_nil _).symm, List.prefix_rfl, List.suffix_rfl, fun h => ⟨h, rfl, rfl⟩⟩

theorem trans {bs bs' : List Byte} {c d e : UnitIO} (h : Extends bs c d) (h' : Extends bs' d e) :
    Extends (bs ++ bs') c e where
  inQ := h'.inQ.trans h.inQ
  hand := h'.hand.trans h.hand
  earlier := h'.earlier.trans h.earlier
  IN := by rw [h'.IN, h.IN, List.append_assoc]
  OUT := h.OUT.trans h'.OUT
  sink := h'.sink.trans h.sink
  active he := by
    obtain ⟨hd, herr', hdraws'⟩ := h'.active he
    obtain ⟨hc, herr, hdraws⟩ := h.active hd
    exact ⟨hc, herr'.trans herr, hdraws'.trans hdraws⟩

theorem recvByte (b : Byte) (c : UnitIO) : Extends [b] c (recvByte b c) :=
  ⟨rfl, rfl, rfl, rfl, List.prefix_rfl, List.suffix_rfl, fun h => ⟨h, rfl, rfl⟩⟩

theorem wrote {c : UnitIO} {used rest : List SinkReply} (tx : List Byte) (hs : c.sink = used ++ rest) :
    Extends [] c (c.wrote tx rest) :=
  ⟨rfl, rfl, rfl, (List.append_nil _).symm, List.prefix_append _ _, ⟨used, hs.symm⟩, fun h => ⟨h, rfl, rfl⟩⟩

/-- The end of an invocation touches phase, err and the draw counter alone. -/
theorem ended {c d : UnitIO} (hd : d = { c with phase := d.phase, err := d.err, draws := d.draws })
    (hp : d.phase ≠ .active) : Extends [] c d := by
  rw [hd]
  exact ⟨rfl, rfl, rfl, (List.append_nil _).symm, List.prefix_rfl, List.suffix_rfl, fun h => absurd h hp⟩

theorem wrote_ended {c d : UnitIO} {used rest : List SinkReply} (tx : List Byte) (hs : c.sink = used ++ rest)
    (hd : d = { c.wrote tx rest with phase := d.phase, err := d.err, draws := d.draws }) (hp : d.phase ≠ .active) :
    Extends [] c d :=
  (wrote tx hs).trans (ended hd hp)

end UnitIO.Extends

section
variable (u : EncUnit)

theorem encFinished_extends : UnitIO.Extends [] u.io u.finished.io := .ended rfl (by simp [EncUnit.finished])

theorem encRaised_extends (e : ErrKind) :
    UnitIO.Extends [] u.io (EncUnit.unspecified { u with io := raise e u.io }).io := .ended rfl (by simp)

theorem encOutputError_extends (tx : List Byte) {k : Nat} {rest : List SinkReply}
    (hs : u.io.sink = List.replicate k .accept ++ .fail :: rest) :
    UnitIO.Extends [] u.io (u.outputError tx k rest).io :=
  .wrote_ended (used := List.replicate k .accept ++ [.fail]) (tx.take k) (by simpa using hs) rfl
    (by simp [EncUnit.outputError])

end

section
variable (u : DecUnit)

theorem decFinished_extends : UnitIO.Extends [] u.io u.finished.io := .ended rfl (by simp [DecUnit.finished])

theorem decRaised_extends (e : ErrKind) :
    UnitIO.Extends [] u.io (DecUnit.unspecified { u with io := raise e u.io }).io := .ended rfl (by simp)

theorem decOutputError_extends (tx : List Byte) {k : Nat} {rest : List SinkReply}
    (hs : u.io.sink = List.replicate k .accept ++ .fail :: rest) :
    UnitIO.Extends [] u.io (u.outputError tx k rest).io :=
  .wrote_ended (used := List.replicate k .accept ++ [.fail]) (tx.take k) (by simpa using hs) rfl
    (by simp [DecUnit.outputError])

end

theorem encByteLit_extends {b : Byte} {u v : EncUnit} (h : (encByteLit b u).Answers v) :
    UnitIO.Extends [b] u.io v.io := by
  have hrecv : UnitIO.Extends [b] u.io (u.appended b).io := .recvByte b u.io
  obtain ⟨-, -, -, ⟨-, -, rfl⟩ | ⟨-, -, rfl⟩ | ⟨p, -, -, -, hw⟩ | ⟨p, -, -, -, hw⟩⟩ := encByteLit_cases h
  · exact hrecv
  · exact hrecv
  · rcases hw with ⟨rest, hs, rfl⟩ | ⟨k, rest, -, rfl, hs⟩
    · exact hrecv.trans (.wrote _ hs)
    · exact hrecv.trans (encOutputError_extends _ _ hs)
  · rcases hw with ⟨rest, hs, rfl⟩ | ⟨k, rest, -, rfl, hs⟩
    · exact hrecv.trans (.wrote _ hs)
    · exact hrecv.trans (encOutputError_extends _ _ hs)

theorem encByteRun_extends {b : Byte} {u v : EncUnit} (h : (encByteRun b u).Answers v) :
    UnitIO.Extends [b] u.io v.io := by
  have hrecv : UnitIO.Extends [b] u.io (u.extended b).io := .recvByte b u.io
  obtain ⟨-, -, -, -, ⟨-, -, rfl⟩ | ⟨-, -, hw⟩ | ⟨-, hw⟩⟩ := encByteRun_cases h
  · exact hrecv
  · rcases hw with ⟨rest, hs, rfl⟩ | ⟨k, rest, -, rfl, hs⟩
    · exact hrecv.trans (.wrote _ hs)
    · exact hrecv.trans (encOutputError_extends _ _ hs)
  · rcases hw with ⟨rest, hs, rfl⟩ | ⟨k, rest, -, rfl, hs⟩
    · exact hrecv.trans (.wrote _ hs)
    · exact hrecv.trans (encOutputError_extends (encRecv b u) _ hs)

theorem encEosLit_extends {u v : EncUnit} (h : (encEosLit u).Answers v) : UnitIO.Extends [] u.io v.io := by
  obtain ⟨-, -, -, ⟨-, rfl⟩ | ⟨p, -, -, ⟨rest, hs, rfl⟩ | ⟨k, rest, -, rfl, hs⟩⟩⟩ := encEosLit_cases h
  · exact encFinished_extends u
  · exact (UnitIO.Extends.wrote _ hs).trans (encFinished_extends (u.sent _ rest))
  · exact encOutputError_extends u _ hs

theorem encEosRun_extends {u v : EncUnit} (h : (encEosRun u).Answers v) : UnitIO.Extends [] u.io v.io := by
  obtain ⟨-, -, -, -, ⟨rest, hs, rfl⟩ | ⟨k, rest, -, rfl, hs⟩⟩ := encEosRun_cases h
  · exact (UnitIO.Extends.wrote _ hs).trans (encFinished_extends (u.sent _ rest))
  · exact encOutputError_extends u _ hs

theorem encRderr_extends {u v : EncUnit} (h : (encRderr u).Answers v) : UnitIO.Extends [] u.io v.io := by
  obtain ⟨-, rfl⟩ := encRderr_cases h
  exact encRaised_extends u .inputError

theorem EncOpStep.io_extends {u v : EncUnit} {i : Instr} (h : EncOpStep u v i) :
    UnitIO.Extends (itemBytes i) u.io v.io := by
  cases h with
  | byteLit b h => exact encByteLit_extends h
  | byteRun b h => exact encByteRun_extends h
  | eosLit d h => exact encEosLit_extends h
  | eosRun d h => exact encEosRun_extends h
  | rderr d h => exact encRderr_extends h
  | rsvd d h => exact encRderr_extends h

theorem decRunval_extends {b : Byte} {u v : DecUnit} (h : (decRunval b u).Answers v) :
    UnitIO.Extends [b] u.io v.io := by
  have hrecv : UnitIO.Extends [b] u.io (decRecv b u).io := .recvByte b u.io
  obtain ⟨-, -, -, ⟨rest, hs, -, rfl⟩ | ⟨k, rest, -, -, rfl, hs⟩⟩ := decRunval_cases h
  · exact hrecv.trans (.wrote _ hs)
  · exact hrecv.trans (decOutputError_extends (decRecv b u) _ hs)

theorem decLitbyte_extends {b : Byte} {u v : DecUnit} (h : (decLitbyte b u).Answers v) :
    UnitIO.Extends [b] u.io v.io := by
  have hrecv : UnitIO.Extends [b] u.io (decRecv b u).io := .recvByte b u.io
  obtain ⟨-, -, -, -, ⟨rest, hs, -, rfl⟩ | ⟨rest, -, rfl, hs⟩⟩ := decLitbyte_cases h
  · exact hrecv.trans (.wrote (used := [.accept]) _ hs)
  · exact hrecv.trans (decOutputError_extends (decRecv b u) (k := 0) _ hs)

theorem DecItemStep.io_extends {u v : DecUnit} (h : DecItemStep u v) : ∃ bs, UnitIO.Extends bs u.io v.io := by
  cases h with
  | tagSentinel h =>
    obtain ⟨-, -, -, rfl⟩ := decTagSentinel_cases h
    exact ⟨_, (UnitIO.Extends.recvByte 0x00#8 u.io).trans (decFinished_extends (decRecv 0x00#8 u))⟩
  | tagRun t h =>
    obtain ⟨-, -, -, -, rfl⟩ := decTagRun_cases h
    exact ⟨[t], .recvByte t u.io⟩
  | tagLit t h =>
    obtain ⟨-, -, -, -, rfl⟩ := decTagLit_cases h
    exact ⟨[t], .recvByte t u.io⟩
  | runval b h => exact ⟨[b], decRunval_extends h⟩
  | litbyte b h => exact ⟨[b], decLitbyte_extends h⟩
  | eosIdle h =>
    obtain ⟨-, -, rfl⟩ := decEosIdle_cases h
    exact ⟨[], decFinished_extends u⟩
  | eosMid h =>
    obtain ⟨-, -, rfl⟩ := decEosMid_cases h
    exact ⟨[], decRaised_extends u .truncatedStream⟩
  | rderr h =>
    obtain ⟨-, rfl⟩ := decRderr_cases h
    exact ⟨[], decRaised_extends u .inputError⟩

theorem DecSteps.io_extends {u v : DecUnit} (h : DecSteps u v) : ∃ bs, UnitIO.Extends bs u.io v.io := by
  induction h with
  | refl => exact ⟨[], .refl u.io⟩
  | tail _ hstep ih =>
    obtain ⟨bs, hbs⟩ := ih
    obtain ⟨bs', hbs'⟩ := hstep.io_extends
    exact ⟨bs ++ bs', hbs.trans hbs'⟩

end Sys2Proof.Machine

namespace Sys2Proof.Proofs

open Sys2Proof.Machine Sys2Proof.Claims

/-- Settles O23, by the inversion of each ENC operation: what every part of one does to the unit's channels composes. -/
theorem encOperationsFrame : Obligations.EncOperationsFrame := by
  intro s t i hi h
  obtain ⟨v, hv, rfl⟩ := exec_enc_next hi h
  have ext := hv.io_extends
  exact ⟨rfl, rfl, rfl, rfl, ext.inQ, ext.hand, ext.earlier, ext.IN, ext.OUT, ext.sink, fun ha => (ext.active ha).2⟩

/-- Settles O41, by induction on the item operations that an operation or a frame of DEC is made of. -/
theorem decOperationsFrame : Obligations.DecOperationsFrame := by
  intro s t i hi h
  obtain ⟨v, hv, rfl⟩ := exec_dec_next hi h
  obtain ⟨bs, ext⟩ := hv.io_extends
  exact ⟨rfl, rfl, rfl, rfl, ext.inQ, ext.hand, ext.earlier, ⟨bs, ext.IN.symm⟩, ext.OUT, ext.sink,
    fun ha => (ext.active ha).2⟩

end Sys2Proof.Proofs
end

section
/-! PROOFS. decode of a frame stream with more bytes behind it, and the invariant of DEC (10_state.md R32). -/

namespace Sys2Proof.Machine

open Sys2Proof.Claims

theorem after_after (d : WireDecoded) (o o' : List Byte) (n n' : Nat) :
    (d.after o' n').after o n = d.after (o ++ o') (n + n') := by
  simp [WireDecoded.after, Nat.add_assoc]

theorem framesBytes_append (fs gs : List Instr) : framesBytes (fs ++ gs) = framesBytes fs ++ framesBytes gs :=
  List.flatMap_append

theorem framesOut_append (fs gs : List Instr) : framesOut (fs ++ gs) = framesOut fs ++ framesOut gs :=
  List.flatMap_append

@[simp] theorem framesBytes_singleton_run (t v : Byte) : framesBytes [.run t v] = [t, v] := rfl
@[simp] theorem framesBytes_singleton_lit (p : List Byte) : framesBytes [.lit p] = litTag p.length :: p := by
  simp [framesBytes, frameBytes]
@[simp] theorem framesOut_singleton_run (t v : Byte) : framesOut [.run t v] = List.replicate t.toNat v := by
  simp [framesOut, frameOut]
@[simp] theorem framesOut_singleton_lit (p : List Byte) : framesOut [.lit p] = p := by
  simp [framesOut, frameOut]

theorem isDataFrame_run_iff (t v : Byte) : isDataFrame (.run t v) = true ↔ tagClass t = .run := by
  simp [isDataFrame, Instr.wf, tagClass_run_iff]

theorem isDataFrame_lit_iff (p : List Byte) : isDataFrame (.lit p) = true ↔ 1 ≤ p.length ∧ p.length ≤ 128 := by
  simp [isDataFrame, Instr.wf]

/-- A frame of the stream grammar is a run frame or a literal frame (30_encoding.md R57). -/
theorem isDataFrame_cases {f : Instr} (h : isDataFrame f = true) : (∃ t v, f = .run t v) ∨ ∃ p, f = .lit p := by
  cases f with
  | run t v => exact .inl ⟨t, v, rfl⟩
  | lit p => exact .inr ⟨p, rfl⟩
  | _ => cases h

theorem tagCount_of_run {t : Byte} (h : tagClass t = .run) : tagCount t = t.toNat := by
  have := (tagClass_run_iff t).mp h
  rw [tagCount_eq, if_neg (by omega)]

theorem tagCount_of_literal {t : Byte} (h : tagClass t = .literal) : tagCount t = 0x100 - t.toNat := by
  rw [tagCount_eq, if_pos ((tagClass_literal_iff t).mp h)]

theorem litTag_toNat {n : Nat} (h1 : 1 ≤ n) (h128 : n ≤ 128) : (litTag n).toNat = 0x100 - n := by
  simp only [litTag, BitVec.toNat_ofNat]
  omega

theorem litTag_literal {n : Nat} (h1 : 1 ≤ n) (h128 : n ≤ 128) : tagClass (litTag n) = .literal := by
  rw [tagClass_literal_iff, litTag_toNat h1 h128]
  omega

theorem tagCount_litTag {n : Nat} (h1 : 1 ≤ n) (h128 : n ≤ 128) : tagCount (litTag n) = n := by
  rw [tagCount_of_literal (litTag_literal h1 h128), litTag_toNat h1 h128]
  omega

theorem litTag_of_literal {t : Byte} (h : tagClass t = .literal) : litTag (0x100 - t.toNat) = t := by
  have := (tagClass_literal_iff t).mp h
  refine BitVec.eq_of_toNat_eq ?_
  rw [litTag_toNat (by omega) (by omega)]
  omega

/-- decode reads a whole frame and goes on behind it (30_encoding.md R59, R60, R64). -/
theorem wireDecode_frame {f : Instr} (h : isDataFrame f = true) (rest : List Byte) :
    wireDecode (framesBytes [f] ++ rest) = (wireDecode rest).after (framesOut [f]) (framesBytes [f]).length := by
  rcases isDataFrame_cases h with ⟨t, v, rfl⟩ | ⟨p, rfl⟩
  · have ht := (isDataFrame_run_iff t v).mp h
    simp [wireDecode_run ht, tagCount_of_run ht]
  · obtain ⟨h1, h128⟩ := (isDataFrame_lit_iff p).mp h
    simp [wireDecode_literal (litTag_literal h1 h128) (tagCount_litTag h1 h128).symm, tagCount_litTag h1 h128]

/-- decode reads a stream of whole frames and goes on behind it. -/
theorem wireDecode_frames {fs : List Instr} (h : fs.all isDataFrame = true) (rest : List Byte) :
    wireDecode (framesBytes fs ++ rest) = (wireDecode rest).after (framesOut fs) (framesBytes fs).length := by
  induction fs with
  | nil => simp [framesBytes, framesOut, WireDecoded.after]
  | cons f fs ih =>
    obtain ⟨hf, hfs⟩ : isDataFrame f = true ∧ fs.all isDataFrame = true := by simpa using h
    rw [← List.singleton_append, framesBytes_append, framesOut_append, List.append_assoc, wireDecode_frame hf, ih hfs,
      after_after, List.length_append]

/-- DEC between frames: IN is whole frames, and OUT what they decode to. -/
def DecUnit.Between (u : DecUnit) : Prop :=
  u.tag = 0 ∧ u.rem = 0 ∧
    ∃ fs : List Instr, fs.all isDataFrame = true ∧ u.io.IN = framesBytes fs ∧ u.io.OUT = framesOut fs

/-- DEC in a run frame: IN is whole frames and the run's tag. -/
def DecUnit.InRun (u : DecUnit) : Prop :=
  tagClass u.tag = .run ∧ u.rem = u.tag ∧
    ∃ fs : List Instr, fs.all isDataFrame = true ∧ u.io.IN = framesBytes fs ++ [u.tag] ∧ u.io.OUT = framesOut fs

/-- DEC in a literal frame: IN is whole frames, the literal's tag and the bytes copied so far, rem of them missing. -/
def DecUnit.InLit (u : DecUnit) : Prop :=
  tagClass u.tag = .literal ∧ 1 ≤ u.rem.toNat ∧
    ∃ (fs : List Instr) (copied : List Byte), fs.all isDataFrame = true ∧
      copied.length + u.rem.toNat = tagCount u.tag ∧
      u.io.IN = framesBytes fs ++ u.tag :: copied ∧ u.io.OUT = framesOut fs ++ copied

theorem tag_ne_zero_of_run {t : Byte} (h : tagClass t = .run) : t ≠ 0x00#8 := by
  rintro rfl
  exact absurd h (by decide)

theorem tag_ne_zero_of_literal {t : Byte} (h : tagClass t = .literal) : t ≠ 0x00#8 := by
  rintro rfl
  exact absurd h (by decide)

/-- The invariant of an ACTIVE DEC by where the unit stands in a frame. -/
theorem decActiveInv_iff (u : DecUnit) : u.ActiveInv ↔ u.Between ∨ u.InRun ∨ u.InLit := by
  constructor
  · rintro ⟨hzero, hrun, hlit, fs, copied, hfs, hIN, hOUT, hnocopy, hcopy⟩
    cases hc : tagClass u.tag with
    | sentinel =>
      have ht : u.tag = 0 := (tagClass_sentinel_iff _).mp hc
      have hcop : copied = [] := hnocopy (by simp [hc])
      exact .inl ⟨ht, hzero.mp ht, fs, hfs, by simpa [ht] using hIN, by simpa [hcop] using hOUT⟩
    | run =>
      have hcop : copied = [] := hnocopy (by simp [hc])
      have ht := tag_ne_zero_of_run hc
      exact .inr (.inl ⟨hc, hrun hc, fs, hfs, by simpa [ht, hcop] using hIN, by simpa [hcop] using hOUT⟩)
    | literal =>
      obtain ⟨h1, hle⟩ := hlit hc
      have hlen := hcopy hc
      have ht := tag_ne_zero_of_literal hc
      have hcount : copied.length + u.rem.toNat = tagCount u.tag := by
        rw [tagCount_of_literal hc]
        omega
      exact .inr (.inr ⟨hc, h1, fs, copied, hfs, hcount, by simpa [ht] using hIN, hOUT⟩)
  · rintro (⟨ht, hr, fs, hfs, hIN, hOUT⟩ | ⟨hc, hr, fs, hfs, hIN, hOUT⟩ | ⟨hc, h1, fs, copied, hfs, hlen, hIN, hOUT⟩)
    · have hc : tagClass u.tag = .sentinel := (tagClass_sentinel_iff _).mpr ht
      exact ⟨by simp [ht, hr], by simp [hc], by simp [hc], fs, [], hfs, by simp [hIN, ht], by simp [hOUT], by simp,
        by simp [hc]⟩
    · have ht := tag_ne_zero_of_run hc
      exact ⟨by simp [hr], fun _ => hr, by simp [hc], fs, [], hfs, by simp [hIN, ht], by simp [hOUT], by simp,
        by simp [hc]⟩
    · have ht := tag_ne_zero_of_literal hc
      have hrem : u.rem ≠ 0x00#8 := by
        intro h0
        simp [h0] at h1
      rw [tagCount_of_literal hc] at hlen
      exact ⟨by simp [ht, hrem], by simp [hc], fun _ => ⟨h1, by omega⟩, fs, copied, hfs, by simp [hIN, ht], hOUT,
        fun h => absurd hc h, fun _ => by omega⟩

section
variable {u : DecUnit}

/-- Between frames decode has read all of IN. -/
theorem DecUnit.Between.wireDecode_ok (h : u.Between) :
    wireDecode u.io.IN = { out := u.io.OUT, result := .ok, used := u.io.IN.length } := by
  obtain ⟨-, -, fs, hfs, hIN, hOUT⟩ := h
  have hd := wireDecode_frames hfs []
  rw [List.append_nil] at hd
  rw [hIN, hOUT, hd]
  simp [wireDecode_nil, WireDecoded.after]

/-- Behind the sentinel decode stops (30_encoding.md R63). -/
theorem DecUnit.Between.wireDecode_sentinel_ok (h : u.Between) :
    wireDecode (u.io.IN ++ [0x00#8]) =
      { out := u.io.OUT, result := .ok, used := (u.io.IN ++ [0x00#8]).length } := by
  obtain ⟨-, -, fs, hfs, hIN, hOUT⟩ := h
  rw [hIN, hOUT, wireDecode_frames hfs, wireDecode_sentinel ((tagClass_sentinel_iff _).mpr rfl)]
  simp [WireDecoded.after]

/-- In the middle of a frame decode finds IN truncated (30_encoding.md R64). -/
theorem wireDecode_mid_frame (h : u.InRun ∨ u.InLit) :
    wireDecode u.io.IN = { out := u.io.OUT, result := .truncated, used := u.io.IN.length } := by
  rcases h with ⟨hc, -, fs, hfs, hIN, hOUT⟩ | ⟨hc, h1, fs, copied, hfs, hlen, hIN, hOUT⟩
  · rw [hIN, hOUT, wireDecode_frames hfs, wireDecode_run_short hc]
    simp [WireDecoded.after]
  · rw [hIN, hOUT, wireDecode_frames hfs, wireDecode_literal_short hc (by omega)]
    simp [WireDecoded.after]

/-- While DEC is ACTIVE, OUT is all that decode makes of IN. -/
theorem DecUnit.ActiveInv.wireDecode_out (h : u.ActiveInv) : (wireDecode u.io.IN).out = u.io.OUT := by
  rcases (decActiveInv_iff u).mp h with hb | hmid
  · rw [hb.wireDecode_ok]
  · rw [wireDecode_mid_frame hmid]

theorem DecUnit.Between.activeInv (h : u.Between) : u.ActiveInv := (decActiveInv_iff u).mpr (.inl h)

/-- An ACTIVE invariant selects the frame position that the tag register names. -/
theorem DecUnit.ActiveInv.between (h : u.ActiveInv) (ht : u.tag = 0) : u.Between := by
  rcases (decActiveInv_iff u).mp h with hb | ⟨hc, -⟩ | ⟨hc, -⟩
  · exact hb
  · exact absurd ht (tag_ne_zero_of_run hc)
  · exact absurd ht (tag_ne_zero_of_literal hc)

theorem DecUnit.ActiveInv.midFrame (h : u.ActiveInv) (ht : u.tag ≠ 0) : u.InRun ∨ u.InLit := by
  rcases (decActiveInv_iff u).mp h with ⟨h0, -⟩ | hmid
  · exact absurd h0 ht
  · exact hmid

theorem DecUnit.ActiveInv.inRun (h : u.ActiveInv) (hc : tagClass u.tag = .run) : u.InRun := by
  rcases h.midFrame (tag_ne_zero_of_run hc) with hr | ⟨hl, -⟩
  · exact hr
  · simp [hc] at hl

theorem DecUnit.ActiveInv.inLit (h : u.ActiveInv) (hc : tagClass u.tag = .literal) : u.InLit := by
  rcases h.midFrame (tag_ne_zero_of_literal hc) with ⟨hr, -⟩ | hl
  · simp [hc] at hr
  · exact hl

/-! The invariant in each of the phases a step can leave DEC in. -/

theorem decInv_of_active (hp : u.io.phase = .active) (he : u.io.err = .none) (ha : u.ActiveInv) : u.Inv :=
  ⟨by simp [UnitIO.flagsOk, hp, he], fun _ => ha, by simp [hp], by simp [hp], by simp [he]⟩

theorem decFinished_inv
    (hd : wireDecode u.io.IN = { out := u.io.OUT, result := .ok, used := u.io.IN.length }) : u.finished.Inv := by
  simp [DecUnit.finished, DecUnit.Inv, UnitIO.flagsOk, hd]

/-- A failure other than TruncatedStream leaves the beginning of what decode makes of IN (60_exceptions.md R127). -/
theorem decRaised_inv {e : ErrKind} (hnone : e ≠ .none) (htrunc : e ≠ .truncatedStream)
    (hout : u.io.OUT <+: (wireDecode u.io.IN).out) : (DecUnit.unspecified { u with io := raise e u.io }).Inv := by
  simp [DecUnit.Inv, UnitIO.flagsOk, hnone, htrunc, hout]

theorem decTruncated_inv
    (hd : wireDecode u.io.IN = { out := u.io.OUT, result := .truncated, used := u.io.IN.length }) :
    (DecUnit.unspecified { u with io := raise .truncatedStream u.io }).Inv := by
  simp [DecUnit.Inv, UnitIO.flagsOk, hd]

theorem decOutputError_inv {tx : List Byte} {k : Nat} {rest : List SinkReply}
    (hout : u.io.OUT ++ tx.take k <+: (wireDecode u.io.IN).out) : (u.outputError tx k rest).Inv := by
  simp [DecUnit.outputError, DecUnit.Inv, UnitIO.flagsOk, hout]

/-- What the invariant gives an operation that the gate lets through. -/
theorem DecUnit.Inv.active (h : u.Inv) (hp : u.io.phase = .active) : u.io.err = .none ∧ u.ActiveInv := by
  obtain ⟨⟨-, herr⟩, ha, -⟩ := h
  exact ⟨herr.mpr (by simp [hp]), ha hp⟩

end

/-! ### The item operations -/

section
variable {u v : DecUnit}

theorem opened_run_inRun {t : Byte} (h : u.Between) (hc : tagClass t = .run) : (u.opened t).InRun := by
  obtain ⟨-, -, fs, hfs, hIN, hOUT⟩ := h
  refine ⟨hc, ?_, fs, hfs, by simp [DecUnit.opened, hIN], by simp [DecUnit.opened, hOUT]⟩
  simp [DecUnit.opened, tagCount_of_run hc]

theorem opened_lit_inLit {t : Byte} (h : u.Between) (hc : tagClass t = .literal) : (u.opened t).InLit := by
  obtain ⟨-, -, fs, hfs, hIN, hOUT⟩ := h
  have hrange := (tagClass_literal_iff t).mp hc
  have hrem : (u.opened t).rem.toNat = tagCount t := by
    simp only [DecUnit.opened, BitVec.toNat_ofNat, tagCount_of_literal hc]
    omega
  refine ⟨hc, ?_, fs, [], hfs, ?_, by simp [DecUnit.opened, hIN], by simp [DecUnit.opened, hOUT]⟩
  · rw [hrem, tagCount_of_literal hc]
    omega
  · rw [hrem, List.length_nil, Nat.zero_add]
    rfl

/-- A run frame is whole with its value written tag times. -/
theorem runval_between {b : Byte} {rest : List SinkReply} (h : u.InRun) :
    DecUnit.Between { (decRecv b u).sent (List.replicate u.rem.toNat b) rest with rem := 0, tag := 0 } := by
  obtain ⟨hc, hrem, fs, hfs, hIN, hOUT⟩ := h
  refine ⟨rfl, rfl, fs ++ [.run u.tag b], ?_, ?_, ?_⟩
  · simpa [hfs] using (isDataFrame_run_iff u.tag b).mpr hc
  · simp [DecUnit.sent, hIN, framesBytes_append]
  · simp [DecUnit.sent, hOUT, hrem, framesOut_append]

/-- A literal frame with its last byte is whole; before that the byte is one more copied. -/
theorem counted_inv {b : Byte} {rest : List SinkReply} (h : u.InLit) :
    (((decRecv b u).sent [b] rest).counted).ActiveInv := by
  obtain ⟨hc, h1, fs, copied, hfs, hlen, hIN, hOUT⟩ := h
  have hrange := (tagClass_literal_iff u.tag).mp hc
  have hdec : (u.rem - 1).toNat = u.rem.toNat - 1 := by bv_omega
  by_cases hlast : u.rem - 1 = 0x00#8
  · have hrem : u.rem.toNat = 1 := by
      rw [hlast, BitVec.toNat_zero] at hdec
      omega
    have hcount : (copied ++ [b]).length = 0x100 - u.tag.toNat := by
      rw [← tagCount_of_literal hc, ← hlen]
      simp [hrem]
    refine DecUnit.Between.activeInv ⟨if_pos hlast, hlast, fs ++ [.lit (copied ++ [b])], ?_, ?_, ?_⟩
    · have hframe := (isDataFrame_lit_iff (copied ++ [b])).mpr (by omega)
      simp [hfs, hframe]
    · rw [framesBytes_append, framesBytes_singleton_lit, hcount, litTag_of_literal hc]
      simp [DecUnit.counted, DecUnit.sent, hIN]
    · simp [DecUnit.counted, DecUnit.sent, hOUT, framesOut_append]
  · have hne : (u.rem - 1).toNat ≠ 0 := fun h0 => hlast (BitVec.eq_of_toNat_eq h0)
    have htag : (((decRecv b u).sent [b] rest).counted).tag = u.tag := if_neg hlast
    have hrem : (((decRecv b u).sent [b] rest).counted).rem = u.rem - 1 := rfl
    refine (decActiveInv_iff _).mpr (.inr (.inr ⟨by rw [htag, hc], ?_, fs, copied ++ [b], hfs, ?_, ?_, ?_⟩))
    · rw [hrem]
      omega
    · rw [hrem, htag, hdec, ← hlen, List.length_append, List.length_singleton]
      omega
    · rw [htag]
      simp [DecUnit.counted, DecUnit.sent, hIN]
    · simp [DecUnit.counted, DecUnit.sent, hOUT]

/-- A run frame that the sink fails has delivered the beginning of what decode makes of it. -/
theorem runval_failed_prefix {b : Byte} (k : Nat) (h : u.InRun) :
    (decRecv b u).io.OUT ++ (List.replicate u.rem.toNat b).take k <+: (wireDecode (decRecv b u).io.IN).out := by
  have hwhole := (runval_between (b := b) (rest := []) h).wireDecode_ok
  have hout : (wireDecode (decRecv b u).io.IN).out = u.io.OUT ++ List.replicate u.rem.toNat b := by
    simpa [DecUnit.sent] using congrArg WireDecoded.out hwhole
  rw [hout]
  exact (List.prefix_append_right_inj _).mpr (List.take_prefix _ _)

/-- A literal byte that the sink fails is the one decode has beyond OUT. -/
theorem litbyte_failed_prefix {b : Byte} (h : u.InLit) :
    (decRecv b u).io.OUT ++ [b].take 0 <+: (wireDecode (decRecv b u).io.IN).out := by
  have hread := (counted_inv (b := b) (rest := []) h).wireDecode_out
  have hout : (wireDecode (decRecv b u).io.IN).out = u.io.OUT ++ [b] := by
    simpa [DecUnit.counted, DecUnit.sent] using hread
  rw [hout]
  simp

theorem decRunval_inv {b : Byte} (hu : u.Inv) (h : (decRunval b u).Answers v) : v.Inv := by
  obtain ⟨hp, hc, -, ⟨rest, -, -, rfl⟩ | ⟨k, rest, -, -, rfl, -⟩⟩ := decRunval_cases h
  all_goals obtain ⟨he, ha⟩ := hu.active hp
  · exact decInv_of_active hp he (runval_between (ha.inRun hc)).activeInv
  · exact decOutputError_inv (runval_failed_prefix k (ha.inRun hc))

theorem decLitbyte_inv {b : Byte} (hu : u.Inv) (h : (decLitbyte b u).Answers v) : v.Inv := by
  obtain ⟨hp, hc, -, -, ⟨rest, -, -, rfl⟩ | ⟨rest, -, rfl, -⟩⟩ := decLitbyte_cases h
  all_goals obtain ⟨he, ha⟩ := hu.active hp
  · exact decInv_of_active hp he (counted_inv (ha.inLit hc))
  · exact decOutputError_inv (litbyte_failed_prefix (ha.inLit hc))

/-- Every item operation of DEC keeps the invariant. -/
theorem DecItemStep.inv (hu : u.Inv) (h : DecItemStep u v) : v.Inv := by
  cases h with
  | tagSentinel h =>
    obtain ⟨hp, ht, -, rfl⟩ := decTagSentinel_cases h
    obtain ⟨-, ha⟩ := hu.active hp
    exact decFinished_inv (ha.between ht).wireDecode_sentinel_ok
  | tagRun t h =>
    obtain ⟨hp, ht, hc, -, rfl⟩ := decTagRun_cases h
    obtain ⟨he, ha⟩ := hu.active hp
    exact decInv_of_active hp he ((decActiveInv_iff _).mpr (.inr (.inl (opened_run_inRun (ha.between ht) hc))))
  | tagLit t h =>
    obtain ⟨hp, ht, hc, -, rfl⟩ := decTagLit_cases h
    obtain ⟨he, ha⟩ := hu.active hp
    exact decInv_of_active hp he ((decActiveInv_iff _).mpr (.inr (.inr (opened_lit_inLit (ha.between ht) hc))))
  | runval b h => exact decRunval_inv hu h
  | litbyte b h => exact decLitbyte_inv hu h
  | eosIdle h =>
    obtain ⟨hp, ht, rfl⟩ := decEosIdle_cases h
    obtain ⟨-, ha⟩ := hu.active hp
    exact decFinished_inv (ha.between ht).wireDecode_ok
  | eosMid h =>
    obtain ⟨hp, ht, rfl⟩ := decEosMid_cases h
    obtain ⟨-, ha⟩ := hu.active hp
    exact decTruncated_inv (wireDecode_mid_frame (ha.midFrame ht))
  | rderr h =>
    obtain ⟨hp, rfl⟩ := decRderr_cases h
    obtain ⟨-, ha⟩ := hu.active hp
    refine decRaised_inv (by decide) (by decide) ?_
    rw [ha.wireDecode_out]

theorem DecSteps.inv (hu : u.Inv) (h : DecSteps u v) : v.Inv := by
  induction h with
  | refl => exact hu
  | tail _ hstep ih => exact hstep.inv ih

/-- A DEC that has read and written nothing meets the invariant. -/
theorem decFresh_inv (hp : u.io.phase = .active) (he : u.io.err = .none) (ht : u.tag = 0) (hr : u.rem = 0)
    (hIN : u.io.IN = []) (hOUT : u.io.OUT = []) : u.Inv :=
  decInv_of_active hp he (DecUnit.Between.activeInv ⟨ht, hr, [], rfl, hIN, hOUT⟩)

end

/-- No part of a step breaks the invariant of DEC. -/
theorem decInv_keptByParts : KeptByParts fun s => s.dec.Inv where
  inQ s u q hs := by cases u <;> exact hs
  hand s u h hs := by cases u <;> exact hs
  sink s u rs hs := by cases u <;> exact hs
  sched s _ _ _ hs := hs
  item s u w r hs hr := by
    cases u with
    | enc =>
      obtain ⟨v, -, rfl⟩ := exec_enc_next (isEncOp_decode_enc s.enc.mode w) hr
      exact hs
    | dec =>
      obtain ⟨v, hv, rfl⟩ := exec_dec_next (isEncOp_decode_dec s.dec.tag w) hr
      exact DecSteps.inv hs hv
  reset s u hs := by
    cases u with
    | enc => exact hs
    | dec => exact decFresh_inv rfl rfl rfl rfl rfl rfl

end Sys2Proof.Machine

namespace Sys2Proof.Proofs

open Sys2Proof.Machine

/-- Settles O56: by where DEC stands in a frame, each item operation keeps the invariant, and no other part of a step
touches what it speaks of. -/
theorem stepKeepsDecInvariant : Obligations.StepKeepsDecInvariant :=
  fun _ _ hs h => decInv_keptByParts.after_step hs h

end Sys2Proof.Proofs
end

section
/-! PROOFS. What ENC still owes its sink, and the invariant of ENC (10_state.md R31; 40_encoder.md R94). -/

namespace Sys2Proof.Machine

open Sys2Proof.Claims

/-! ### The frames ENC writes -/

theorem noAdjacentEqual_iff (p : List Byte) : noAdjacentEqual p = true ↔ p.IsChain (· ≠ ·) := by
  induction p with
  | nil => simp [noAdjacentEqual]
  | cons a p ih =>
    cases p with
    | nil => simp [noAdjacentEqual]
    | cons b p => simp [noAdjacentEqual, ih]

theorem noAdjacentEqual_left_of_append {p q : List Byte} (h : noAdjacentEqual (p ++ q) = true) :
    noAdjacentEqual p = true :=
  (noAdjacentEqual_iff p).mpr ((noAdjacentEqual_iff (p ++ q)).mp h).left_of_append

theorem noAdjacentEqual_append {p : List Byte} {b : Byte} (hp : noAdjacentEqual p = true) (hb : p.getLast? ≠ some b) :
    noAdjacentEqual (p ++ [b]) = true := by
  refine (noAdjacentEqual_iff _).mpr (List.isChain_append.mpr ⟨(noAdjacentEqual_iff p).mp hp, .singleton b, ?_⟩)
  rintro x hx y hy rfl
  obtain rfl : b = x := by simpa using hy
  exact hb hx

theorem isEncFrame_lit {p : List Byte} (h1 : 1 ≤ p.length) (h128 : p.length ≤ 128) (hp : noAdjacentEqual p = true) :
    isEncFrame (.lit p) = true := by
  simp [isEncFrame, (isDataFrame_lit_iff p).mpr ⟨h1, h128⟩, hp]

theorem runTag_toNat {n : Nat} (h127 : n ≤ 127) : (runTag n).toNat = n := by
  simp only [runTag, BitVec.toNat_ofNat]
  omega

theorem isEncFrame_run {n : Nat} (v : Byte) (h2 : 2 ≤ n) (h127 : n ≤ 127) : isEncFrame (.run (runTag n) v) = true := by
  have htag := runTag_toNat h127
  simp [isEncFrame, isDataFrame, Instr.wf, htag, h2, h127, show 1 ≤ n by omega]

theorem frameOut_run {n : Nat} (v : Byte) (h127 : n ≤ 127) : frameOut (.run (runTag n) v) = List.replicate n v := by
  rw [frameOut, runTag_toNat h127]

theorem encWrote_append {written out tx : List Byte} {f : Instr} (h : encWrote written out) (hf : isEncFrame f = true)
    (htx : frameBytes f = some tx) : encWrote (written ++ tx) (out ++ frameOut f) := by
  obtain ⟨fs, hfs, rfl, rfl⟩ := h
  refine ⟨fs ++ [f], by simp [hfs, hf], ?_, ?_⟩
  · simp [framesBytes, htx]
  · simp [framesOut]

/-! ### What ENC owes -/

/-- The sink holds whole frames of ENC that decode to all of IN but the bytes p at its end: losslessness (R31). -/
def UnitIO.Owes (c : UnitIO) (p : List Byte) : Prop := ∃ out, encWrote c.OUT out ∧ c.IN = out ++ p

theorem owes_nil_of_fresh {c : UnitIO} (hIN : c.IN = []) (hOUT : c.OUT = []) : c.Owes [] :=
  ⟨[], ⟨[], rfl, hOUT, rfl⟩, hIN⟩

/-- A byte received is owed. -/
theorem UnitIO.Owes.recvByte {c : UnitIO} {p : List Byte} (h : c.Owes p) (b : Byte) :
    (recvByte b c).Owes (p ++ [b]) := by
  obtain ⟨out, hw, hIN⟩ := h
  exact ⟨out, hw, by simp [hIN]⟩

/-- What a frame that the sink took decodes to is owed no more. -/
theorem UnitIO.Owes.wrote {c : UnitIO} {p q tx : List Byte} {f : Instr} (rest : List SinkReply) (h : c.Owes p)
    (hf : isEncFrame f = true) (htx : frameBytes f = some tx) (hp : p = frameOut f ++ q) :
    (c.wrote tx rest).Owes q := by
  obtain ⟨out, hw, hIN⟩ := h
  exact ⟨out ++ frameOut f, encWrote_append hw hf htx, by simp [hIN, hp]⟩

/-- What a literal frame that the sink took holds is owed no more. -/
theorem UnitIO.Owes.wrote_lit {c : UnitIO} {p q : List Byte} (rest : List SinkReply) (h : c.Owes (p ++ q))
    (h1 : 1 ≤ p.length) (h128 : p.length ≤ 128) (hp : noAdjacentEqual p = true) :
    (c.wrote (litTag p.length :: p) rest).Owes q :=
  h.wrote rest (isEncFrame_lit h1 h128 hp) rfl rfl

/-- What a run frame that the sink took stands for is owed no more. -/
theorem UnitIO.Owes.wrote_run {c : UnitIO} {n : Nat} {v : Byte} {q : List Byte} (rest : List SinkReply)
    (h : c.Owes (List.replicate n v ++ q)) (h2 : 2 ≤ n) (h127 : n ≤ 127) : (c.wrote [runTag n, v] rest).Owes q :=
  h.wrote rest (isEncFrame_run v h2 h127) rfl (by rw [frameOut_run v h127])

/-! ### The invariant by phase and mode -/

/-- ENC in LIT with p pending (10_state.md R30, R31). -/
def EncUnit.InLit (u : EncUnit) (p : List Byte) : Prop :=
  u.mode = .lit ∧ u.cnt.toNat ≤ 128 ∧ memSpan u.buf 0 u.cnt.toNat = .ok p ∧ noAdjacentEqual p = true ∧ u.io.Owes p

/-- ENC in RUN, owing the run (10_state.md R30, R31). -/
def EncUnit.InRun (u : EncUnit) : Prop :=
  u.mode = .run ∧ 2 ≤ u.runLen.toNat ∧ u.runLen.toNat ≤ 126 ∧ u.io.Owes (List.replicate u.runLen.toNat u.runVal)

section
variable {u v : EncUnit} {p : List Byte}

theorem EncUnit.ActiveInv.inLit (h : u.ActiveInv) (hm : u.mode = .lit) : ∃ p, u.InLit p := by
  obtain ⟨hlit, -, out, p, hpend, hw, hIN⟩ := h
  obtain ⟨hcnt, q, hspan, hq⟩ := hlit hm
  have hpq : p = q := by
    rw [EncUnit.pending, hm] at hpend
    exact Except.ok.inj (hpend.symm.trans hspan)
  exact ⟨q, hm, hcnt, hspan, hq, out, hw, hpq ▸ hIN⟩

theorem EncUnit.ActiveInv.inRun (h : u.ActiveInv) (hm : u.mode = .run) : u.InRun := by
  obtain ⟨-, hrun, out, p, hpend, hw, hIN⟩ := h
  obtain ⟨h2, h126⟩ := hrun hm
  rw [EncUnit.pending, hm] at hpend
  exact ⟨hm, h2, h126, out, hw, Except.ok.inj hpend ▸ hIN⟩

theorem EncUnit.InLit.activeInv (h : u.InLit p) : u.ActiveInv := by
  obtain ⟨hm, hcnt, hspan, hp, out, hw, hIN⟩ := h
  exact ⟨fun _ => ⟨hcnt, p, hspan, hp⟩, by simp [hm], out, p, by rw [EncUnit.pending, hm]; exact hspan, hw, hIN⟩

theorem EncUnit.InRun.activeInv (h : u.InRun) : u.ActiveInv := by
  obtain ⟨hm, h2, h126, out, hw, hIN⟩ := h
  exact ⟨by simp [hm], fun _ => ⟨h2, h126⟩, out, _, by rw [EncUnit.pending, hm], hw, hIN⟩

theorem encInv_of_active (hp : u.io.phase = .active) (he : u.io.err = .none) (hwf : Memory.wf u.buf = true)
    (ha : u.ActiveInv) : u.Inv :=
  ⟨by simp [UnitIO.flagsOk, hp, he], by simp [he], hwf, fun _ => ha, by simp [hp], by simp [hp]⟩

theorem encFinished_inv (h : u.io.Owes []) : u.finished.Inv := by
  obtain ⟨out, hw, hIN⟩ := h
  have hdone : encWrote u.io.OUT u.io.IN := by rwa [hIN, List.append_nil]
  simp [EncUnit.finished, EncUnit.Inv, UnitIO.flagsOk, wf_freeBuffer, hdone]

theorem encRaised_inv {e : ErrKind} (hnone : e ≠ .none) (htrunc : e ≠ .truncatedStream)
    (hf : EncUnit.FailedInv (EncUnit.unspecified { u with io := raise e u.io })) :
    (EncUnit.unspecified { u with io := raise e u.io }).Inv := by
  simp [EncUnit.Inv, UnitIO.flagsOk, wf_freeBuffer, hnone, htrunc, hf]

/-- A read error leaves whole frames (40_encoder.md R88). -/
theorem encInputError_inv (h : u.io.Owes p) : (EncUnit.unspecified { u with io := raise .inputError u.io }).Inv := by
  obtain ⟨out, hw, hIN⟩ := h
  exact encRaised_inv (by decide) (by decide)
    ⟨u.io.OUT, out, [], (List.append_nil _).symm, hw, ⟨p, hIN.symm⟩, .inl rfl⟩

/-- A frame that the sink fails is delivered in part, never whole (60_exceptions.md R127). -/
theorem encOutputError_inv {f : Instr} {tx : List Byte} {k : Nat} {rest : List SinkReply} (h : u.io.Owes p)
    (hf : isEncFrame f = true) (htx : frameBytes f = some tx) (hk : k < tx.length) : (u.outputError tx k rest).Inv := by
  obtain ⟨out, hw, hIN⟩ := h
  have hstrict : tx.take k ≠ tx := fun e => by
    have := congrArg List.length e
    rw [List.length_take] at this
    omega
  exact encRaised_inv (u := u.sent (tx.take k) rest) (by decide) (by decide)
    ⟨u.io.OUT, out, tx.take k, rfl, hw, ⟨p, hIN.symm⟩, .inr ⟨f, tx, hf, htx, List.take_prefix _ _, hstrict⟩⟩

/-- What the invariant gives an operation that the gate lets through. -/
theorem EncUnit.Inv.active (h : u.Inv) (hp : u.io.phase = .active) :
    u.io.err = .none ∧ Memory.wf u.buf = true ∧ u.ActiveInv := by
  obtain ⟨⟨-, herr⟩, -, hwf, ha, -⟩ := h
  exact ⟨herr.mpr (by simp [hp]), hwf, ha hp⟩

/-! ### ENC.BYTE.LIT -/

theorem appended_cnt (b : Byte) (hcnt : u.cnt.toNat ≤ 128) : (u.appended b).cnt.toNat = u.cnt.toNat + 1 := by
  simp only [EncUnit.appended]
  bv_omega

theorem appended_wf (b : Byte) (hwf : Memory.wf u.buf = true) (hcnt : u.cnt.toNat ≤ 128) :
    Memory.wf (u.appended b).buf = true :=
  wf_memInsert hwf (by simp only [bufCap_eq]; omega)

/-- The byte received is the last one pending. -/
theorem appended_span (b : Byte) (h : u.InLit p) :
    memSpan (u.appended b).buf 0 (u.cnt.toNat + 1) = .ok (p ++ [b]) := by
  obtain ⟨-, hcnt, hspan, -⟩ := h
  exact memSpan_memInsert_end hspan (by simp only [bufCap_eq]; omega)

/-- The run-start check compares the byte received with the last one pending (40_encoder.md R83). -/
theorem appended_lastPairEqual (b : Byte) (h : u.InLit p) :
    lastPairEqual (u.appended b).buf (u.cnt.toNat + 1) = .ok (decide (p.getLast? = some b)) := by
  have hspan := appended_span b h
  obtain ⟨-, -, hp, -⟩ := h
  rw [← memSpan_length hp] at hspan ⊢
  exact lastPairEqual_append hspan

/-- A span of the bytes pending before b is not changed by appending b. -/
theorem appended_span_take {b : Byte} {n : Nat} {q : List Byte} (h : u.InLit p) (hn : n ≤ u.cnt.toNat)
    (hq : memSpan (u.appended b).buf 0 n = .ok q) : q = p.take n := by
  have htake := memSpan_take (appended_span b h) (show n ≤ u.cnt.toNat + 1 by omega)
  have hlen : p.length = u.cnt.toNat := by
    obtain ⟨-, -, hp, -⟩ := h
    exact memSpan_length hp
  rw [List.take_append_of_le_length (by omega)] at htake
  exact Except.ok.inj (hq.symm.trans htake)

/-- A run start flushes the bytes before the pair: all that were pending but the last (40_encoder.md R83). -/
theorem appended_span_before_pair {b : Byte} {q : List Byte} (h : u.InLit p) (hb : p.getLast? = some b)
    (hq : memSpan (u.appended b).buf 0 (u.cnt.toNat - 1) = .ok q) :
    p = q ++ [b] ∧ q.length + 1 = u.cnt.toNat ∧ noAdjacentEqual q = true := by
  have htake := appended_span_take h (by omega) hq
  obtain ⟨-, -, hspan, hadj, -⟩ := h
  have hlen := memSpan_length hspan
  obtain ⟨p', rfl⟩ := List.getLast?_eq_some_iff.mp hb
  rw [List.length_append, List.length_singleton] at hlen
  rw [← hlen, Nat.add_sub_cancel, List.take_left] at htake
  subst htake
  exact ⟨rfl, hlen, noAdjacentEqual_left_of_append hadj⟩

/-- A full buffer flushes all that was pending (40_encoder.md R83). -/
theorem appended_span_full {b : Byte} {q : List Byte} (h : u.InLit p) (hfull : u.cnt.toNat = 128)
    (hq : memSpan (u.appended b).buf 0 128 = .ok q) : q = p ∧ p.length = 128 ∧ noAdjacentEqual p = true := by
  have htake := appended_span_take h (by omega) hq
  obtain ⟨-, -, hspan, hadj, -⟩ := h
  have hlen : p.length = 128 := (memSpan_length hspan).trans hfull
  exact ⟨by rw [htake, List.take_of_length_le (by omega)], hlen, hadj⟩

/-- A run start with at most one byte pending has nothing to flush. -/
theorem pending_eq_of_short {b : Byte} (h : u.InLit p) (hb : p.getLast? = some b) (hshort : u.cnt.toNat ≤ 1) :
    p = [b] := by
  obtain ⟨-, -, hspan, -⟩ := h
  have hlen := memSpan_length hspan
  obtain ⟨q, rfl⟩ := List.getLast?_eq_some_iff.mp hb
  rw [List.length_append, List.length_singleton] at hlen
  obtain rfl : q = [] := List.length_eq_zero_iff.mp (by omega)
  rfl

theorem appended_owes (b : Byte) (h : u.InLit p) : (u.appended b).io.Owes (p ++ [b]) := by
  obtain ⟨-, -, -, -, howes⟩ := h
  exact howes.recvByte b

/-- A byte unlike the last one pending, with room for it, is pending itself. -/
theorem appended_inLit {b : Byte} (h : u.InLit p) (hb : p.getLast? ≠ some b) (hcnt : u.cnt.toNat < 128) :
    (u.appended b).InLit (p ++ [b]) := by
  have hspan := appended_span b h
  have howes := appended_owes b h
  have hc := appended_cnt b (u := u) (by omega)
  obtain ⟨hm, -, -, hp, -⟩ := h
  exact ⟨hm, by omega, by rwa [hc], noAdjacentEqual_append hp hb, howes⟩

theorem running_inRun {b : Byte} (h : u.io.Owes [b, b]) : (u.running b).InRun :=
  ⟨rfl, Nat.le_refl 2, show 2 ≤ 126 by decide, h⟩

/-- The unit with b the only byte pending is in LIT. -/
theorem onlyPending_inLit {b : Byte} (m : Memory) (howes : u.io.Owes [b]) (hm : u.mode = .lit)
    (hbuf : u.buf = memInsert m 0 b) (hcnt : u.cnt = 1) : u.InLit [b] := by
  have hspan : memSpan (memInsert m 0 b) 0 1 = .ok [b] := memSpan_memInsert_end (p := []) rfl (by simp)
  exact ⟨hm, by simp [hcnt], by simpa [hcnt, hbuf] using hspan, rfl, howes⟩

theorem encByteLit_inv {b : Byte} (hu : u.Inv) (h : (encByteLit b u).Answers v) : v.Inv := by
  obtain ⟨hp, hm, hcnt, hcases⟩ := encByteLit_cases h
  obtain ⟨he, hwf, ha⟩ := hu.active hp
  obtain ⟨p, hlit⟩ := ha.inLit hm
  have hwf' := appended_wf b hwf hcnt
  have howes := appended_owes b hlit
  rw [appended_lastPairEqual b hlit, Except.ok.injEq, Except.ok.injEq, decide_eq_false_iff_not,
    decide_eq_true_eq] at hcases
  rcases hcases with ⟨hb, hroom, rfl⟩ | ⟨hb, hshort, rfl⟩ | ⟨q, hb, h2, hq, hw⟩ | ⟨q, -, hfull, hq, hw⟩
  · exact encInv_of_active hp he hwf' (appended_inLit hlit hb hroom).activeInv
  · obtain rfl := pending_eq_of_short hlit hb hshort
    exact encInv_of_active hp he hwf' (running_inRun howes).activeInv
  · obtain ⟨rfl, hlen, hadj⟩ := appended_span_before_pair hlit hb hq
    rcases hw with ⟨rest, -, rfl⟩ | ⟨k, rest, hk, rfl, -⟩
    · rw [List.append_assoc] at howes
      have hsent := howes.wrote_lit rest (by omega) (by omega) hadj
      exact encInv_of_active hp he hwf' (running_inRun (u := (u.appended b).sent _ rest) hsent).activeInv
    · exact encOutputError_inv howes (isEncFrame_lit (by omega) (by omega) hadj) rfl (by simpa using hk)
  · obtain ⟨rfl, hlen, hadj⟩ := appended_span_full hlit hfull hq
    rcases hw with ⟨rest, -, rfl⟩ | ⟨k, rest, hk, rfl, -⟩
    · have hsent := howes.wrote_lit rest (by omega) (by omega) hadj
      rw [hlen] at hsent
      exact encInv_of_active hp he (wf_memInsert hwf' (by simp))
        (onlyPending_inLit _ hsent (by exact hm) rfl rfl).activeInv
    · exact encOutputError_inv howes (isEncFrame_lit (by omega) (by omega) hadj) (by simp [frameBytes, hlen])
        (by simpa [hlen] using hk)

/-! ### ENC.BYTE.RUN and the ends -/

theorem encByteRun_inv {b : Byte} (hu : u.Inv) (h : (encByteRun b u).Answers v) : v.Inv := by
  obtain ⟨hp, hm, h2, h126, hcases⟩ := encByteRun_cases h
  obtain ⟨he, hwf, ha⟩ := hu.active hp
  obtain ⟨-, -, -, hrun⟩ := ha.inRun hm
  have howes := hrun.recvByte b
  rcases hcases with ⟨rfl, hroom, rfl⟩ | ⟨rfl, hfull, hw⟩ | ⟨hb, hw⟩
  · have hlen : (u.extended u.runVal).runLen.toNat = u.runLen.toNat + 1 := by
      simp only [EncUnit.extended]
      bv_omega
    rw [← List.replicate_succ', ← hlen] at howes
    exact encInv_of_active hp he hwf (EncUnit.InRun.activeInv ⟨hm, by omega, by omega, howes⟩)
  · rw [← List.replicate_succ', hfull, ← List.append_nil (List.replicate _ _)] at howes
    rcases hw with ⟨rest, -, rfl⟩ | ⟨k, rest, hk, rfl, -⟩
    · have hsent := howes.wrote_run rest (by omega) (by omega)
      exact encInv_of_active hp he hwf (EncUnit.InLit.activeInv (p := []) ⟨rfl, by simp, rfl, rfl, hsent⟩)
    · exact encOutputError_inv (u := u.extended u.runVal) howes (isEncFrame_run u.runVal (by omega) (by omega)) rfl hk
  · rcases hw with ⟨rest, -, rfl⟩ | ⟨k, rest, hk, rfl, -⟩
    · have hsent := howes.wrote_run rest h2 (by omega)
      exact encInv_of_active hp he (wf_memInsert hwf (by simp)) (onlyPending_inLit _ hsent rfl rfl rfl).activeInv
    · exact encOutputError_inv (u := encRecv b u) howes (isEncFrame_run u.runVal h2 (by omega)) rfl hk

theorem encEosLit_inv (hu : u.Inv) (h : (encEosLit u).Answers v) : v.Inv := by
  obtain ⟨hp, hm, hcnt, hcases⟩ := encEosLit_cases h
  obtain ⟨-, -, ha⟩ := hu.active hp
  obtain ⟨p, -, -, hspan, hadj, howes⟩ := ha.inLit hm
  have hlen := memSpan_length hspan
  rcases hcases with ⟨h0, rfl⟩ | ⟨q, hq, h1, hw⟩
  · obtain rfl : p = [] := List.length_eq_zero_iff.mp (by omega)
    exact encFinished_inv howes
  · obtain rfl : q = p := Except.ok.inj (hq.symm.trans hspan)
    rcases hw with ⟨rest, -, rfl⟩ | ⟨k, rest, hk, rfl, -⟩
    · rw [← List.append_nil q] at howes
      exact encFinished_inv (howes.wrote_lit rest h1 (by omega) hadj)
    · exact encOutputError_inv howes (isEncFrame_lit h1 (by omega) hadj) rfl (by simpa using hk)

theorem encEosRun_inv (hu : u.Inv) (h : (encEosRun u).Answers v) : v.Inv := by
  obtain ⟨hp, hm, h2, h126, hcases⟩ := encEosRun_cases h
  obtain ⟨-, -, ha⟩ := hu.active hp
  obtain ⟨-, -, -, howes⟩ := ha.inRun hm
  rcases hcases with ⟨rest, -, rfl⟩ | ⟨k, rest, hk, rfl, -⟩
  · rw [← List.append_nil (List.replicate _ _)] at howes
    exact encFinished_inv (howes.wrote_run rest h2 (by omega))
  · exact encOutputError_inv howes (isEncFrame_run u.runVal h2 (by omega)) rfl hk

theorem encRderr_inv (hu : u.Inv) (h : (encRderr u).Answers v) : v.Inv := by
  obtain ⟨hp, rfl⟩ := encRderr_cases h
  obtain ⟨-, -, -, -, out, p, -, hw, hIN⟩ := hu.active hp
  exact encInputError_inv ⟨out, hw, hIN⟩

/-- Every ENC operation keeps the invariant. -/
theorem EncOpStep.inv {i : Instr} (hu : u.Inv) (h : EncOpStep u v i) : v.Inv := by
  cases h with
  | byteLit b h => exact encByteLit_inv hu h
  | byteRun b h => exact encByteRun_inv hu h
  | eosLit d h => exact encEosLit_inv hu h
  | eosRun d h => exact encEosRun_inv hu h
  | rderr d h => exact encRderr_inv hu h
  | rsvd d h => exact encRderr_inv hu h

/-- An ENC that has read and written nothing meets the invariant. -/
theorem encFresh_inv (hp : u.io.phase = .active) (he : u.io.err = .none) (hm : u.mode = .lit) (hbuf : u.buf = [])
    (hcnt : u.cnt = 0) (hIN : u.io.IN = []) (hOUT : u.io.OUT = []) : u.Inv :=
  encInv_of_active hp he (by rw [hbuf]; rfl)
    (EncUnit.InLit.activeInv (p := [])
      ⟨hm, by simp [hcnt], by simp [hcnt, memSpan], rfl, owes_nil_of_fresh hIN hOUT⟩)

end

/-- No part of a step breaks the invariant of ENC. -/
theorem encInv_keptByParts : KeptByParts fun s => s.enc.Inv where
  inQ s u q hs := by cases u <;> exact hs
  hand s u h hs := by cases u <;> exact hs
  sink s u rs hs := by cases u <;> exact hs
  sched s _ _ _ hs := hs
  item s u w r hs hr := by
    cases u with
    | enc =>
      obtain ⟨v, hv, rfl⟩ := exec_enc_next (isEncOp_decode_enc s.enc.mode w) hr
      exact EncOpStep.inv hs hv
    | dec =>
      obtain ⟨v, -, rfl⟩ := exec_dec_next (isEncOp_decode_dec s.dec.tag w) hr
      exact hs
  reset s u hs := by
    cases u with
    | enc => exact encFresh_inv rfl rfl rfl rfl rfl rfl rfl
    | dec => exact hs

end Sys2Proof.Machine

namespace Sys2Proof.Proofs

open Sys2Proof.Machine

/-- Settles O55: by what ENC owes its sink, each operation keeps the invariant, and no other part of a step touches what
it speaks of. -/
theorem stepKeepsEncInvariant : Obligations.StepKeepsEncInvariant :=
  fun _ _ hs h => encInv_keptByParts.after_step hs h

/-- Settles O53: after reset nothing has been read, so nothing is owed. -/
theorem resetIsSound : Obligations.ResetIsSound :=
  ⟨encFresh_inv rfl rfl rfl rfl rfl rfl rfl, decFresh_inv rfl rfl rfl rfl rfl rfl⟩

/-- Settles O49, by the definition of the reset state. -/
theorem resetValues : Obligations.ResetValues :=
  ⟨rfl, rfl, rfl, rfl, rfl, rfl, rfl, rfl, rfl, rfl, rfl, rfl, rfl, rfl⟩

/-- Settles O50: a unit's reset is its reset state with the channels restarted. -/
theorem hostResetRestartsUnit : Obligations.HostResetRestartsUnit := by
  intro s
  constructor
  · exact ⟨{ EncUnit.reset with io := s.enc.io.restart (streamsNow .enc s).2 },
      rfl, rfl, rfl, rfl, rfl, rfl, rfl, rfl, rfl, rfl⟩
  · exact ⟨{ DecUnit.reset with io := s.dec.io.restart (streamsNow .dec s).2 },
      rfl, rfl, rfl, rfl, rfl, rfl, rfl, rfl, rfl, rfl⟩

end Sys2Proof.Proofs
end

section
/-! PROOFS. An operation reads and writes its own unit alone, so operations of the two units commute (20_memory.md R53);
and the canonical form of the lookahead buffer (20_memory.md R40). -/

namespace Sys2Proof.Machine

open Sys2Proof.Claims

theorem liftEnc_of_answers {x : Flow EncUnit} {v : EncUnit} (s : State) (h : x.Answers v) :
    liftEnc s x = .next { s with enc := v } := by
  rcases h with rfl | rfl <;> rfl

theorem liftDec_of_answers {x : Flow DecUnit} {v : DecUnit} (s : State) (h : x.Answers v) :
    liftDec s x = .next { s with dec := v } := by
  rcases h with rfl | rfl <;> rfl

/-- An ENC operation is a function of ENC alone, lifted to the machine (10_state.md R14). -/
theorem exec_eq_liftEnc {i : Instr} (hi : isEncOp i = true) :
    ∃ f : EncUnit → Flow EncUnit, ∀ s, exec i s = liftEnc s (f s.enc) := by
  cases i with
  | encByteLit b => exact ⟨encByteLit b, fun _ => rfl⟩
  | encByteRun b => exact ⟨encByteRun b, fun _ => rfl⟩
  | encEosLit _ => exact ⟨encEosLit, fun _ => rfl⟩
  | encEosRun _ => exact ⟨encEosRun, fun _ => rfl⟩
  | encRderr _ => exact ⟨encRderr, fun _ => rfl⟩
  | encRsvd _ => exact ⟨encRderr, fun _ => rfl⟩
  | _ => cases hi

/-- A DEC operation or a frame is a function of DEC alone, lifted to the machine (10_state.md R14). -/
theorem exec_eq_liftDec {i : Instr} (hi : isEncOp i = false) :
    ∃ f : DecUnit → Flow DecUnit, ∀ s, exec i s = liftDec s (f s.dec) := by
  cases i with
  | endFrame => exact ⟨decEndFrame, fun _ => rfl⟩
  | run t v => exact ⟨decRunFrame t v, fun _ => rfl⟩
  | lit p => exact ⟨decLitFrame p, fun _ => rfl⟩
  | decTagSentinel => exact ⟨decTagSentinel, fun _ => rfl⟩
  | decTagRun t => exact ⟨decTagRun t, fun _ => rfl⟩
  | decTagLit t => exact ⟨decTagLit t, fun _ => rfl⟩
  | decRunval b => exact ⟨decRunval b, fun _ => rfl⟩
  | decLitbyte b => exact ⟨decLitbyte b, fun _ => rfl⟩
  | decEosIdle _ => exact ⟨decEosIdle, fun _ => rfl⟩
  | decEosMid _ => exact ⟨decEosMid, fun _ => rfl⟩
  | decRderr _ => exact ⟨decRderr, fun _ => rfl⟩
  | decRsvd _ => exact ⟨decRderr, fun _ => rfl⟩
  | _ => cases hi

/-! ### The canonical form of the buffer -/

section
variable {u v : EncUnit}

theorem encByteLit_wf_buf {b : Byte} (hu : Memory.wf u.buf = true) (h : (encByteLit b u).Answers v) :
    Memory.wf v.buf = true := by
  obtain ⟨-, -, hcnt, hcases⟩ := encByteLit_cases h
  have happ := appended_wf b hu hcnt
  rcases hcases with ⟨-, -, rfl⟩ | ⟨-, -, rfl⟩ | ⟨p, -, -, -, hw⟩ | ⟨p, -, -, -, hw⟩
  · exact happ
  · exact happ
  · rcases hw with ⟨rest, -, rfl⟩ | ⟨k, rest, -, rfl, -⟩
    · exact happ
    · exact wf_freeBuffer _
  · rcases hw with ⟨rest, -, rfl⟩ | ⟨k, rest, -, rfl, -⟩
    · exact wf_memInsert happ (by simp)
    · exact wf_freeBuffer _

theorem encByteRun_wf_buf {b : Byte} (hu : Memory.wf u.buf = true) (h : (encByteRun b u).Answers v) :
    Memory.wf v.buf = true := by
  obtain ⟨-, -, -, -, ⟨-, -, rfl⟩ | ⟨-, -, hw⟩ | ⟨-, hw⟩⟩ := encByteRun_cases h
  · exact hu
  · rcases hw with ⟨rest, -, rfl⟩ | ⟨k, rest, -, rfl, -⟩
    · exact hu
    · exact wf_freeBuffer _
  · rcases hw with ⟨rest, -, rfl⟩ | ⟨k, rest, -, rfl, -⟩
    · exact wf_memInsert hu (by simp)
    · exact wf_freeBuffer _

theorem encEosLit_wf_buf (h : (encEosLit u).Answers v) : Memory.wf v.buf = true := by
  obtain ⟨-, -, -, ⟨-, rfl⟩ | ⟨p, -, -, ⟨rest, -, rfl⟩ | ⟨k, rest, -, rfl, -⟩⟩⟩ := encEosLit_cases h
  all_goals exact wf_freeBuffer _

theorem encEosRun_wf_buf (h : (encEosRun u).Answers v) : Memory.wf v.buf = true := by
  obtain ⟨-, -, -, -, ⟨rest, -, rfl⟩ | ⟨k, rest, -, rfl, -⟩⟩ := encEosRun_cases h
  all_goals exact wf_freeBuffer _

theorem encRderr_wf_buf (h : (encRderr u).Answers v) : Memory.wf v.buf = true := by
  obtain ⟨-, rfl⟩ := encRderr_cases h
  exact wf_freeBuffer _

/-- Every ENC operation keeps the canonical form: the two that take a byte write in range, and the end of an invocation
leaves a free value in each entry (10_state.md R35). -/
theorem EncOpStep.wf_buf {i : Instr} (hu : Memory.wf u.buf = true) (h : EncOpStep u v i) : Memory.wf v.buf = true := by
  cases h with
  | byteLit b h => exact encByteLit_wf_buf hu h
  | byteRun b h => exact encByteRun_wf_buf hu h
  | eosLit d h => exact encEosLit_wf_buf h
  | eosRun d h => exact encEosRun_wf_buf h
  | rderr d h => exact encRderr_wf_buf h
  | rsvd d h => exact encRderr_wf_buf h

end

/-- No part of a step breaks the canonical form of the buffer. -/
theorem bufWf_keptByParts : KeptByParts fun s => Memory.wf s.enc.buf = true where
  inQ s u q hs := by cases u <;> exact hs
  hand s u h hs := by cases u <;> exact hs
  sink s u rs hs := by cases u <;> exact hs
  sched s _ _ _ hs := hs
  item s u w r hs hr := by
    cases u with
    | enc =>
      obtain ⟨v, hv, rfl⟩ := exec_enc_next (isEncOp_decode_enc s.enc.mode w) hr
      exact hv.wf_buf hs
    | dec =>
      obtain ⟨v, -, rfl⟩ := exec_dec_next (isEncOp_decode_dec s.dec.tag w) hr
      exact hs
  reset s u hs := by
    cases u with
    | enc => rfl
    | dec => exact hs

end Sys2Proof.Machine

namespace Sys2Proof.Proofs

open Sys2Proof.Machine

/-- Settles O44: each operation is a function of its own unit alone, which the other one leaves as it was, so both orders
end with the two units' own results. -/
theorem unitStepsCommute : Obligations.UnitStepsCommute := by
  intro s a b i j hi hj ha hb
  obtain ⟨f, hf⟩ := exec_eq_liftEnc hi
  obtain ⟨g, hg⟩ := exec_eq_liftDec hj
  rw [hf] at ha
  rw [hg] at hb
  obtain ⟨u, hu, rfl⟩ := liftEnc_next ha
  obtain ⟨v, hv, rfl⟩ := liftDec_next hb
  refine ⟨{ s with enc := u, dec := v }, ?_, ?_⟩
  · rw [hg]
    exact liftDec_of_answers _ hv
  · rw [hf]
    exact liftEnc_of_answers _ hu

/-- Settles O54: each ENC operation keeps the canonical form, and no other part of a step but ENC's reset, which empties
the buffer, touches it. -/
theorem stepKeepsBufferForm : Obligations.StepKeepsBufferForm :=
  fun _ _ hs h => bufWf_keptByParts.after_step hs h

end Sys2Proof.Proofs
end

section
/-! PROOFS. What an item word decodes to in each FSM state, and the one operation that it selects there (30_encoding.md
R68, R73 to R75). -/

namespace Sys2Proof

open Sys2Proof.Machine

@[simp] theorem itemData_mkItem (k : BitVec 2) (d : Byte) : itemData (mkItem k d) = d :=
  BitVec.extractLsb'_append_eq_right

/-- The kind of an item is that of its kind bits (30_encoding.md R73). -/
@[simp] theorem itemKind_mkItem (k : BitVec 2) (d : Byte) :
    itemKind (mkItem k d) =
      if k = 0b00#2 then .byte else if k = 0b01#2 then .eos else if k = 0b10#2 then .rderr else .reserved := by
  have hk : (mkItem k d).extractLsb' 8 2 = k := BitVec.extractLsb'_append_eq_left
  rw [itemKind, hk]

/-- Every item word is one of the four kinds with a data field. -/
theorem itemWord_cases (w : ItemWord) :
    ∃ d, w = byteItem d ∨ w = mkItem 0b01#2 d ∨ w = mkItem 0b10#2 d ∨ w = mkItem 0b11#2 d := by
  have hsplit : w.extractLsb' 8 2 ++ w.extractLsb' 0 8 = w := BitVec.extractLsb'_append_extractLsb'
  obtain ⟨k, hw⟩ : ∃ k, w = mkItem k (itemData w) := ⟨_, hsplit.symm⟩
  have hk : ∀ k : BitVec 2, k = 0b00#2 ∨ k = 0b01#2 ∨ k = 0b10#2 ∨ k = 0b11#2 := by decide
  refine ⟨itemData w, ?_⟩
  rcases hk k with rfl | rfl | rfl | rfl
  · exact .inl hw
  · exact .inr (.inl hw)
  · exact .inr (.inr (.inl hw))
  · exact .inr (.inr (.inr hw))

@[simp] theorem decode_enc_lit_byte (b : Byte) : decode (.enc .lit) (byteItem b) = .encByteLit b := by
  simp [decode, decodeEnc, byteItem]

@[simp] theorem decode_enc_run_byte (b : Byte) : decode (.enc .run) (byteItem b) = .encByteRun b := by
  simp [decode, decodeEnc, byteItem]

@[simp] theorem decode_enc_lit_eos (d : Byte) : decode (.enc .lit) (mkItem 0b01#2 d) = .encEosLit d := by
  simp [decode, decodeEnc]

@[simp] theorem decode_enc_run_eos (d : Byte) : decode (.enc .run) (mkItem 0b01#2 d) = .encEosRun d := by
  simp [decode, decodeEnc]

@[simp] theorem decode_enc_rderr (m : EncMode) (d : Byte) : decode (.enc m) (mkItem 0b10#2 d) = .encRderr d := by
  simp [decode, decodeEnc]

@[simp] theorem decode_enc_rsvd (m : EncMode) (d : Byte) : decode (.enc m) (mkItem 0b11#2 d) = .encRsvd d := by
  simp [decode, decodeEnc]

@[simp] theorem decode_dec_byte (t b : Byte) : decode (.dec t) (byteItem b) = decodeDecByte t b := by
  simp [decode, decodeDec, byteItem]

@[simp] theorem decode_dec_eos (t d : Byte) :
    decode (.dec t) (mkItem 0b01#2 d) = if t = 0x00#8 then .decEosIdle d else .decEosMid d := by
  simp [decode, decodeDec]

@[simp] theorem decode_dec_rderr (t d : Byte) : decode (.dec t) (mkItem 0b10#2 d) = .decRderr d := by
  simp [decode, decodeDec]

@[simp] theorem decode_dec_rsvd (t d : Byte) : decode (.dec t) (mkItem 0b11#2 d) = .decRsvd d := by
  simp [decode, decodeDec]

/-! DEC's dispatch of a BYTE item by tag class (30_encoding.md R68; 41_decoder.md R102). -/

@[simp] theorem tagClass_zero : tagClass 0x00#8 = .sentinel := rfl

@[simp] theorem decodeDecByte_idle_sentinel : decodeDecByte 0x00#8 0x00#8 = .decTagSentinel := rfl

theorem decodeDecByte_idle_run {b : Byte} (h : tagClass b = .run) : decodeDecByte 0x00#8 b = .decTagRun b := by
  simp [decodeDecByte, h]

theorem decodeDecByte_idle_literal {b : Byte} (h : tagClass b = .literal) :
    decodeDecByte 0x00#8 b = .decTagLit b := by
  simp [decodeDecByte, h]

theorem decodeDecByte_in_run {t : Byte} (b : Byte) (h : tagClass t = .run) : decodeDecByte t b = .decRunval b := by
  simp [decodeDecByte, h]

theorem decodeDecByte_in_literal {t : Byte} (b : Byte) (h : tagClass t = .literal) :
    decodeDecByte t b = .decLitbyte b := by
  simp [decodeDecByte, h]

/-- The operation i is well formed, selected in the state f, and encoded by the word w. -/
def Instr.Names (i : Instr) (f : FsmState) (w : ItemWord) : Prop :=
  i.wf = true ∧ i.selectedIn f = true ∧ encode i = [w]

theorem decodeDecByte_names (t b : Byte) : (decodeDecByte t b).Names (.dec t) (byteItem b) := by
  cases ht : tagClass t with
  | sentinel =>
    obtain rfl := (tagClass_sentinel_iff t).mp ht
    cases hb : tagClass b with
    | sentinel =>
      obtain rfl := (tagClass_sentinel_iff b).mp hb
      exact ⟨rfl, by simp [Instr.selectedIn], rfl⟩
    | run =>
      rw [decodeDecByte_idle_run hb]
      exact ⟨by simpa [Instr.wf] using (tagClass_run_iff b).mp hb, by simp [Instr.selectedIn], rfl⟩
    | literal =>
      rw [decodeDecByte_idle_literal hb]
      exact ⟨by simpa [Instr.wf] using (tagClass_literal_iff b).mp hb, by simp [Instr.selectedIn], rfl⟩
  | run =>
    rw [decodeDecByte_in_run b ht]
    exact ⟨rfl, by simpa [Instr.selectedIn] using (tagClass_run_iff t).mp ht, rfl⟩
  | literal =>
    rw [decodeDecByte_in_literal b ht]
    exact ⟨rfl, by simpa [Instr.selectedIn] using (tagClass_literal_iff t).mp ht, rfl⟩

theorem decode_enc_names (m : EncMode) (w : ItemWord) : (decode (.enc m) w).Names (.enc m) w := by
  obtain ⟨d, rfl | rfl | rfl | rfl⟩ := itemWord_cases w
  all_goals cases m <;> simp [Instr.Names, Instr.wf, Instr.selectedIn, encode]

theorem decode_dec_names (t : Byte) (w : ItemWord) : (decode (.dec t) w).Names (.dec t) w := by
  obtain ⟨d, rfl | rfl | rfl | rfl⟩ := itemWord_cases w
  · rw [decode_dec_byte]
    exact decodeDecByte_names t d
  · rw [decode_dec_eos]
    split
    · simp [Instr.Names, Instr.wf, Instr.selectedIn, encode, *]
    · simp [Instr.Names, Instr.wf, Instr.selectedIn, encode, *]
  · simp [Instr.Names, Instr.wf, Instr.selectedIn, encode]
  · simp [Instr.Names, Instr.wf, Instr.selectedIn, encode]

/-- The decoded operation is one that the word names in the state (30_encoding.md R75). -/
theorem decode_names (f : FsmState) (w : ItemWord) : (decode f w).Names f w := by
  cases f with
  | enc m => exact decode_enc_names m w
  | dec t => exact decode_dec_names t w

end Sys2Proof

namespace Sys2Proof.Proofs

open Sys2Proof.Machine

/-- Settles O3, operation by operation: in the one state that selects it, its item decodes to it. -/
theorem itemDecodeOfEncode : Obligations.ItemDecodeOfEncode := by
  intro i f hwf hsel
  cases i with
  | endFrame => cases hsel
  | run t v => cases hsel
  | lit p => cases hsel
  | encByteLit b =>
    obtain rfl : f = .enc .lit := by simpa [Instr.selectedIn] using hsel
    exact ⟨_, rfl, decode_enc_lit_byte b⟩
  | encByteRun b =>
    obtain rfl : f = .enc .run := by simpa [Instr.selectedIn] using hsel
    exact ⟨_, rfl, decode_enc_run_byte b⟩
  | encEosLit d =>
    obtain rfl : f = .enc .lit := by simpa [Instr.selectedIn] using hsel
    exact ⟨_, rfl, decode_enc_lit_eos d⟩
  | encEosRun d =>
    obtain rfl : f = .enc .run := by simpa [Instr.selectedIn] using hsel
    exact ⟨_, rfl, decode_enc_run_eos d⟩
  | encRderr d =>
    obtain rfl | rfl : f = .enc .lit ∨ f = .enc .run := by simpa [Instr.selectedIn] using hsel
    all_goals exact ⟨_, rfl, decode_enc_rderr _ d⟩
  | encRsvd d =>
    obtain rfl | rfl : f = .enc .lit ∨ f = .enc .run := by simpa [Instr.selectedIn] using hsel
    all_goals exact ⟨_, rfl, decode_enc_rsvd _ d⟩
  | decTagSentinel =>
    obtain rfl : f = .dec 0x00#8 := by simpa [Instr.selectedIn] using hsel
    exact ⟨_, rfl, decode_dec_byte _ _⟩
  | decTagRun b =>
    obtain rfl : f = .dec 0x00#8 := by simpa [Instr.selectedIn] using hsel
    have hc : tagClass b = .run := (tagClass_run_iff b).mpr (by simpa [Instr.wf] using hwf)
    exact ⟨_, rfl, (decode_dec_byte _ b).trans (decodeDecByte_idle_run hc)⟩
  | decTagLit b =>
    obtain rfl : f = .dec 0x00#8 := by simpa [Instr.selectedIn] using hsel
    have hc : tagClass b = .literal := (tagClass_literal_iff b).mpr (by simpa [Instr.wf] using hwf)
    exact ⟨_, rfl, (decode_dec_byte _ b).trans (decodeDecByte_idle_literal hc)⟩
  | decRunval b =>
    cases f with
    | enc m => cases hsel
    | dec t =>
      have hc : tagClass t = .run := (tagClass_run_iff t).mpr (by simpa [Instr.selectedIn] using hsel)
      exact ⟨_, rfl, (decode_dec_byte t b).trans (decodeDecByte_in_run b hc)⟩
  | decLitbyte b =>
    cases f with
    | enc m => cases hsel
    | dec t =>
      have hc : tagClass t = .literal := (tagClass_literal_iff t).mpr (by simpa [Instr.selectedIn] using hsel)
      exact ⟨_, rfl, (decode_dec_byte t b).trans (decodeDecByte_in_literal b hc)⟩
  | decEosIdle d =>
    obtain rfl : f = .dec 0x00#8 := by simpa [Instr.selectedIn] using hsel
    exact ⟨_, rfl, decode_dec_eos _ d⟩
  | decEosMid d =>
    cases f with
    | enc m => cases hsel
    | dec t =>
      have ht : t ≠ 0x00#8 := by simpa [Instr.selectedIn] using hsel
      exact ⟨_, rfl, (decode_dec_eos t d).trans (if_neg ht)⟩
  | decRderr d =>
    cases f with
    | enc m => cases hsel
    | dec t => exact ⟨_, rfl, decode_dec_rderr t d⟩
  | decRsvd d =>
    cases f with
    | enc m => cases hsel
    | dec t => exact ⟨_, rfl, decode_dec_rsvd t d⟩

/-- Settles O2: the decoded operation is named by the word, by the item's kind; that no other is, is O3. -/
theorem everyItemSelectsOneOperation : Obligations.EveryItemSelectsOneOperation := by
  intro f w
  obtain ⟨hwf, hsel, henc⟩ := decode_names f w
  refine ⟨hwf, hsel, henc, fun i hi hisel hienc => ?_⟩
  obtain ⟨w', hw', hdec⟩ := itemDecodeOfEncode i f hi hisel
  obtain rfl : w' = w := by simpa [hw'] using hienc
  exact hdec.symm

/-- Settles O1, by evaluating the decoders on the words. -/
theorem tableWordsDecode : Obligations.TableWordsDecode := by
  unfold Obligations.TableWordsDecode
  decide

/-- Settles O6, by the range of each class. -/
theorem tagClassRanges : Obligations.TagClassRanges := by
  intro t
  refine ⟨⟨tagClass_sentinel_iff t, tagClass_run_iff t, tagClass_literal_iff t⟩, fun h => ?_, fun h => ?_, fun h => ?_⟩
  · obtain rfl := (tagClass_sentinel_iff t).mp h
    exact decode_dec_byte _ _
  · exact (decode_dec_byte _ t).trans (decodeDecByte_idle_run h)
  · exact (decode_dec_byte _ t).trans (decodeDecByte_idle_literal h)

end Sys2Proof.Proofs
end

section
/-! PROOFS. The frame decoder and the frames' bytes are inverse (30_encoding.md R57 to R62), and what decode makes of
frame streams (R63, R64, R79). -/

namespace Sys2Proof

open Sys2Proof.Machine

theorem decodeFrame_sentinel {t : Byte} (rest : List Byte) (h : tagClass t = .sentinel) :
    decodeFrame (t :: rest) = .ok (.endFrame, rest) := by
  simp [decodeFrame, h]

theorem decodeFrame_run {t : Byte} (v : Byte) (rest : List Byte) (h : tagClass t = .run) :
    decodeFrame (t :: v :: rest) = .ok (.run t v, rest) := by
  simp [decodeFrame, h]

theorem decodeFrame_literal {t : Byte} {p : List Byte} (rest : List Byte) (h : tagClass t = .literal)
    (hp : p.length = tagCount t) : decodeFrame (t :: (p ++ rest)) = .ok (.lit p, rest) := by
  simp [decodeFrame, h, ← hp]

theorem wf_run_iff (t v : Byte) : (Instr.run t v).wf = true ↔ tagClass t = .run := isDataFrame_run_iff t v

theorem wf_lit_iff (p : List Byte) : (Instr.lit p).wf = true ↔ 1 ≤ p.length ∧ p.length ≤ 128 := isDataFrame_lit_iff p

theorem runTag_run {n : Nat} (h1 : 1 ≤ n) (h127 : n ≤ 127) : tagClass (runTag n) = .run := by
  rw [tagClass_run_iff, runTag_toNat h127]
  exact ⟨h1, h127⟩

/-- Everything the frame decoder can read from a list: the sentinel, a tag with its value, or a tag with its payload. -/
theorem decodeFrame_ok_cases {s rest : List Byte} {i : Instr} (h : decodeFrame s = .ok (i, rest)) :
    (∃ t, tagClass t = .sentinel ∧ i = .endFrame ∧ s = t :: rest) ∨
    (∃ t v, tagClass t = .run ∧ i = .run t v ∧ s = t :: v :: rest) ∨
    (∃ t p, tagClass t = .literal ∧ i = .lit p ∧ p.length = tagCount t ∧ s = t :: (p ++ rest)) := by
  cases s with
  | nil => cases h
  | cons t s =>
    cases hc : tagClass t with
    | sentinel =>
      rw [decodeFrame_sentinel s hc] at h
      cases h
      exact .inl ⟨t, hc, rfl, rfl⟩
    | run =>
      cases s with
      | nil => simp [decodeFrame, hc] at h
      | cons v s =>
        rw [decodeFrame_run v s hc] at h
        cases h
        exact .inr (.inl ⟨t, v, hc, rfl, rfl⟩)
    | literal =>
      simp only [decodeFrame, hc] at h
      split at h
      · cases h
      · cases h
        exact .inr (.inr ⟨t, _, hc, rfl, by rw [List.length_take]; omega, by rw [List.take_append_drop]⟩)

namespace Machine

theorem isDataFrame_run_runTag {n : Nat} (v : Byte) (h1 : 1 ≤ n) (h127 : n ≤ 127) :
    isDataFrame (.run (runTag n) v) = true :=
  (isDataFrame_run_iff _ v).mpr (runTag_run h1 h127)

/-- The frames that REP n, v writes for the copies that fill no run of 127 (30_encoding.md R79). -/
def repTail (r : Nat) (v : Byte) : List Instr :=
  if 2 ≤ r then [.run (runTag r) v] else if r = 1 then [.lit [v]] else []

theorem repFrames_eq (n : Nat) (v : Byte) :
    repFrames n v = List.replicate (n / 127) (.run (runTag 127) v) ++ repTail (n % 127) v := rfl

theorem repTail_dataFrames {r : Nat} (v : Byte) (h : r < 127) : (repTail r v).all isDataFrame = true := by
  unfold repTail
  split
  · simpa using isDataFrame_run_runTag v (by omega) (by omega)
  · split
    · rfl
    · rfl

theorem framesOut_repTail {r : Nat} (v : Byte) (h : r < 127) : framesOut (repTail r v) = List.replicate r v := by
  unfold repTail
  split
  · rw [framesOut_singleton_run, runTag_toNat (by omega)]
  · split
    · rename_i h1
      rw [framesOut_singleton_lit, h1]
      rfl
    · rename_i h2 h1
      rw [show r = 0 by omega]
      rfl

theorem repFrames_dataFrames (n : Nat) (v : Byte) : (repFrames n v).all isDataFrame = true := by
  rw [repFrames_eq, List.all_append, repTail_dataFrames v (by omega), List.all_replicate,
    isDataFrame_run_runTag v (by omega) (by omega)]
  simp

theorem framesOut_replicate (k : Nat) (f : Instr) :
    framesOut (List.replicate k f) = (List.replicate k (frameOut f)).flatten := by
  simp [framesOut, List.flatMap_replicate]

/-- The frames of REP n, v stand for n copies of v. -/
theorem framesOut_repFrames (n : Nat) (v : Byte) : framesOut (repFrames n v) = List.replicate n v := by
  rw [repFrames_eq, framesOut_append, framesOut_replicate, frameOut_run v (by omega), framesOut_repTail v (by omega),
    List.flatten_replicate_replicate, List.replicate_append_replicate, Nat.div_add_mod']

end Machine

end Sys2Proof

namespace Sys2Proof.Proofs

open Sys2Proof.Machine

/-- Settles O4, by the three frames of the grammar. -/
theorem frameDecodeOfEncode : Obligations.FrameDecodeOfEncode := by
  intro i bs rest hwf hbs
  cases i with
  | endFrame =>
    cases hbs
    exact decodeFrame_sentinel rest rfl
  | run t v =>
    cases hbs
    exact decodeFrame_run v rest ((wf_run_iff t v).mp hwf)
  | lit p =>
    cases hbs
    obtain ⟨h1, h128⟩ := (wf_lit_iff p).mp hwf
    exact decodeFrame_literal rest (litTag_literal h1 h128) (tagCount_litTag h1 h128).symm
  | _ => cases hbs

/-- Settles O5, by what the frame decoder can read: the count of the tag it read is the payload's length. -/
theorem frameEncodeOfDecode : Obligations.FrameEncodeOfDecode := by
  intro s rest i h
  rcases decodeFrame_ok_cases h with ⟨t, hc, rfl, rfl⟩ | ⟨t, v, hc, rfl, rfl⟩ | ⟨t, p, hc, rfl, hp, rfl⟩
  · obtain rfl := (tagClass_sentinel_iff t).mp hc
    exact ⟨rfl, _, rfl, rfl⟩
  · exact ⟨(wf_run_iff t v).mpr hc, _, rfl, rfl⟩
  · have hrange := (tagClass_literal_iff t).mp hc
    rw [tagCount_of_literal hc] at hp
    refine ⟨(wf_lit_iff p).mpr (by omega), _, rfl, ?_⟩
    rw [hp, litTag_of_literal hc, List.cons_append]

/-- Settles O7, by the range of each class and the count in it. -/
theorem tagAndCountInverse : Obligations.TagAndCountInverse := by
  refine ⟨fun n h1 h128 => ⟨litTag_literal h1 h128, litTag_toNat h1 h128, tagCount_litTag h1 h128⟩, fun n h2 h127 => ?_⟩
  have hc : tagClass (runTag n) = .run := runTag_run (by omega) h127
  exact ⟨hc, runTag_toNat h127, by rw [tagCount_of_run hc, runTag_toNat h127]⟩

/-- Settles O8, by induction on the frames. -/
theorem wireDecodeReadsFrames : Obligations.WireDecodeReadsFrames :=
  fun _ rest h => wireDecode_frames h rest

/-- Settles O9: decode reads the frames, and then a tag of class SENTINEL. -/
theorem wireDecodeStopsAtSentinel : Obligations.WireDecodeStopsAtSentinel := by
  intro fs rest h
  rw [wireDecode_frames h, wireDecode_sentinel tagClass_zero]
  simp [WireDecoded.after]

/-- Settles O10: the frames of REP are whole frames, runs of 127 and a tail, that stand for the n copies. -/
theorem repFramesDecodeToCopies : Obligations.RepFramesDecodeToCopies := by
  intro n v
  have hd := wireDecode_frames (repFrames_dataFrames n v) []
  rw [List.append_nil] at hd
  rw [hd, wireDecode_nil, framesOut_repFrames]
  simp [WireDecoded.after]

end Sys2Proof.Proofs
end

section
/-! PROOFS. The frames of the wire format in DEC: what a frame does where the sink takes it all, and that a frame is its
items one after the other (30_encoding.md R59, R60, R68, R80). -/

namespace Sys2Proof.Machine

/-! ### The item operations of a frame where the sink takes their bytes -/

section
variable {u : DecUnit}

@[simp] theorem decSent_io (tx : List Byte) (rest : List SinkReply) : (u.sent tx rest).io = u.io.wrote tx rest := rfl
@[simp] theorem decSent_rem (tx : List Byte) (rest : List SinkReply) : (u.sent tx rest).rem = u.rem := rfl

theorem decTagRun_opens {t : Byte} (hp : u.io.phase = .active) (h0 : u.tag = 0) (hc : tagClass t = .run) :
    decTagRun t u = .go (u.opened t) :=
  gate_pass _ hp (by simp [betweenFrames, h0, hc]) rfl

theorem decTagLit_opens {t : Byte} (hp : u.io.phase = .active) (h0 : u.tag = 0) (hc : tagClass t = .literal) :
    decTagLit t u = .go (u.opened t) :=
  gate_pass _ hp (by simp [betweenFrames, h0, hc]) rfl

theorem decRunval_writes {b : Byte} {rest : List SinkReply} (hp : u.io.phase = .active) (hc : tagClass u.tag = .run)
    (hr : u.rem = u.tag) (hs : u.io.sink = List.replicate u.rem.toNat .accept ++ rest) :
    decRunval b u = .go { (decRecv b u).sent (List.replicate u.rem.toNat b) rest with rem := 0, tag := 0 } := by
  rw [decRunval, gate_pass _ hp (by simp [hc]) (by simp [hr]), decWrite_accept (rest := rest) (by simpa using hs)]
  rfl

theorem decLitbyte_copies {b : Byte} {rest : List SinkReply} (hp : u.io.phase = .active)
    (hc : tagClass u.tag = .literal) (h1 : 1 ≤ u.rem.toNat) (h128 : u.rem.toNat ≤ 128)
    (hs : u.io.sink = .accept :: rest) : decLitbyte b u = .go ((decRecv b u).sent [b] rest).counted := by
  rw [decLitbyte, gate_pass _ hp (by simp [hc]) (by simp [h1, h128]),
    decWrite_accept (rest := rest) (by simpa using hs)]
  rfl

theorem counted_last (h : u.rem.toNat = 1) : u.counted = { u with rem := 0, tag := 0 } := by
  have h0 : u.rem - 1 = 0x00#8 := by bv_omega
  simp only [DecUnit.counted, h0, if_pos]
  rfl

theorem counted_more (h : 2 ≤ u.rem.toNat) : u.counted = { u with rem := u.rem - 1 } := by
  have h0 : u.rem - 1 ≠ 0x00#8 := by bv_omega
  rw [DecUnit.counted, if_neg h0]

/-- A literal frame begins with all of its bytes to come. -/
theorem opened_lit_rem {n : Nat} (h1 : 1 ≤ n) (h128 : n ≤ 128) : (u.opened (litTag n)).rem.toNat = n := by
  simp only [DecUnit.opened, BitVec.toNat_ofNat, tagCount_litTag h1 h128]
  omega

/-- The rest of a literal frame: its last byte ends the frame. -/
theorem decPayload_copies {p : List Byte} {rest : List SinkReply} (hp : u.io.phase = .active)
    (hc : tagClass u.tag = .literal) (hlen : u.rem.toNat = p.length) (h1 : 1 ≤ p.length) (h128 : p.length ≤ 128)
    (hs : u.io.sink = List.replicate p.length .accept ++ rest) :
    decPayload p u = .go {
      io := { u.io with IN := u.io.IN ++ p, OUT := u.io.OUT ++ p, sink := rest }
      tag := 0, rem := 0 } := by
  induction p generalizing u with
  | nil => simp at h1
  | cons b bs ih =>
    rw [List.length_cons] at hlen h128
    have hsink : u.io.sink = .accept :: (List.replicate bs.length .accept ++ rest) := hs
    rw [decPayload, decLitbyte_copies hp hc (by omega) (by omega) hsink, bind_of_go]
    cases bs with
    | nil =>
      rw [counted_last (by simpa using hlen)]
      rfl
    | cons c bs =>
      have hrem : (u.rem - 1).toNat = (c :: bs).length := by bv_omega
      rw [counted_more (by simp only [decSent_rem, decRecv_rem, hlen, List.length_cons]; omega)]
      refine (ih (u := { (decRecv b u).sent [b] _ with rem := u.rem - 1 }) hp hc hrem (by simp) (by omega) rfl).trans ?_
      simp [UnitIO.wrote]

end

/-! ### A stream of items -/

theorem liftDec_dec (s : State) (u : DecUnit) (x : Flow DecUnit) : liftDec { s with dec := u } x = liftDec s x := by
  cases x <;> rfl

theorem bind_go_self {α : Type} (x : Flow α) : x.bind .go = x := by
  cases x <;> rfl

/-- A stream of DEC's items is the operation of the first one and then, where the invocation goes on, the rest. -/
theorem feed_dec_cons {w : ItemWord} {ws : List ItemWord} {s : State} {x : Flow DecUnit} {k : DecUnit → Flow DecUnit}
    (hx : feedItem .dec w s = liftDec s x)
    (hgo : ∀ v, x = .go v → v.io.phase = .active ∧ feed .dec ws { s with dec := v } = liftDec s (k v))
    (hend : ∀ v, x = .ended v → v.io.phase.isTerminal = true) :
    feed .dec (w :: ws) s = liftDec s (x.bind k) := by
  rw [feed, hx]
  cases x with
  | go v =>
    obtain ⟨hp, hrest⟩ := hgo v rfl
    simpa [liftDec, hp, Phase.isTerminal] using hrest
  | ended v => simp [liftDec, hend v rfl]
  | stop f => rfl

/-- The operation of one item alone, where it goes on only while ACTIVE and ends the invocation. -/
theorem feed_dec_singleton {w : ItemWord} {s : State} {x : Flow DecUnit} (hx : feedItem .dec w s = liftDec s x)
    (hgo : ∀ v, x = .go v → v.io.phase = .active) (hend : ∀ v, x = .ended v → v.io.phase.isTerminal = true) :
    feed .dec [w] s = liftDec s x := by
  rw [feed_dec_cons (k := .go) hx (fun v hv => ⟨hgo v hv, rfl⟩) hend, bind_go_self]

theorem feedItem_idle_run {s : State} {t : Byte} (h0 : s.dec.tag = 0x00#8) (hc : tagClass t = .run) :
    feedItem .dec (byteItem t) s = liftDec s (decTagRun t s.dec) := by
  rw [feedItem, fsm_dec, h0, decode_dec_byte, decodeDecByte_idle_run hc]
  rfl

theorem feedItem_idle_literal {s : State} {t : Byte} (h0 : s.dec.tag = 0x00#8) (hc : tagClass t = .literal) :
    feedItem .dec (byteItem t) s = liftDec s (decTagLit t s.dec) := by
  rw [feedItem, fsm_dec, h0, decode_dec_byte, decodeDecByte_idle_literal hc]
  rfl

theorem feedItem_in_run {s : State} (b : Byte) (hc : tagClass s.dec.tag = .run) :
    feedItem .dec (byteItem b) s = liftDec s (decRunval b s.dec) := by
  rw [feedItem, fsm_dec, decode_dec_byte, decodeDecByte_in_run b hc]
  rfl

theorem feedItem_in_literal {s : State} (b : Byte) (hc : tagClass s.dec.tag = .literal) :
    feedItem .dec (byteItem b) s = liftDec s (decLitbyte b s.dec) := by
  rw [feedItem, fsm_dec, decode_dec_byte, decodeDecByte_in_literal b hc]
  rfl

/-- The payload of a literal frame, as items: the register rem counts the bytes still to come. -/
theorem feed_payload {bs : List Byte} {s : State} (hp : s.dec.io.phase = .active)
    (hc : bs ≠ [] → tagClass s.dec.tag = .literal) (hrem : s.dec.rem.toNat = bs.length) :
    feed .dec (bs.map byteItem) s = liftDec s (decPayload bs s.dec) := by
  induction bs generalizing s with
  | nil => rfl
  | cons b bs ih =>
    have hlit := hc (by simp)
    rw [List.length_cons] at hrem
    refine feed_dec_cons (feedItem_in_literal b hlit) (fun v hv => ?_) (fun v hv => ?_)
    · obtain ⟨-, -, h1, -, ⟨rest, -, -, rfl⟩ | ⟨rest, he, -⟩⟩ := decLitbyte_cases (.inl hv)
      · have hnext : ((decRecv b s.dec).sent [b] rest).counted.rem.toNat = bs.length := by
          simp only [DecUnit.counted, decSent_rem, decRecv_rem]
          bv_omega
        refine ⟨hp, ?_⟩
        rw [ih (s := { s with dec := ((decRecv b s.dec).sent [b] rest).counted }) hp (fun hne => ?_) hnext, liftDec_dec]
        have := List.length_pos_iff.mpr hne
        rw [counted_more (by simp only [decSent_rem, decRecv_rem]; omega)]
        exact hlit
      · rw [he] at hv
        cases hv
    · obtain ⟨-, -, -, -, ⟨rest, -, he, -⟩ | ⟨rest, -, rfl, -⟩⟩ := decLitbyte_cases (.inr hv)
      · rw [he] at hv
        cases hv
      · rfl

theorem feed_endFrame {s : State} (h0 : s.dec.tag = 0x00#8) :
    feed .dec [byteItem 0x00#8] s = liftDec s (decTagSentinel s.dec) := by
  have hitem : feedItem .dec (byteItem 0x00#8) s = liftDec s (decTagSentinel s.dec) := by
    rw [feedItem, fsm_dec, h0, decode_dec_byte]
    rfl
  refine feed_dec_singleton hitem (fun v hv => ?_) (fun v hv => ?_)
  · obtain ⟨-, -, he, -⟩ := decTagSentinel_cases (.inl hv)
    rw [he] at hv
    cases hv
  · obtain ⟨-, -, -, rfl⟩ := decTagSentinel_cases (.inr hv)
    rfl

theorem feed_runFrame {s : State} {t : Byte} (v : Byte) (h0 : s.dec.tag = 0) (hc : tagClass t = .run) :
    feed .dec [byteItem t, byteItem v] s = liftDec s (decRunFrame t v s.dec) := by
  refine feed_dec_cons (feedItem_idle_run h0 hc) (fun u hu => ?_) (fun u hu => ?_)
  · obtain ⟨hp, -, -, -, rfl⟩ := decTagRun_cases (.inl hu)
    refine ⟨hp, ?_⟩
    rw [feed_dec_singleton (feedItem_in_run v (s := { s with dec := s.dec.opened t }) hc) (fun w hw => ?_)
      (fun w hw => ?_), liftDec_dec]
    · obtain ⟨-, -, -, ⟨rest, -, -, rfl⟩ | ⟨k, rest, -, he, -⟩⟩ := decRunval_cases (.inl hw)
      · exact hp
      · rw [he] at hw
        cases hw
    · obtain ⟨-, -, -, ⟨rest, -, he, -⟩ | ⟨k, rest, -, -, rfl, -⟩⟩ := decRunval_cases (.inr hw)
      · rw [he] at hw
        cases hw
      · rfl
  · obtain ⟨-, -, -, he, -⟩ := decTagRun_cases (.inr hu)
    rw [he] at hu
    cases hu

theorem feed_litFrame {s : State} {p : List Byte} (h0 : s.dec.tag = 0) (h1 : 1 ≤ p.length) (h128 : p.length ≤ 128) :
    feed .dec (byteItem (litTag p.length) :: p.map byteItem) s = liftDec s (decLitFrame p s.dec) := by
  have hc := litTag_literal h1 h128
  rw [decLitFrame, if_pos ⟨h1, h128⟩]
  refine feed_dec_cons (feedItem_idle_literal h0 hc) (fun u hu => ?_) (fun u hu => ?_)
  · obtain ⟨hp, -, -, -, rfl⟩ := decTagLit_cases (.inl hu)
    refine ⟨hp, ?_⟩
    rw [feed_payload (s := { s with dec := s.dec.opened (litTag p.length) }) hp (fun _ => hc)
      (opened_lit_rem h1 h128), liftDec_dec]
  · obtain ⟨-, -, -, he, -⟩ := decTagLit_cases (.inr hu)
    rw [he] at hu
    cases hu

end Sys2Proof.Machine

namespace Sys2Proof.Proofs

open Sys2Proof.Machine

/-- Settles O37: the tag opens the run, and its value is written as often as the tag says. -/
theorem runFrameDecodesToCopies : Obligations.RunFrameDecodesToCopies := by
  intro s t v rest hp h0 h1 h7F hs
  have hc : tagClass t = .run := (tagClass_run_iff t).mpr ⟨h1, h7F⟩
  have hrem : (s.dec.opened t).rem = t := by simp [DecUnit.opened, tagCount_of_run hc]
  have hval := decRunval_writes (u := s.dec.opened t) (b := v) (rest := rest) hp hc hrem (by rw [hrem]; exact hs)
  have hframe : exec (.run t v) s = liftDec s ((decTagRun t s.dec).bind (decRunval v)) := rfl
  rw [hframe, decTagRun_opens hp h0 hc, bind_of_go, hval, hrem]
  simp [liftDec, DecUnit.sent, DecUnit.opened, UnitIO.wrote, decRecv, recvByte]

/-- Settles O38: the tag opens the literal, and by induction on the payload each byte is copied, and the last one
ends it. -/
theorem litFrameDecodesVerbatim : Obligations.LitFrameDecodesVerbatim := by
  intro s p rest hp h0 h1 h128 hs
  have hc := litTag_literal h1 h128
  have hframe : exec (.lit p) s = liftDec s (decLitFrame p s.dec) := rfl
  rw [hframe, decLitFrame, if_pos ⟨h1, h128⟩, decTagLit_opens hp h0 hc, bind_of_go,
    decPayload_copies (u := s.dec.opened (litTag p.length)) hp hc (opened_lit_rem h1 h128) h1 h128 hs]
  simp [liftDec, DecUnit.opened]

/-- Settles O40, frame by frame: the first item opens the frame, and the rest of the frame is fed from there. -/
theorem frameIsItsItems : Obligations.FrameIsItsItems := by
  intro s i bs hwf hbs h0
  cases i with
  | endFrame => exact (feed_endFrame h0).symm
  | run t v => exact (feed_runFrame v h0 ((wf_run_iff t v).mp hwf)).symm
  | lit p =>
    obtain ⟨h1, h128⟩ := (wf_lit_iff p).mp hwf
    exact (feed_litFrame h0 h1 h128).symm
  | _ => cases hbs

end Sys2Proof.Proofs
end

section
/-! PROOFS. ENC's operations where the sink takes their bytes, and ENC fed n copies of one byte (30_encoding.md R79). -/

namespace Sys2Proof.Machine

open Sys2Proof.Claims

/-! ### The operations of ENC on known pending bytes -/

section
variable {u : EncUnit} {p : List Byte} {b : Byte}

/-- The run-start check on the buffer with b appended to the pending bytes p (40_encoder.md R83). -/
theorem lastPairEqual_appended (hcnt : u.cnt.toNat ≤ 128) (hspan : memSpan u.buf 0 u.cnt.toNat = .ok p) :
    lastPairEqual (u.appended b).buf (u.cnt.toNat + 1) = .ok (decide (p.getLast? = some b)) := by
  have happ : memSpan (u.appended b).buf 0 (u.cnt.toNat + 1) = .ok (p ++ [b]) :=
    memSpan_memInsert_end hspan (by simp only [bufCap_eq]; omega)
  rw [← memSpan_length hspan] at happ ⊢
  exact lastPairEqual_append happ

theorem encByteLit_active (hp : u.io.phase = .active) (hm : u.mode = .lit) (hcnt : u.cnt.toNat ≤ 128) :
    encByteLit b u = appendByte b (encRecv b u) :=
  gate_pass _ hp (by simp [hm]) (by simpa [litInRange] using hcnt)

/-! The body of ENC.BYTE.LIT by the run-start check on the buffer with its byte appended (40_encoder.md R83). -/

theorem appendByte_of_pair (hcnt : u.cnt.toNat ≤ 128)
    (hl : lastPairEqual (u.appended b).buf (u.cnt.toNat + 1) = .ok true) :
    appendByte b (encRecv b u) = runStart b (u.cnt.toNat + 1) (u.appended b) := by
  rw [appendByte, encRecv_buf, encRecv_cnt, memWrite_ok (by simp only [bufCap_eq]; omega)]
  simp only [EncUnit.appended] at hl ⊢
  simp [hl]

theorem appendByte_of_no_pair (hcnt : u.cnt.toNat ≤ 128)
    (hl : lastPairEqual (u.appended b).buf (u.cnt.toNat + 1) = .ok false) :
    appendByte b (encRecv b u) =
      if u.cnt.toNat + 1 = Config.bufCap then fullBuffer (u.appended b) else .go (u.appended b) := by
  rw [appendByte, encRecv_buf, encRecv_cnt, memWrite_ok (by simp only [bufCap_eq]; omega)]
  simp only [EncUnit.appended] at hl ⊢
  simp [hl]

theorem appendByte_of_unreadable {f : Fault} (hcnt : u.cnt.toNat ≤ 128)
    (hl : lastPairEqual (u.appended b).buf (u.cnt.toNat + 1) = .error f) : appendByte b (encRecv b u) = .stop f := by
  rw [appendByte, encRecv_buf, encRecv_cnt, memWrite_ok (by simp only [bufCap_eq]; omega)]
  simp only [EncUnit.appended] at hl
  simp [hl]

/-- A byte unlike the last one pending, with room for it, is buffered. -/
theorem encByteLit_buffers (hp : u.io.phase = .active) (hm : u.mode = .lit) (hcnt : u.cnt.toNat < 128)
    (hspan : memSpan u.buf 0 u.cnt.toNat = .ok p) (hb : p.getLast? ≠ some b) :
    encByteLit b u = .go (u.appended b) := by
  have hl := lastPairEqual_appended (b := b) (by omega) hspan
  rw [decide_eq_false hb] at hl
  rw [encByteLit_active hp hm (by omega), appendByte_of_no_pair (by omega) hl, if_neg (by simp only [bufCap_eq]; omega)]

/-- A byte equal to the only one pending starts a run, and nothing is written (40_encoder.md R89). -/
theorem encByteLit_starts_run (hp : u.io.phase = .active) (hm : u.mode = .lit) (hcnt : u.cnt.toNat ≤ 1)
    (hspan : memSpan u.buf 0 u.cnt.toNat = .ok p) (hb : p.getLast? = some b) :
    encByteLit b u = .go ((u.appended b).running b) := by
  have hl := lastPairEqual_appended (b := b) (by omega) hspan
  rw [decide_eq_true hb] at hl
  rw [encByteLit_active hp hm (by omega), appendByte_of_pair (by omega) hl, runStart,
    show u.cnt.toNat + 1 - 2 = 0 by omega]
  rfl

/-! The body of ENC.BYTE.RUN by its byte and the length of the run (40_encoder.md R85). -/

theorem extendRun_equal (hb : b = u.runVal) (hlen : u.runLen.toNat < 126) :
    extendRun b (encRecv b u) = .go (u.extended b) := by
  have hroom : ¬ (encRecv b u).runLen.toNat + 1 = Config.runMax := by
    simp only [encRecv_runLen, runMax_eq]
    omega
  rw [extendRun, if_pos (by exact hb), if_neg hroom]
  rfl

theorem extendRun_equal_last (hb : b = u.runVal) (hlen : u.runLen.toNat = 126) :
    extendRun b (encRecv b u) =
      (encWrite [runTag 127, u.runVal] (u.extended b)).bind fun v => .go { v with mode := .lit, cnt := 0 } := by
  have hfull : (encRecv b u).runLen.toNat + 1 = Config.runMax := by simp [hlen]
  rw [extendRun, if_pos (by exact hb), if_pos hfull, emitRun_eq _ _ (by simp) (by simp)]
  rfl

theorem extendRun_unequal (hb : b ≠ u.runVal) (h2 : 2 ≤ u.runLen.toNat) (h126 : u.runLen.toNat ≤ 126) :
    extendRun b (encRecv b u) =
      (encWrite [runTag u.runLen.toNat, u.runVal] (encRecv b u)).bind fun v => .go (v.restarted b) := by
  rw [extendRun, if_neg (by exact hb), encRecv_runVal, encRecv_runLen, emitRun_eq _ _ h2 (by omega)]
  simp [memWrite_ok, EncUnit.restarted]

theorem encByteRun_active (hp : u.io.phase = .active) (hm : u.mode = .run) (h2 : 2 ≤ u.runLen.toNat)
    (h126 : u.runLen.toNat ≤ 126) : encByteRun b u = extendRun b (encRecv b u) :=
  gate_pass _ hp (by simp [hm]) (by simp [runInRange, h2, h126])

/-- The equal byte that makes the run 127 long closes it. -/
theorem encByteRun_closes {rest : List SinkReply} (hp : u.io.phase = .active) (hm : u.mode = .run)
    (h126 : u.runLen.toNat = 126) (hb : b = u.runVal) (hs : u.io.sink = List.replicate 2 .accept ++ rest) :
    encByteRun b u = .go { (u.extended b).sent [runTag 127, u.runVal] rest with mode := .lit, cnt := 0 } := by
  rw [encByteRun_active hp hm (by omega) (by omega), extendRun_equal_last hb h126,
    encWrite_accept (rest := rest) (by exact hs)]
  rfl

/-- EOS with nothing pending writes nothing (40_encoder.md R86, R89). -/
theorem encEosLit_of_empty (hp : u.io.phase = .active) (hm : u.mode = .lit) (hcnt : u.cnt.toNat = 0) :
    encEosLit u = .ended u.finished := by
  rw [encEosLit, gate_pass _ hp (by simp [hm]) (by simp [litInRange, hcnt]), hcnt]
  rfl

/-- EOS in LIT flushes the pending bytes as one literal (40_encoder.md R86). -/
theorem encEosLit_flushes {rest : List SinkReply} (hp : u.io.phase = .active) (hm : u.mode = .lit)
    (h1 : 1 ≤ u.cnt.toNat) (h128 : u.cnt.toNat ≤ 128) (hspan : memSpan u.buf 0 u.cnt.toNat = .ok p)
    (hs : u.io.sink = List.replicate (p.length + 1) .accept ++ rest) :
    encEosLit u = .ended (u.sent (litTag p.length :: p) rest).finished := by
  rw [encEosLit, gate_pass _ hp (by simp [hm]) (by simpa [litInRange] using h128), flushFirst_eq hspan h1 h128,
    ← memSpan_length hspan, encWrite_accept (rest := rest) (by simpa using hs)]
  rfl

/-- EOS in RUN writes the run (40_encoder.md R87). -/
theorem encEosRun_flushes {rest : List SinkReply} (hp : u.io.phase = .active) (hm : u.mode = .run)
    (h2 : 2 ≤ u.runLen.toNat) (h126 : u.runLen.toNat ≤ 126) (hs : u.io.sink = List.replicate 2 .accept ++ rest) :
    encEosRun u = .ended (u.sent [runTag u.runLen.toNat, u.runVal] rest).finished := by
  rw [encEosRun, gate_pass _ hp (by simp [hm]) (by simp [runInRange, h2, h126]), emitRun_eq _ _ h2 (by omega),
    encWrite_accept (rest := rest) (by exact hs)]
  rfl

end

/-! ### ENC fed copies of one byte -/

theorem takesAll_mono {c : UnitIO} {k m : Nat} (h : takesAll c m) (hk : k ≤ m) : takesAll c k := by
  obtain ⟨hall, hlen⟩ := h
  exact ⟨hall, hk.trans hlen⟩

/-- A sink that takes all of k + m bytes takes k of them and then m more. -/
theorem takesAll_split {c : UnitIO} {k m : Nat} (h : takesAll c (k + m)) :
    ∃ rest, c.sink = List.replicate k .accept ++ rest ∧ takesAll { c with sink := rest } m := by
  obtain ⟨hall, hlen⟩ := h
  have hacc : ∀ r ∈ c.sink, r = .accept := by simpa using hall
  refine ⟨c.sink.drop k, ?_, ?_, ?_⟩
  · have htake : c.sink.take k = List.replicate k .accept :=
      List.eq_replicate_iff.mpr ⟨by rw [List.length_take]; omega, fun r hr => hacc r (List.mem_of_mem_take hr)⟩
    rw [← htake, List.take_append_drop]
  · simpa using fun r hr => hacc r (List.mem_of_mem_drop hr)
  · simp only [List.length_drop]
    omega

/-- An ACTIVE ENC has r copies of v pending, and nothing else: fewer than a longest run. -/
def EncUnit.HoldsCopies (u : EncUnit) (v : Byte) (r : Nat) : Prop :=
  u.io.phase = .active ∧
  ((u.mode = .lit ∧ r ≤ 1 ∧ u.cnt.toNat = r ∧ memSpan u.buf 0 u.cnt.toNat = .ok (List.replicate r v)) ∨
   (u.mode = .run ∧ 2 ≤ r ∧ r ≤ 126 ∧ u.runLen.toNat = r ∧ u.runVal = v))

theorem feedItem_enc_lit_byte {s : State} (b : Byte) (hm : s.enc.mode = .lit) :
    feedItem .enc (byteItem b) s = liftEnc s (encByteLit b s.enc) := by
  rw [feedItem, fsm_enc, hm, decode_enc_lit_byte]
  rfl

theorem feedItem_enc_run_byte {s : State} (b : Byte) (hm : s.enc.mode = .run) :
    feedItem .enc (byteItem b) s = liftEnc s (encByteRun b s.enc) := by
  rw [feedItem, fsm_enc, hm, decode_enc_run_byte]
  rfl

theorem feedItem_enc_lit_eos {s : State} (hm : s.enc.mode = .lit) :
    feedItem .enc eosItem s = liftEnc s (encEosLit s.enc) := by
  rw [feedItem, fsm_enc, hm, eosItem, decode_enc_lit_eos]
  rfl

theorem feedItem_enc_run_eos {s : State} (hm : s.enc.mode = .run) :
    feedItem .enc eosItem s = liftEnc s (encEosRun s.enc) := by
  rw [feedItem, fsm_enc, hm, eosItem, decode_enc_run_eos]
  rfl

/-- One more copy is pending, and nothing is written, while the run stays below 127. -/
theorem feed_copy_held {s : State} {v : Byte} {r : Nat} (h : s.enc.HoldsCopies v r) (hr : r < 126) :
    ∃ u, feedItem .enc (byteItem v) s = .next { s with enc := u } ∧ u.HoldsCopies v (r + 1) ∧
      u.io.OUT = s.enc.io.OUT ∧ u.io.sink = s.enc.io.sink := by
  obtain ⟨hp, ⟨hm, h1, hcnt, hspan⟩ | ⟨hm, h2, h126, hlen, hval⟩⟩ := h
  · rw [feedItem_enc_lit_byte v hm]
    obtain rfl | rfl : r = 0 ∨ r = 1 := by omega
    · rw [encByteLit_buffers hp hm (by omega) hspan (by simp)]
      have hspan' := memSpan_memInsert_end (b := v) hspan (by simp [hcnt])
      have hcnt' := appended_cnt v (u := s.enc) (by omega)
      exact ⟨_, rfl, ⟨hp, .inl ⟨hm, by omega, by omega, by rwa [hcnt']⟩⟩, rfl, rfl⟩
    · rw [encByteLit_starts_run (b := v) hp hm (by omega) hspan rfl]
      exact ⟨_, rfl, ⟨hp, .inr ⟨rfl, by omega, by omega, rfl, rfl⟩⟩, rfl, rfl⟩
  · rw [feedItem_enc_run_byte v hm, encByteRun_active hp hm (by omega) (by omega), extendRun_equal hval.symm (by omega)]
    have hlen' : (s.enc.extended v).runLen.toNat = r + 1 := by
      simp only [EncUnit.extended]
      bv_omega
    exact ⟨_, rfl, ⟨hp, .inr ⟨hm, by omega, by omega, hlen', hval⟩⟩, rfl, rfl⟩

/-- The copy that makes the run 127 long has it written, and nothing is pending. -/
theorem feed_copy_closes {s : State} {v : Byte} {rest : List SinkReply} (h : s.enc.HoldsCopies v 126)
    (hs : s.enc.io.sink = List.replicate 2 .accept ++ rest) :
    ∃ u, feedItem .enc (byteItem v) s = .next { s with enc := u } ∧ u.HoldsCopies v 0 ∧
      u.io.OUT = s.enc.io.OUT ++ [runTag 127, v] ∧ u.io.sink = rest := by
  obtain ⟨hp, ⟨-, h1, -⟩ | ⟨hm, -, -, hlen, hval⟩⟩ := h
  · omega
  · rw [feedItem_enc_run_byte v hm, encByteRun_closes hp hm hlen hval.symm hs, hval]
    exact ⟨_, rfl, ⟨hp, .inl ⟨rfl, by omega, rfl, rfl⟩⟩, rfl, rfl⟩

/-- EOS writes the copies pending as the tail of REP. -/
theorem feed_eos_writes_tail {s : State} {v : Byte} {r : Nat} (h : s.enc.HoldsCopies v r) (hs : takesAll s.enc.io 2) :
    ∃ u, feedItem .enc eosItem s = .next { s with enc := u } ∧ u.io.phase = .done ∧
      u.io.OUT = s.enc.io.OUT ++ framesBytes (repTail r v) := by
  obtain ⟨rest, hsink, -⟩ := takesAll_split (m := 0) hs
  obtain ⟨hp, ⟨hm, h1, hcnt, hspan⟩ | ⟨hm, h2, h126, hlen, hval⟩⟩ := h
  · rw [feedItem_enc_lit_eos hm]
    obtain rfl | rfl : r = 0 ∨ r = 1 := by omega
    · rw [encEosLit_of_empty hp hm hcnt]
      exact ⟨_, rfl, rfl, (List.append_nil _).symm⟩
    · rw [encEosLit_flushes hp hm (by omega) (by omega) hspan hsink]
      exact ⟨_, rfl, rfl, rfl⟩
  · rw [feedItem_enc_run_eos hm, encEosRun_flushes hp hm (by omega) (by omega) hsink, hlen, hval]
    exact ⟨_, rfl, rfl, by rw [repTail, if_pos h2]; rfl⟩

/-- ENC has read k of n copies of v: the runs of 127 among them are written, the others are pending, and the sink still
takes two bytes for every copy that no written run accounts for. -/
def EncUnit.ReadCopies (u : EncUnit) (v : Byte) (n k : Nat) : Prop :=
  u.HoldsCopies v (k % 127) ∧ u.io.OUT = framesBytes (List.replicate (k / 127) (.run (runTag 127) v)) ∧
    takesAll u.io (2 * (n - k / 127))

theorem framesBytes_replicate_succ (k : Nat) (t v : Byte) :
    framesBytes (List.replicate (k + 1) (.run t v)) = framesBytes (List.replicate k (.run t v)) ++ [t, v] := by
  rw [List.replicate_succ', framesBytes_append, framesBytes_singleton_run]

theorem feed_copy {s : State} {v : Byte} {n k : Nat} (h : s.enc.ReadCopies v n k) (hk : k < n) :
    ∃ u, feedItem .enc (byteItem v) s = .next { s with enc := u } ∧ u.ReadCopies v n (k + 1) := by
  obtain ⟨hheld, hOUT, hsink⟩ := h
  by_cases hlast : k % 127 = 126
  · have hdiv : (k + 1) / 127 = k / 127 + 1 := by omega
    have hbudget : 2 * (n - k / 127) = 2 + 2 * (n - (k / 127 + 1)) := by omega
    rw [hbudget] at hsink
    obtain ⟨rest, hs, hrest⟩ := takesAll_split hsink
    rw [hlast] at hheld
    obtain ⟨u, hu, hheld', hOUT', hs'⟩ := feed_copy_closes hheld hs
    refine ⟨u, hu, ?_, ?_, ?_⟩
    · rwa [show (k + 1) % 127 = 0 by omega]
    · rw [hdiv, framesBytes_replicate_succ, hOUT', hOUT]
    · rw [hdiv, takesAll, hs']
      exact hrest
  · have hdiv : (k + 1) / 127 = k / 127 := by omega
    obtain ⟨u, hu, hheld', hOUT', hs'⟩ := feed_copy_held hheld (by omega)
    refine ⟨u, hu, ?_, ?_, ?_⟩
    · rwa [show (k + 1) % 127 = k % 127 + 1 by omega]
    · rw [hdiv, hOUT', hOUT]
    · rw [hdiv, takesAll, hs']
      exact hsink

theorem feed_enc_cons {s : State} {u : EncUnit} {w : ItemWord} (ws : List ItemWord)
    (h : feedItem .enc w s = .next { s with enc := u }) (hp : u.io.phase = .active) :
    feed .enc (w :: ws) s = feed .enc ws { s with enc := u } := by
  rw [feed, h]
  simp [hp, Phase.isTerminal]

/-- ENC reads m more copies of v, whatever items follow them. -/
theorem feed_copies {s : State} {v : Byte} {n k : Nat} (m : Nat) (ws : List ItemWord) (h : s.enc.ReadCopies v n k)
    (hm : k + m ≤ n) :
    ∃ u, feed .enc (List.replicate m (byteItem v) ++ ws) s = feed .enc ws { s with enc := u } ∧
      u.ReadCopies v n (k + m) := by
  induction m generalizing s k with
  | zero => exact ⟨s.enc, rfl, h⟩
  | succ m ih =>
    obtain ⟨u, hu, hread⟩ := feed_copy h (by omega)
    have ⟨⟨hp, _⟩, _⟩ := hread
    obtain ⟨u', hu', hread'⟩ := ih (s := { s with enc := u }) hread (by omega)
    refine ⟨u', ?_, ?_⟩
    · rw [List.replicate_succ, List.cons_append, feed_enc_cons _ hu hp, hu']
    · rwa [show k + (m + 1) = k + 1 + m by omega]

end Sys2Proof.Machine

namespace Sys2Proof.Proofs

open Sys2Proof.Machine Sys2Proof.Claims

/-- Settles O60, by induction on the copies read: each run of 127 is written as it closes, and EOS writes the rest. -/
theorem encOfCopiesIsRep : Obligations.EncOfCopiesIsRep := by
  intro s n v h1 hp hm hcnt hOUT hsink
  have hcnt0 : s.enc.cnt.toNat = 0 := by rw [hcnt]; rfl
  have hstart : s.enc.ReadCopies v n 0 := ⟨⟨hp, .inl ⟨hm, by omega, hcnt0, by rw [hcnt0]; rfl⟩⟩, hOUT, hsink⟩
  obtain ⟨u, hu, hheld, hruns, hrest⟩ := feed_copies n [eosItem] hstart (by omega)
  rw [Nat.zero_add] at hheld hruns hrest
  obtain ⟨u', hu', hdone, htail⟩ := feed_eos_writes_tail (s := { s with enc := u }) hheld
    (takesAll_mono hrest (by omega))
  refine ⟨{ s with enc := u' }, ?_, hdone, ?_⟩
  · rw [byteProgram, List.map_replicate, hu, feed, hu']
    simp [hdone, Phase.isTerminal]
  · rw [htail, repFrames_eq, framesBytes_append]
    exact congrArg (· ++ framesBytes (repTail (n % 127) v)) hruns

end Sys2Proof.Proofs
end

section
/-! PROOFS. A unit's move on its turn: the decoded operation of its item (30_encoding.md R75; 20_memory.md R49, R51);
and the status output (30_encoding.md R77). -/

namespace Sys2Proof.Machine

theorem agentMove_unitAgent (u : UnitId) (s : State) : agentMove (unitAgent u) s = unitMove u s := by
  cases u <;> rfl

/-- The agent whose turn it is is offered the move first. -/
theorem moveOrder_head (a : Agent) : ∃ others, moveOrder a = a :: others := by
  cases a <;> exact ⟨_, rfl⟩

section
variable {u : UnitId} {s t : State} {w : ItemWord} {q : List ItemWord} {f : Fault}

/-- On its turn a unit that has a move makes it. -/
theorem step_of_unitMove (hturn : s.turn = unitAgent u) (h : unitMove u s = .next t) :
    step s = .next (reschedule t) := by
  obtain ⟨others, ho⟩ := moveOrder_head s.turn
  exact stepOnce_of_first ho (by rw [hturn, agentMove_unitAgent, h])

/-- On its turn a unit's fault that is no wait stops the machine. -/
theorem step_of_unitMove_fault (hturn : s.turn = unitAgent u) (h : unitMove u s = .fault f) (hf : f.isWait = false) :
    step s = .fault f := by
  obtain ⟨others, ho⟩ := moveOrder_head s.turn
  rw [step, stepOnce, ho, firstMove, hturn, agentMove_unitAgent, h]
  simp [hf]

theorem untaken_of_not_wait (hf : f.isWait = false) : f.untaken = none := by
  cases f with
  | sinkWait left => cases hf
  | _ => rfl

/-! The move of a unit by its hand and the head of its channel. -/

theorem unitMove_holding (hh : (s.io u).hand = some w) : unitMove u s = resumeItem u w s := by
  simp [unitMove, hh]

theorem unitMove_taking (hh : (s.io u).hand = none) (hq : (s.io u).inQ = w :: q) (h : takeItem u w s = .next t) :
    unitMove u s = .next (t.setInQ u q) := by
  simp [unitMove, hh, hq, h]

theorem unitMove_taking_fault (hh : (s.io u).hand = none) (hq : (s.io u).inQ = w :: q) (h : takeItem u w s = .fault f) :
    unitMove u s = .fault f := by
  simp [unitMove, hh, hq, h]

/-! Taking an item and going on with it, by what its operation answers. -/

theorem takeItem_of_next (h : feedItem u w s = .next t) : takeItem u w s = .next t := by
  simp [takeItem, h]

theorem takeItem_of_wait {left : List Byte} (h : feedItem u w s = .fault (.sinkWait left)) :
    takeItem u w s = .next (s.setHand u (some w)) := by
  simp [takeItem, h, Fault.untaken]

theorem takeItem_of_fault (h : feedItem u w s = .fault f) (hf : f.isWait = false) : takeItem u w s = .fault f := by
  simp [takeItem, h, untaken_of_not_wait hf]

theorem resumeItem_of_next (h : feedItem u w s = .next t) : resumeItem u w s = .next (t.setHand u none) := by
  simp [resumeItem, h]

theorem resumeItem_of_fault (h : feedItem u w s = .fault f) : resumeItem u w s = .fault f := by
  simp [resumeItem, h]

end

end Sys2Proof.Machine

namespace Sys2Proof.Proofs

open Sys2Proof.Machine

/-- Settles O47: the unit moves first on its turn, and its move is its item's operation. -/
theorem stepRunsDecodedItem : Obligations.StepRunsDecodedItem := by
  intro u s w hturn
  refine ⟨fun q hh hq => ⟨fun t ht => ?_, fun left hw => ?_, fun f hf hnw => ?_⟩,
    fun hh => ⟨fun t ht => ?_, fun f hf hnw => ?_⟩⟩
  · rw [step_of_unitMove hturn (unitMove_taking hh hq (takeItem_of_next ht)), reschedule, setInQ_tick]
  · rw [step_of_unitMove hturn (unitMove_taking hh hq (takeItem_of_wait hw)), reschedule, setInQ_tick, setHand_tick]
  · exact step_of_unitMove_fault hturn (unitMove_taking_fault hh hq (takeItem_of_fault hf hnw)) hnw
  · rw [step_of_unitMove hturn ((unitMove_holding hh).trans (resumeItem_of_next ht)), reschedule, setHand_tick]
  · exact step_of_unitMove_fault hturn ((unitMove_holding hh).trans (resumeItem_of_fault hf)) hnw

/-- Settles O46, by the phase, and in FAILED by the error. -/
theorem statusValues : Obligations.StatusValues := by
  intro u s hflags
  obtain ⟨hres, herr⟩ := hflags
  cases hp : (s.io u).phase with
  | active =>
    have he : (s.io u).err = .none := herr.mpr (by simp [hp])
    exact .inl ⟨by rw [status, hp, he]; rfl, rfl⟩
  | done =>
    have he : (s.io u).err = .none := herr.mpr (by simp [hp])
    exact .inr (.inl ⟨by rw [status, hp, he]; rfl, rfl⟩)
  | failed =>
    cases he : (s.io u).err with
    | none => exact absurd hp (herr.mp he)
    | inputError => exact .inr (.inr (.inl ⟨by rw [status, hp, he]; rfl, rfl⟩))
    | outputError => exact .inr (.inr (.inr (.inl ⟨by rw [status, hp, he]; rfl, rfl⟩)))
    | truncatedStream => exact .inr (.inr (.inr (.inr ⟨by rw [status, hp, he]; rfl, rfl⟩)))
  | reserved => exact absurd hp hres

end Sys2Proof.Proofs
end

section
/-! PROOFS. The one transaction of an item operation, byte by byte: what every run of sink replies makes of an operation
that waits for its sink (20_memory.md R48, R51; 30_encoding.md R76). -/

namespace Sys2Proof.Machine

open Sys2Proof.Claims

/-- An operation F of a unit whose channels are io, with h in hand and the sink's replies rs, makes one transaction tx
after the output out: it ends or goes on with all of tx delivered, or fails with what the sink took before the failure,
or waits with the rest of tx. -/
structure OneTransaction {α : Type} (io : α → UnitIO) (F : Option ItemWord → List SinkReply → Flow α)
    (out tx : List Byte) : Prop where
  whole : ∀ h rest, ∃ v, (F h (List.replicate tx.length .accept ++ rest)).Answers v ∧ (io v).OUT = out ++ tx
  failed : ∀ h k rest, k < tx.length → ∃ v, (F h (List.replicate k .accept ++ .fail :: rest)).Answers v ∧
    (io v).phase = .failed ∧ (io v).err = .outputError ∧ (io v).OUT = out ++ tx.take k
  waits : ∀ h k, k < tx.length → F h (List.replicate k .accept) = .stop (.sinkWait (tx.drop k))

/-- ENC with h in hand and the sink's replies rs. -/
def EncUnit.rewired (u : EncUnit) (h : Option ItemWord) (rs : List SinkReply) : EncUnit :=
  { u with io := { u.io with hand := h, sink := rs } }

/-- DEC with h in hand and the sink's replies rs. -/
def DecUnit.rewired (u : DecUnit) (h : Option ItemWord) (rs : List SinkReply) : DecUnit :=
  { u with io := { u.io with hand := h, sink := rs } }

/-- OutWrite and then statements of ENC that neither stop nor write is one transaction. -/
theorem encWrite_oneTransaction {F : Option ItemWord → List SinkReply → Flow EncUnit} {u : EncUnit} {tx : List Byte}
    {K : EncUnit → Flow EncUnit} (hF : ∀ h rs, F h rs = (encWrite tx (u.rewired h rs)).bind K)
    (hK : ∀ c, ∃ v, (K { u with io := c }).Answers v ∧ v.io.OUT = c.OUT) :
    OneTransaction EncUnit.io F u.io.OUT tx where
  whole h rest := by
    rw [hF, encWrite_accept (rest := rest) rfl]
    exact hK _
  failed h k rest hk := by
    rw [hF]
    simp only [encWrite, ioWrite, EncUnit.rewired, outWrite_fail tx k rest hk]
    exact ⟨_, .inr rfl, rfl, rfl, rfl⟩
  waits h k hk := by
    rw [hF]
    simp only [encWrite, ioWrite, EncUnit.rewired, outWrite_short tx k hk]
    rfl

/-- OutWrite and then statements of DEC that neither stop nor write is one transaction. -/
theorem decWrite_oneTransaction {F : Option ItemWord → List SinkReply → Flow DecUnit} {u : DecUnit} {tx : List Byte}
    {K : DecUnit → Flow DecUnit} (hF : ∀ h rs, F h rs = (decWrite tx (u.rewired h rs)).bind K)
    (hK : ∀ c, ∃ v, (K { u with io := c }).Answers v ∧ v.io.OUT = c.OUT) :
    OneTransaction DecUnit.io F u.io.OUT tx where
  whole h rest := by
    rw [hF, decWrite_accept (rest := rest) rfl]
    exact hK _
  failed h k rest hk := by
    rw [hF]
    simp only [decWrite, ioWrite, DecUnit.rewired, outWrite_fail tx k rest hk]
    exact ⟨_, .inr rfl, rfl, rfl, rfl⟩
  waits h k hk := by
    rw [hF]
    simp only [decWrite, ioWrite, DecUnit.rewired, outWrite_short tx k hk]
    rfl

/-! ### What can wait -/

section
variable {left : List Byte}

theorem gate_wait {α : Type} {p : Phase} {sel inRange : Bool} {x : Flow α}
    (h : gate p sel inRange x = .stop (.sinkWait left)) :
    p = .active ∧ sel = true ∧ inRange = true ∧ x = .stop (.sinkWait left) := by
  rcases gate_cases p sel inRange x with ⟨hp, hs, hr, e⟩ | ⟨-, -, e⟩ | ⟨-, -, -, e⟩ | ⟨-, e⟩ | ⟨-, e⟩ <;> rw [e] at h
  · exact ⟨hp, hs, hr, h⟩
  all_goals cases h

theorem gate_no_wait {α : Type} {p : Phase} {sel inRange : Bool} {x : Flow α} (hx : x ≠ .stop (.sinkWait left)) :
    gate p sel inRange x ≠ .stop (.sinkWait left) := by
  intro h
  obtain ⟨-, -, -, e⟩ := gate_wait h
  exact hx e

theorem bind_wait {α : Type} {x : Flow α} {k : α → Flow α} (h : x.bind k = .stop (.sinkWait left))
    (hk : ∀ a, k a ≠ .stop (.sinkWait left)) : x = .stop (.sinkWait left) := by
  cases x with
  | go a => exact absurd h (hk a)
  | ended a => cases h
  | stop f => exact h

theorem memRead_no_wait {m : Memory} {i : Nat} : memRead m i ≠ .error (.sinkWait left) := by
  unfold memRead
  split
  · split <;> nofun
  · nofun

theorem memSpan_no_wait {m : Memory} {i n : Nat} : memSpan m i n ≠ .error (.sinkWait left) := by
  induction n generalizing i with
  | zero => nofun
  | succ n ih =>
    rw [memSpan]
    split
    · rename_i f hf
      rintro ⟨⟩
      exact memRead_no_wait hf
    · split
      · rename_i f hf
        rintro ⟨⟩
        exact ih hf
      · nofun

theorem lastPairEqual_no_wait {m : Memory} {c : Nat} : lastPairEqual m c ≠ .error (.sinkWait left) := by
  unfold lastPairEqual
  split
  · nofun
  · split
    · rename_i f hf
      rintro ⟨⟩
      exact memRead_no_wait hf
    · split
      · rename_i f hf
        rintro ⟨⟩
        exact memRead_no_wait hf
      · nofun

/-- A flush that waits is one literal frame of the bytes it reads. -/
theorem flushFirst_wait {n : Nat} {u : EncUnit} (h : flushFirst n u = .stop (.sinkWait left)) :
    ∃ p, memSpan u.buf 0 n = .ok p ∧ 1 ≤ n ∧ n ≤ 128 := by
  rw [flushFirst] at h
  split at h
  · cases h
  · split at h
    · rename_i f hf
      cases h
      exact absurd hf memSpan_no_wait
    · rename_i p hp
      have hlen := memSpan_length hp
      rw [emitLit] at h
      split at h
      · rename_i hr
        rw [litMax_eq] at hr
        exact ⟨p, hp, by omega, by omega⟩
      · cases h

/-! ### The operations that wait make one transaction -/

section
variable {u : EncUnit} {b : Byte}

/-- A flush that waits, and then statements that neither stop nor write, is one transaction. -/
theorem flush_transaction {n : Nat} {K : EncUnit → Flow EncUnit}
    (hw : (flushFirst n u).bind K = .stop (.sinkWait left)) (hnw : ∀ a, K a ≠ .stop (.sinkWait left))
    (hK : ∀ c, ∃ v, (K { u with io := c }).Answers v ∧ v.io.OUT = c.OUT) :
    ∃ tx, OneTransaction EncUnit.io (fun h rs => (flushFirst n (u.rewired h rs)).bind K) u.io.OUT tx := by
  obtain ⟨p, hspan, h1, h128⟩ := flushFirst_wait (bind_wait hw hnw)
  have hF (h rs) : flushFirst n (u.rewired h rs) = encWrite (litTag n :: p) (u.rewired h rs) :=
    flushFirst_eq hspan h1 h128
  exact ⟨litTag n :: p, encWrite_oneTransaction (fun h rs => congrArg (Flow.bind · K) (hF h rs)) hK⟩

/-- The full-buffer branch, where entry 128 has been written. -/
theorem fullBuffer_transaction (hread : memRead u.buf 128 = .ok b) (hw : fullBuffer u = .stop (.sinkWait left)) :
    ∃ tx, OneTransaction EncUnit.io (fun h rs => fullBuffer (u.rewired h rs)) u.io.OUT tx := by
  refine flush_transaction hw (fun a => ?_) (fun c => ?_)
  · split
    · rename_i f hf
      rintro ⟨⟩
      exact memRead_no_wait hf
    · rw [memWrite_ok (by simp)]
      nofun
  · simp only [litMax_eq, hread, memWrite_ok (show 0 < Config.bufCap by simp)]
    exact ⟨_, .inl rfl, rfl⟩

theorem encByteLit_transaction (hw : encByteLit b u = .stop (.sinkWait left)) :
    ∃ tx, OneTransaction EncUnit.io (fun h rs => encByteLit b (u.rewired h rs)) u.io.OUT tx := by
  obtain ⟨hp, hm, hr, hx⟩ := gate_wait hw
  have hm : u.mode = .lit := by simpa using hm
  have hcnt : u.cnt.toNat ≤ 128 := by simpa [litInRange] using hr
  have hactive (h rs) : encByteLit b (u.rewired h rs) = appendByte b (encRecv b (u.rewired h rs)) :=
    encByteLit_active hp hm hcnt
  simp only [hactive]
  cases hl : lastPairEqual (u.appended b).buf (u.cnt.toNat + 1) with
  | error f =>
    rw [appendByte_of_unreadable hcnt hl] at hx
    cases hx
    exact absurd hl lastPairEqual_no_wait
  | ok pair =>
    cases pair with
    | true =>
      have hF (h rs) : appendByte b (encRecv b (u.rewired h rs)) =
          runStart b (u.cnt.toNat + 1) ((u.appended b).rewired h rs) := appendByte_of_pair hcnt hl
      rw [appendByte_of_pair hcnt hl] at hx
      simp only [hF]
      exact flush_transaction (u := u.appended b) hx (fun _ => nofun) (fun _ => ⟨_, .inl rfl, rfl⟩)
    | false =>
      have hF (h rs) : appendByte b (encRecv b (u.rewired h rs)) = if u.cnt.toNat + 1 = Config.bufCap then
          fullBuffer ((u.appended b).rewired h rs) else .go ((u.appended b).rewired h rs) :=
        appendByte_of_no_pair hcnt hl
      rw [appendByte_of_no_pair hcnt hl] at hx
      simp only [hF]
      split at hx
      · rename_i hfull
        have hcnt128 : u.cnt.toNat = 128 := by
          rw [bufCap_eq] at hfull
          omega
        have hread : memRead (u.appended b).buf 128 = .ok b := by
          simp only [EncUnit.appended, hcnt128]
          exact memRead_memWrite_same (memWrite_ok (by simp))
        simp only [if_pos hfull]
        exact fullBuffer_transaction (u := u.appended b) hread hx
      · cases hx

theorem encByteRun_transaction (hw : encByteRun b u = .stop (.sinkWait left)) :
    ∃ tx, OneTransaction EncUnit.io (fun h rs => encByteRun b (u.rewired h rs)) u.io.OUT tx := by
  obtain ⟨hp, hm, hr, hx⟩ := gate_wait hw
  have hm : u.mode = .run := by simpa using hm
  obtain ⟨h2, h126⟩ : 2 ≤ u.runLen.toNat ∧ u.runLen.toNat ≤ 126 := by simpa [runInRange] using hr
  have hactive (h rs) : encByteRun b (u.rewired h rs) = extendRun b (encRecv b (u.rewired h rs)) :=
    encByteRun_active hp hm h2 h126
  simp only [hactive]
  by_cases hb : b = u.runVal
  · by_cases hlast : u.runLen.toNat = 126
    · exact ⟨[runTag 127, u.runVal], encWrite_oneTransaction (u := u.extended b)
        (fun h rs => extendRun_equal_last (u := u.rewired h rs) hb hlast) (fun _ => ⟨_, .inl rfl, rfl⟩)⟩
    · rw [extendRun_equal hb (by omega)] at hx
      cases hx
  · exact ⟨[runTag u.runLen.toNat, u.runVal], encWrite_oneTransaction (u := encRecv b u)
      (fun h rs => extendRun_unequal (u := u.rewired h rs) hb h2 h126) (fun _ => ⟨_, .inl rfl, rfl⟩)⟩

theorem encEosLit_transaction (hw : encEosLit u = .stop (.sinkWait left)) :
    ∃ tx, OneTransaction EncUnit.io (fun h rs => encEosLit (u.rewired h rs)) u.io.OUT tx := by
  obtain ⟨hp, hm, hr, hx⟩ := gate_wait hw
  have hactive (h rs) : encEosLit (u.rewired h rs) = (flushFirst u.cnt.toNat (u.rewired h rs)).bind encFinish :=
    gate_pass _ hp hm hr
  simp only [hactive]
  exact flush_transaction hx (fun _ => nofun) (fun _ => ⟨_, .inr rfl, rfl⟩)

theorem encEosRun_transaction (hw : encEosRun u = .stop (.sinkWait left)) :
    ∃ tx, OneTransaction EncUnit.io (fun h rs => encEosRun (u.rewired h rs)) u.io.OUT tx := by
  obtain ⟨hp, hm, hr, hx⟩ := gate_wait hw
  obtain ⟨h2, h126⟩ : 2 ≤ u.runLen.toNat ∧ u.runLen.toNat ≤ 126 := by simpa [runInRange] using hr
  have hF (h rs) : encEosRun (u.rewired h rs) =
      (encWrite [runTag u.runLen.toNat, u.runVal] (u.rewired h rs)).bind encFinish :=
    (gate_pass _ hp hm hr).trans (congrArg (Flow.bind · _) (emitRun_eq _ _ h2 (by omega)))
  exact ⟨_, encWrite_oneTransaction hF (fun _ => ⟨_, .inr rfl, rfl⟩)⟩

end

section
variable {u : DecUnit} {b : Byte}

theorem decRunval_transaction (hw : decRunval b u = .stop (.sinkWait left)) :
    ∃ tx, OneTransaction DecUnit.io (fun h rs => decRunval b (u.rewired h rs)) u.io.OUT tx := by
  obtain ⟨hp, hs, hr, -⟩ := gate_wait hw
  exact ⟨List.replicate u.rem.toNat b, decWrite_oneTransaction (u := decRecv b u) (fun h rs => gate_pass _ hp hs hr)
    (fun _ => ⟨_, .inl rfl, rfl⟩)⟩

theorem decLitbyte_transaction (hw : decLitbyte b u = .stop (.sinkWait left)) :
    ∃ tx, OneTransaction DecUnit.io (fun h rs => decLitbyte b (u.rewired h rs)) u.io.OUT tx := by
  obtain ⟨hp, hs, hr, -⟩ := gate_wait hw
  exact ⟨_, decWrite_oneTransaction (u := decRecv b u) (fun h rs => gate_pass _ hp hs hr)
    (fun _ => ⟨_, .inl rfl, rfl⟩)⟩

end

end

end Sys2Proof.Machine
end

section
/-! PROOFS. A unit in the middle of a transaction, and what a clock edge transfers (30_encoding.md R76;
70_reset_and_hazards.md R147, R154). -/

namespace Sys2Proof.Machine

open Sys2Proof.Claims

/-! ### The transaction of an item -/

/-- What unit u's operation on the item w makes of every run of sink replies: one transaction tx (`OneTransaction`). -/
structure ItemTransaction (u : UnitId) (w : ItemWord) (s : State) (tx : List Byte) : Prop where
  whole : ∀ h rest, ∃ t, feedItem u w ((s.setHand u h).setSink u (List.replicate tx.length .accept ++ rest)) = .next t ∧
    (t.io u).OUT = (s.io u).OUT ++ tx
  failed : ∀ h k rest, k < tx.length → ∃ t,
    feedItem u w ((s.setHand u h).setSink u (List.replicate k .accept ++ .fail :: rest)) = .next t ∧
    (t.io u).phase = .failed ∧ (t.io u).err = .outputError ∧ (t.io u).OUT = (s.io u).OUT ++ tx.take k
  waits : ∀ h k, k < tx.length →
    feedItem u w ((s.setHand u h).setSink u (List.replicate k .accept)) = .fault (.sinkWait (tx.drop k))

/-- ENC's operation i, where it waits, is a function of ENC that makes one transaction. -/
theorem exec_enc_transaction {s : State} {i : Instr} {left : List Byte} (hi : isEncOp i = true)
    (h : exec i s = .fault (.sinkWait left)) :
    ∃ f : EncUnit → Flow EncUnit, (∀ s, exec i s = liftEnc s (f s.enc)) ∧
      ∃ tx, OneTransaction EncUnit.io (fun h rs => f (s.enc.rewired h rs)) s.enc.io.OUT tx := by
  have lift {x : Flow EncUnit} (hx : liftEnc s x = .fault (.sinkWait left)) : x = .stop (.sinkWait left) := by
    cases x <;> cases hx
    rfl
  cases i with
  | encByteLit b => exact ⟨_, fun _ => rfl, encByteLit_transaction (lift h)⟩
  | encByteRun b => exact ⟨_, fun _ => rfl, encByteRun_transaction (lift h)⟩
  | encEosLit d => exact ⟨_, fun _ => rfl, encEosLit_transaction (lift h)⟩
  | encEosRun d => exact ⟨_, fun _ => rfl, encEosRun_transaction (lift h)⟩
  | encRderr d => exact absurd (lift h) (gate_no_wait nofun)
  | encRsvd d => exact absurd (lift h) (gate_no_wait nofun)
  | _ => cases hi

/-- DEC's item operation i, where it waits, is a function of DEC that makes one transaction. -/
theorem exec_dec_transaction {s : State} {i : Instr} {t : Byte} {left : List Byte}
    (hi : i.selectedIn (.dec t) = true) (h : exec i s = .fault (.sinkWait left)) :
    ∃ f : DecUnit → Flow DecUnit, (∀ s, exec i s = liftDec s (f s.dec)) ∧
      ∃ tx, OneTransaction DecUnit.io (fun h rs => f (s.dec.rewired h rs)) s.dec.io.OUT tx := by
  have lift {x : Flow DecUnit} (hx : liftDec s x = .fault (.sinkWait left)) : x = .stop (.sinkWait left) := by
    cases x <;> cases hx
    rfl
  cases i with
  | decRunval b => exact ⟨_, fun _ => rfl, decRunval_transaction (lift h)⟩
  | decLitbyte b => exact ⟨_, fun _ => rfl, decLitbyte_transaction (lift h)⟩
  | decTagSentinel => exact absurd (lift h) (gate_no_wait nofun)
  | decTagRun t => exact absurd (lift h) (gate_no_wait nofun)
  | decTagLit t => exact absurd (lift h) (gate_no_wait nofun)
  | decEosIdle d => exact absurd (lift h) (gate_no_wait nofun)
  | decEosMid d => exact absurd (lift h) (gate_no_wait nofun)
  | decRderr d => exact absurd (lift h) (gate_no_wait nofun)
  | decRsvd d => exact absurd (lift h) (gate_no_wait nofun)
  | _ => cases hi

/-- An item whose operation waits for the sink makes one transaction. -/
theorem itemTransaction_of_wait {u : UnitId} {w : ItemWord} {s : State} {left : List Byte}
    (h : feedItem u w s = .fault (.sinkWait left)) : ∃ tx, ItemTransaction u w s tx := by
  cases u with
  | enc =>
    obtain ⟨f, hf, tx, hwhole, hfailed, hwaits⟩ := exec_enc_transaction (isEncOp_decode_enc s.enc.mode w) h
    have hfeed (hd rs) : feedItem .enc w ((s.setHand .enc hd).setSink .enc rs) =
        liftEnc ((s.setHand .enc hd).setSink .enc rs) (f (s.enc.rewired hd rs)) := hf _
    refine ⟨tx, fun hd rest => ?_, fun hd k rest hk => ?_, fun hd k hk => ?_⟩
    · obtain ⟨v, hv, hout⟩ := hwhole hd rest
      exact ⟨_, (hfeed _ _).trans (liftEnc_of_answers _ hv), hout⟩
    · obtain ⟨v, hv, hout⟩ := hfailed hd k rest hk
      exact ⟨_, (hfeed _ _).trans (liftEnc_of_answers _ hv), hout⟩
    · rw [hfeed, hwaits hd k hk]
      rfl
  | dec =>
    obtain ⟨-, hsel, -⟩ := decode_names (.dec s.dec.tag) w
    obtain ⟨f, hf, tx, hwhole, hfailed, hwaits⟩ := exec_dec_transaction hsel h
    have hfeed (hd rs) : feedItem .dec w ((s.setHand .dec hd).setSink .dec rs) =
        liftDec ((s.setHand .dec hd).setSink .dec rs) (f (s.dec.rewired hd rs)) := hf _
    refine ⟨tx, fun hd rest => ?_, fun hd k rest hk => ?_, fun hd k hk => ?_⟩
    · obtain ⟨v, hv, hout⟩ := hwhole hd rest
      exact ⟨_, (hfeed _ _).trans (liftDec_of_answers _ hv), hout⟩
    · obtain ⟨v, hv, hout⟩ := hfailed hd k rest hk
      exact ⟨_, (hfeed _ _).trans (liftDec_of_answers _ hv), hout⟩
    · rw [hfeed, hwaits hd k hk]
      rfl

/-! ### The hand and the sink of a unit -/

section
variable (u : UnitId) (s : State)

@[simp] theorem io_setHand (h : Option ItemWord) : (s.setHand u h).io u = { s.io u with hand := h } := by
  cases u <;> rfl

@[simp] theorem io_setSink (rs : List SinkReply) : (s.setSink u rs).io u = { s.io u with sink := rs } := by
  cases u <;> rfl

theorem setHand_self {h : Option ItemWord} (hh : (s.io u).hand = h) : s.setHand u h = s := by
  subst hh
  cases u <;> rfl

theorem setSink_self {rs : List SinkReply} (hs : (s.io u).sink = rs) : s.setSink u rs = s := by
  subst hs
  cases u <;> rfl

theorem setHand_setHand (h h' : Option ItemWord) : (s.setHand u h).setHand u h' = s.setHand u h' := by
  cases u <;> rfl

theorem setSink_setHand_setSink (h : Option ItemWord) (rs rs' : List SinkReply) :
    ((s.setSink u rs).setHand u h).setSink u rs' = (s.setHand u h).setSink u rs' := by
  cases u <;> rfl

theorem resetUnit_io : (resetUnit u s).io u = (s.io u).restart (streamsNow u s).2 := by
  cases u <;> rfl

end

/-! ### A unit in mid-transaction -/

/-- Unit u has the item w in hand, and the sink has taken k bytes of its transaction tx and not answered the next. -/
structure MidTransaction (u : UnitId) (w : ItemWord) (s : State) (tx : List Byte) (k : Nat) : Prop where
  hand : (s.io u).hand = some w
  item : ItemTransaction u w s tx
  sink : (s.io u).sink = List.replicate k .accept
  lt : k < tx.length

section
variable {u : UnitId} {w : ItemWord} {s : State} {tx : List Byte} {k : Nat}

theorem ItemTransaction.setHand (h : ItemTransaction u w s tx) (hd : Option ItemWord) :
    ItemTransaction u w (s.setHand u hd) tx := by
  obtain ⟨hwhole, hfailed, hwaits⟩ := h
  constructor <;> simpa only [setHand_setHand, io_setHand]

theorem ItemTransaction.setSink (h : ItemTransaction u w s tx) (rs : List SinkReply) :
    ItemTransaction u w (s.setSink u rs) tx := by
  obtain ⟨hwhole, hfailed, hwaits⟩ := h
  constructor <;> simpa only [setSink_setHand_setSink, io_setSink]

/-- An operation that waits does so with the bytes that the sink's replies have not taken. -/
theorem ItemTransaction.replies_of_wait {left : List Byte} (h : ItemTransaction u w s tx)
    (hw : feedItem u w s = .fault (.sinkWait left)) :
    ∃ k, k < tx.length ∧ (s.io u).sink = List.replicate k .accept ∧ left = tx.drop k := by
  have hself (rs) (hrs : (s.io u).sink = rs) : (s.setHand u (s.io u).hand).setSink u rs = s := by
    rw [setHand_self u s rfl, setSink_self u s hrs]
  rcases outWrite_cases tx (s.io u).sink with ⟨rest, -, hs⟩ | ⟨k, rest, -, hk, hs⟩ | ⟨k, -, hk, hs⟩
  · obtain ⟨t, ht, -⟩ := h.whole (s.io u).hand rest
    rw [hself _ hs, hw] at ht
    cases ht
  · obtain ⟨t, ht, -⟩ := h.failed (s.io u).hand k rest hk
    rw [hself _ hs, hw] at ht
    cases ht
  · have ht := h.waits (s.io u).hand k hk
    rw [hself _ hs, hw] at ht
    cases ht
    exact ⟨k, hk, hs, rfl⟩

/-- An item taken whose operation waits is in mid-transaction. -/
theorem midTransaction_of_taken {left : List Byte} (hw : feedItem u w s = .fault (.sinkWait left)) :
    ∃ tx k, MidTransaction u w (s.setHand u (some w)) tx k ∧ left = tx.drop k := by
  obtain ⟨tx, htx⟩ := itemTransaction_of_wait hw
  obtain ⟨k, hk, hs, hleft⟩ := htx.replies_of_wait hw
  exact ⟨tx, k, ⟨by rw [io_setHand], htx.setHand _, by rw [io_setHand, hs], hk⟩, hleft⟩

theorem outstanding_eq_some {left : List Byte} (h : outstanding u s = some left) :
    ∃ w, (s.io u).hand = some w ∧ feedItem u w s = .fault (.sinkWait left) := by
  rw [outstanding] at h
  split at h
  · cases h
  · rename_i w hh
    refine ⟨w, hh, ?_⟩
    split at h
    · cases h
    · rename_i f hf
      obtain ⟨left', rfl⟩ := untaken_isSome (f := f) (by rw [h]; rfl)
      cases h
      exact hf
    · cases h

/-- A unit with a transaction outstanding is in mid-transaction. -/
theorem midTransaction_of_outstanding {left : List Byte} (h : outstanding u s = some left) :
    ∃ w tx k, MidTransaction u w s tx k ∧ left = tx.drop k := by
  obtain ⟨w, hh, hw⟩ := outstanding_eq_some h
  obtain ⟨tx, k, hmid, hleft⟩ := midTransaction_of_taken hw
  rw [setHand_self u s hh] at hmid
  exact ⟨w, tx, k, hmid, hleft⟩

namespace MidTransaction
variable (h : MidTransaction u w s tx k)
include h

theorem setHand_some : s.setHand u (some w) = s := setHand_self u s h.hand

theorem outstanding : outstanding u s = some (tx.drop k) := by
  have hw := h.item.waits (some w) k h.lt
  rw [h.setHand_some, setSink_self u s h.sink] at hw
  simp [Machine.outstanding, h.hand, hw, Fault.untaken]

theorem outPins_inReady : (outPins u s).inReady = false := by
  simp [outPins, h.hand]

/-- What the operation makes of the failure of the next byte. -/
theorem feed_fail : ∃ t, feedItem u w (s.setSink u ((s.io u).sink ++ [.fail])) = .next t ∧
    (t.io u).phase = .failed ∧ (t.io u).err = .outputError ∧ (t.io u).OUT = (s.io u).OUT ++ tx.take k := by
  have hf := h.item.failed (some w) k [] h.lt
  rwa [h.setHand_some, ← h.sink] at hf

theorem streamsNow_out : (streamsNow u s).2 = (s.io u).OUT ++ tx.take k := by
  obtain ⟨t, ht, -, -, hout⟩ := h.feed_fail
  simp [streamsNow, h.hand, ht, hout]

/-- A reply that completes the step in hand. -/
theorem reply_completes {r : SinkReply} {t : State}
    (ht : feedItem u w (s.setSink u ((s.io u).sink ++ [r])) = .next t) :
    doAct (.reply u r) s = t.setHand u none := by
  simp [doAct, settle, h.hand, resumeItem_of_next ht]

/-- The sink fails the next byte: the step ends with what had been delivered (20_memory.md R48). -/
theorem reply_fail : ((doAct (.reply u .fail) s).io u).phase = .failed ∧
    ((doAct (.reply u .fail) s).io u).err = .outputError ∧ ((doAct (.reply u .fail) s).io u).hand = none ∧
    ((doAct (.reply u .fail) s).io u).OUT = (streamsNow u s).2 := by
  obtain ⟨t, ht, hp, he, hout⟩ := h.feed_fail
  rw [h.reply_completes ht, io_setHand]
  exact ⟨hp, he, rfl, hout.trans h.streamsNow_out.symm⟩

/-- A byte taken that is not the last completes nothing. -/
theorem reply_accept_waits (hk : k + 1 < tx.length) :
    doAct (.reply u .accept) s = s.setSink u (List.replicate (k + 1) .accept) := by
  have hs : (s.io u).sink ++ [.accept] = List.replicate (k + 1) .accept := by
    rw [h.sink, List.replicate_succ']
  have hw := h.item.waits (some w) (k + 1) hk
  rw [h.setHand_some] at hw
  simp [doAct, settle, hs, h.hand, resumeItem_of_fault hw]

/-- The sink takes a byte that is not the last: the transaction goes on. -/
theorem reply_accept_more (hk : k + 1 < tx.length) : MidTransaction u w (doAct (.reply u .accept) s) tx (k + 1) := by
  rw [h.reply_accept_waits hk]
  exact ⟨by rw [io_setSink, h.hand], h.item.setSink _, by rw [io_setSink], hk⟩

/-- The sink takes the last byte: the step is complete. -/
theorem reply_accept_last (hk : k + 1 = tx.length) : ((doAct (.reply u .accept) s).io u).hand = none ∧
    ((doAct (.reply u .accept) s).io u).OUT = (s.io u).OUT ++ tx := by
  have hs : (s.io u).sink ++ [.accept] = List.replicate tx.length .accept ++ [] := by
    rw [h.sink, ← hk, List.replicate_succ', List.append_nil]
  obtain ⟨t, ht, hout⟩ := h.item.whole (some w) []
  rw [h.setHand_some, ← hs] at ht
  rw [h.reply_completes ht, io_setHand]
  exact ⟨rfl, hout⟩

/-- The sink takes the next byte b: it is delivered, and the rest is outstanding, or the step complete where none is. -/
theorem reply_accept {b : Byte} {left : List Byte} (hb : tx.drop k = b :: left) :
    (streamsNow u (doAct (.reply u .accept) s)).2 = (streamsNow u s).2 ++ [b] ∧
    (left ≠ [] → Machine.outstanding u (doAct (.reply u .accept) s) = some left) ∧
    (left = [] → ((doAct (.reply u .accept) s).io u).hand = none) := by
  have hlen : tx.length - k = left.length + 1 := by rw [← List.length_drop, hb, List.length_cons]
  have htake : tx.take (k + 1) = tx.take k ++ [b] := by rw [List.take_add, hb]; rfl
  have hdrop : tx.drop (k + 1) = left := by rw [← List.drop_drop, hb]; rfl
  by_cases hlast : left = []
  · have hk : k + 1 = tx.length := by
      rw [hlast, List.length_nil] at hlen
      omega
    obtain ⟨hhand, hout⟩ := h.reply_accept_last hk
    refine ⟨?_, fun hne => absurd hlast hne, fun _ => hhand⟩
    rw [streamsNow, hhand, h.streamsNow_out, List.append_assoc, ← htake, hk, List.take_length]
    exact hout
  · have hk : k + 1 < tx.length := by
      have := List.length_pos_iff.mpr hlast
      omega
    have hmore := h.reply_accept_more hk
    refine ⟨?_, fun _ => hdrop ▸ hmore.outstanding, fun he => absurd he hlast⟩
    rw [hmore.streamsNow_out, h.streamsNow_out, htake, List.append_assoc, h.reply_accept_waits hk, io_setSink]

end MidTransaction

end

/-! ### What an edge transfers -/

section
variable {u : UnitId} {s : State} {p : InPins}

/-- The step of an item leaves the channel and the output of earlier invocations as they are. -/
theorem feedItem_keeps {w : ItemWord} {t : State} (h : feedItem u w s = .next t) :
    (t.io u).inQ = (s.io u).inQ ∧ (t.io u).earlier = (s.io u).earlier := by
  cases u with
  | enc =>
    obtain ⟨v, hv, rfl⟩ := exec_enc_next (isEncOp_decode_enc s.enc.mode w) h
    have ext := hv.io_extends
    exact ⟨ext.inQ, ext.earlier⟩
  | dec =>
    obtain ⟨v, hv, rfl⟩ := exec_dec_next (isEncOp_decode_dec s.dec.tag w) h
    obtain ⟨bs, ext⟩ := hv.io_extends
    exact ⟨ext.inQ, ext.earlier⟩

theorem reply_keeps (r : SinkReply) : ((doAct (.reply u r) s).io u).inQ = (s.io u).inQ ∧
    ((doAct (.reply u r) s).io u).earlier = (s.io u).earlier := by
  rw [doAct]
  rcases settle_cases u (s.setSink u ((s.io u).sink ++ [r])) with e | ⟨w, t, -, ht, e⟩ <;> rw [e]
  · rw [io_setSink]
    exact ⟨rfl, rfl⟩
  · have hkeep := feedItem_keeps ht
    rw [io_setSink] at hkeep
    rw [io_setHand]
    exact hkeep

theorem outByte_eq_some {b : Byte} {last : Bool} (h : (outPins u s).outByte = some (b, last)) :
    ∃ left, outstanding u s = some (b :: left) := by
  rw [outPins] at h
  cases ho : outstanding u s with
  | none =>
    rw [ho] at h
    cases h
  | some l =>
    rw [ho] at h
    cases l with
    | nil => cases h
    | cons c left =>
      cases h
      exact ⟨left, rfl⟩

theorem outByte_of_outstanding {b : Byte} {left : List Byte} (h : outstanding u s = some (b :: left)) :
    (outPins u s).outByte = some (b, left.isEmpty) := by
  rw [outPins, h]
  rfl

section
variable {o : OutPins} {x : Byte × Bool}

theorem byteTransfer_fail (ho : o.outByte = some x) (he : p.outErr = true) : byteTransfer p o = some .fail := by
  simp [byteTransfer, ho, he]

theorem byteTransfer_accept (ho : o.outByte = some x) (he : p.outErr = false) (hr : p.outReady = true) :
    byteTransfer p o = some .accept := by
  simp [byteTransfer, ho, he, hr]

theorem byteTransfer_none (h : o.outByte = none ∨ (p.outErr = false ∧ p.outReady = false)) :
    byteTransfer p o = none := by
  rw [byteTransfer]
  rcases h with ho | ⟨he, hr⟩
  · rw [ho]
  · split
    · rfl
    · simp [he, hr]

end

theorem edge_of_no_item (hrst : p.rst = false) (h : p.inValid = false ∨ (outPins u s).inReady = false) :
    edge u p s = .next (afterByte u (byteTransfer p (outPins u s)) s) := by
  have hitem : itemTransfer p (outPins u s) = none := by
    rcases h with h | h <;> simp [itemTransfer, h]
  simp [edge, hrst, hitem]

/-- An item offered to an ACTIVE unit with nothing in hand and an empty channel is taken. -/
theorem edge_of_item (hrst : p.rst = false) (hp : (s.io u).phase = .active) (hh : (s.io u).hand = none)
    (hq : (s.io u).inQ = []) (hv : p.inValid = true) : edge u p s = takeItem u (mkItem p.inKind p.inData) s := by
  have hitem : itemTransfer p (outPins u s) = some (mkItem p.inKind p.inData) := by
    simp [itemTransfer, outPins, hrst, hp, hh, hq, hv]
  simp [edge, hrst, hitem]

/-- A byte that the sink fails on an edge ends the step. -/
theorem edge_out_err {b : Byte} {left : List Byte} (hrst : p.rst = false) (ho : outstanding u s = some (b :: left))
    (he : p.outErr = true) : ∃ t, edge u p s = .next t ∧ (t.io u).phase = .failed ∧ (t.io u).err = .outputError ∧
      (t.io u).hand = none ∧ (t.io u).OUT = (streamsNow u s).2 := by
  obtain ⟨w, tx, k, hmid, -⟩ := midTransaction_of_outstanding ho
  rw [edge_of_no_item hrst (.inr hmid.outPins_inReady), byteTransfer_fail (outByte_of_outstanding ho) he]
  exact ⟨_, rfl, hmid.reply_fail⟩

/-- A byte that the sink takes on an edge is delivered, and the last one completes the step. -/
theorem edge_out_ready {b : Byte} {left : List Byte} (hrst : p.rst = false) (ho : outstanding u s = some (b :: left))
    (he : p.outErr = false) (hr : p.outReady = true) :
    ∃ t, edge u p s = .next t ∧ (streamsNow u t).2 = (streamsNow u s).2 ++ [b] ∧
      (left ≠ [] → outstanding u t = some left) ∧ (left = [] → (t.io u).hand = none) := by
  obtain ⟨w, tx, k, hmid, hleft⟩ := midTransaction_of_outstanding ho
  rw [edge_of_no_item hrst (.inr hmid.outPins_inReady), byteTransfer_accept (outByte_of_outstanding ho) he hr]
  exact ⟨_, rfl, hmid.reply_accept hleft.symm⟩

/-- An item taken on an edge whose transaction the sink has not answered is in hand. -/
theorem edge_item_waits {left : List Byte} (hrst : p.rst = false) (hp : (s.io u).phase = .active)
    (hh : (s.io u).hand = none) (hq : (s.io u).inQ = []) (hv : p.inValid = true)
    (hw : feedItem u (mkItem p.inKind p.inData) s = .fault (.sinkWait left)) :
    ∃ t, edge u p s = .next t ∧ (t.io u).hand = some (mkItem p.inKind p.inData) ∧
      outstanding u t = some left ∧ (outPins u t).inReady = false := by
  obtain ⟨tx, k, hmid, rfl⟩ := midTransaction_of_taken hw
  rw [edge_of_item hrst hp hh hq hv, takeItem_of_wait hw]
  exact ⟨_, rfl, hmid.hand, hmid.outstanding, hmid.outPins_inReady⟩

/-- What the byte of an edge leaves of the channel, and of the output with the step in progress counted. -/
theorem afterByte_keeps (r : Option SinkReply) : ((afterByte u r s).io u).inQ = (s.io u).inQ ∧
    ((afterByte u r s).io u).earlier = (s.io u).earlier := by
  cases r with
  | none => exact ⟨rfl, rfl⟩
  | some r => exact reply_keeps r

/-- An edge with rst takes no item: the unit is reset after the byte of the edge (70_reset_and_hazards.md R147). -/
theorem edge_of_rst (hrst : p.rst = true) :
    edge u p s = .next (resetUnit u (afterByte u (byteTransfer p (outPins u s)) s)) := by
  simp [edge, hrst, doAct]

theorem streamsNow_after_accept {b : Byte} {last : Bool} (ho : (outPins u s).outByte = some (b, last))
    (he : p.outErr = false) (hr : p.outReady = true) :
    (streamsNow u (afterByte u (byteTransfer p (outPins u s)) s)).2 = (streamsNow u s).2 ++ [b] := by
  obtain ⟨left, hout⟩ := outByte_eq_some ho
  obtain ⟨w, tx, k, hmid, hleft⟩ := midTransaction_of_outstanding hout
  obtain ⟨hnow, -⟩ := hmid.reply_accept hleft.symm
  rw [byteTransfer_accept ho he hr]
  exact hnow

theorem streamsNow_after_no_byte (h : (outPins u s).outByte = none ∨ p.outErr = true ∨ p.outReady = false) :
    (streamsNow u (afterByte u (byteTransfer p (outPins u s)) s)).2 = (streamsNow u s).2 := by
  cases ho : (outPins u s).outByte with
  | none =>
    rw [byteTransfer_none (.inl ho)]
    rfl
  | some x =>
    obtain ⟨b, last⟩ := x
    cases he : p.outErr with
    | true =>
      obtain ⟨left, hout⟩ := outByte_eq_some ho
      obtain ⟨w, tx, k, hmid, -⟩ := midTransaction_of_outstanding hout
      obtain ⟨-, -, hhand, hnow⟩ := hmid.reply_fail
      rw [byteTransfer_fail ho he, afterByte, streamsNow, hhand]
      exact hnow
    | false =>
      have hr : p.outReady = false := by simpa [ho, he] using h
      rw [byteTransfer_none (.inr ⟨he, hr⟩)]
      rfl

end

end Sys2Proof.Machine

namespace Sys2Proof.Proofs

open Sys2Proof.Machine

/-- Settles O51: an operation that waits makes one transaction, so a state with an item in hand says how many bytes the
sink has taken, and the answer of an edge moves it on by one or ends it; the reset of an edge comes after that. -/
theorem edgeTransfers : Obligations.EdgeTransfers := by
  intro u s p
  refine ⟨fun hrst hp hh hq hv => ⟨fun t ht => ?_, fun left hw => edge_item_waits hrst hp hh hq hv hw⟩,
    fun hrst hitem hbyte => ?_,
    fun w b left hrst _ ho => ⟨edge_out_err hrst ho, edge_out_ready hrst ho⟩,
    fun hrst => ⟨_, edge_of_rst hrst, ?_⟩⟩
  · rw [edge_of_item hrst hp hh hq hv, takeItem_of_next ht]
  · rw [edge_of_no_item hrst hitem, byteTransfer_none hbyte]
    rfl
  · obtain ⟨hinQ, hearlier⟩ := afterByte_keeps (u := u) (s := s) (byteTransfer p (outPins u s))
    simp only [resetUnit_io, restart_phase, restart_err, restart_IN, restart_OUT, restart_hand, restart_inQ,
      restart_earlier, hinQ, hearlier, true_and]
    refine ⟨fun b last ho he hr => ?_, fun hno => ?_⟩
    · rw [streamsNow_after_accept ho he hr, List.append_assoc]
    · rw [streamsNow_after_no_byte hno]

end Sys2Proof.Proofs
end

section
/-! PROOFS. What ENC's operations leave behind where the sink answers their transaction, by the bytes pending
(40_encoder.md R83 to R88). -/

namespace Sys2Proof.Machine

/-! Each of ENC's four operations that can write is a function of ENC alone, lifted to the machine (10_state.md R14). -/

theorem exec_encByteLit (b : Byte) (s : State) : exec (.encByteLit b) s = liftEnc s (encByteLit b s.enc) := rfl
theorem exec_encByteRun (b : Byte) (s : State) : exec (.encByteRun b) s = liftEnc s (encByteRun b s.enc) := rfl
theorem exec_encEosLit (d : Byte) (s : State) : exec (.encEosLit d) s = liftEnc s (encEosLit s.enc) := rfl
theorem exec_encEosRun (d : Byte) (s : State) : exec (.encEosRun d) s = liftEnc s (encEosRun s.enc) := rfl

section
variable {u : EncUnit} {p : List Byte} {b : Byte} {rest : List SinkReply}

/-- OutWrite where the sink fails the transaction after its first k bytes (20_memory.md R48; 60_exceptions.md R127). -/
theorem encWrite_fail {tx : List Byte} {k : Nat} (hk : k < tx.length)
    (hs : u.io.sink = List.replicate k .accept ++ .fail :: rest) : encWrite tx u = .ended (u.outputError tx k rest) := by
  simp [encWrite, ioWrite, hs, outWrite_fail tx k rest hk, EncUnit.outputError, UnitIO.wrote]

/-- A byte equal to the last of several pending ones has the others written as one literal, and starts a run. -/
theorem encByteLit_flushes_before_pair (hp : u.io.phase = .active) (hm : u.mode = .lit) (h1 : 1 ≤ p.length)
    (hcnt : u.cnt.toNat = p.length + 1) (h128 : u.cnt.toNat ≤ 128)
    (hspan : memSpan u.buf 0 u.cnt.toNat = .ok (p ++ [b])) :
    encByteLit b u = (encWrite (litTag p.length :: p) (u.appended b)).bind fun v => .go (v.running b) := by
  have hl := lastPairEqual_appended (b := b) h128 hspan
  rw [decide_eq_true (by simp)] at hl
  have happ : memSpan (u.appended b).buf 0 (u.cnt.toNat + 1) = .ok (p ++ [b] ++ [b]) :=
    memSpan_memInsert_end hspan (by simp only [bufCap_eq]; omega)
  have hbefore := memSpan_take (k := p.length) happ (by omega)
  rw [List.append_assoc, List.take_left] at hbefore
  rw [encByteLit_active hp hm h128, appendByte_of_pair h128 hl, runStart, show u.cnt.toNat + 1 - 2 = p.length by omega,
    flushFirst_eq hbefore h1 (by omega)]
  rfl

/-- A byte unlike the last of 128 pending ones has them written as one literal, and is then the only one pending. -/
theorem encByteLit_flushes_full (hp : u.io.phase = .active) (hm : u.mode = .lit) (hcnt : u.cnt.toNat = 128)
    (hspan : memSpan u.buf 0 u.cnt.toNat = .ok p) (hb : p.getLast? ≠ some b)
    (hs : u.io.sink = List.replicate 129 .accept ++ rest) :
    encByteLit b u = .go { (u.appended b).sent (litTag 128 :: p) rest with
      buf := memInsert (u.appended b).buf 0 b, cnt := 1 } := by
  have hl := lastPairEqual_appended (b := b) (by omega) hspan
  rw [decide_eq_false hb] at hl
  have happ : memSpan (u.appended b).buf 0 128 = .ok p := by
    rw [hcnt] at hspan
    rw [← hspan, EncUnit.appended, hcnt]
    exact memSpan_memInsert_outside (by omega)
  have hlast : memRead (u.appended b).buf 128 = .ok b := by
    rw [EncUnit.appended, hcnt]
    exact memRead_memWrite_same (memWrite_ok (by simp))
  have hwrite : encWrite (litTag 128 :: p) (u.appended b) = .go ((u.appended b).sent (litTag 128 :: p) rest) :=
    encWrite_accept (by rw [List.length_cons, memSpan_length happ]; exact hs)
  rw [encByteLit_active hp hm (by omega), appendByte_of_no_pair (by omega) hl, if_pos (by simp [hcnt]), fullBuffer,
    litMax_eq, flushFirst_eq happ (by omega) (by omega), hwrite]
  simp [EncUnit.sent, hlast, memWrite_ok]

/-- A byte unlike the value of the run has the run written, and is then the only one pending. -/
theorem encByteRun_closed_by_unequal (hp : u.io.phase = .active) (hm : u.mode = .run) (h2 : 2 ≤ u.runLen.toNat)
    (h126 : u.runLen.toNat ≤ 126) (hb : b ≠ u.runVal) (hs : u.io.sink = List.replicate 2 .accept ++ rest) :
    encByteRun b u = .go (((encRecv b u).sent [runTag u.runLen.toNat, u.runVal] rest).restarted b) := by
  rw [encByteRun_active hp hm h2 h126, extendRun_unequal hb h2 h126, encWrite_accept (rest := rest) (by exact hs)]
  rfl

/-- EOS in LIT where the sink fails the literal of the pending bytes (40_encoder.md R86; 60_exceptions.md R127). -/
theorem encEosLit_fails {k : Nat} (hp : u.io.phase = .active) (hm : u.mode = .lit) (h1 : 1 ≤ u.cnt.toNat)
    (h128 : u.cnt.toNat ≤ 128) (hspan : memSpan u.buf 0 u.cnt.toNat = .ok p) (hk : k < p.length + 1)
    (hs : u.io.sink = List.replicate k .accept ++ .fail :: rest) :
    encEosLit u = .ended (u.outputError (litTag p.length :: p) k rest) := by
  rw [encEosLit, gate_pass _ hp (by simp [hm]) (by simpa [litInRange] using h128), flushFirst_eq hspan h1 h128,
    ← memSpan_length hspan, encWrite_fail hk hs]
  rfl

/-- EOS in RUN where the sink fails the run (40_encoder.md R87; 60_exceptions.md R127). -/
theorem encEosRun_fails {k : Nat} (hp : u.io.phase = .active) (hm : u.mode = .run) (h2 : 2 ≤ u.runLen.toNat)
    (h126 : u.runLen.toNat ≤ 126) (hk : k < 2) (hs : u.io.sink = List.replicate k .accept ++ .fail :: rest) :
    encEosRun u = .ended (u.outputError [runTag u.runLen.toNat, u.runVal] k rest) := by
  rw [encEosRun, gate_pass _ hp (by simp [hm]) (by simp [runInRange, h2, h126]), emitRun_eq _ _ h2 (by omega),
    encWrite_fail hk hs]
  rfl

/-- RDERR ends ENC in any mode, with the pending bytes unwritten (40_encoder.md R88). -/
theorem encRderr_fails (hp : u.io.phase = .active) :
    encRderr u = .ended (EncUnit.unspecified { u with io := raise .inputError u.io }) :=
  gate_pass _ hp rfl rfl

end

end Sys2Proof.Machine

namespace Sys2Proof.Proofs

open Sys2Proof.Machine

/-- Settles O11: neither the run-start check nor the full-buffer check holds. -/
theorem encByteLitBuffersByte : Obligations.EncByteLitBuffersByte := by
  intro s b p hp hm hcnt hspan hb
  refine ⟨_, memWrite_ok (by simp only [bufCap_eq]; omega), ?_⟩
  rw [exec_encByteLit, encByteLit_buffers hp hm hcnt hspan hb]
  rfl

/-- Settles O12: the pair is all that is buffered, so the run start has nothing to flush. -/
theorem encByteLitStartsRunOfPair : Obligations.EncByteLitStartsRunOfPair := by
  intro s b hp hm hcnt hspan
  have hcnt1 : s.enc.cnt.toNat = 1 := by rw [hcnt]; rfl
  rw [← hcnt1] at hspan ⊢
  refine ⟨_, memWrite_ok (by simp [hcnt1]), ?_⟩
  rw [exec_encByteLit, encByteLit_starts_run (b := b) hp hm (by omega) hspan rfl]
  rfl

/-- Settles O13: the run start flushes the bytes before the pair, at a full buffer too, since it is checked first. -/
theorem encByteLitFlushesAndStartsRun : Obligations.EncByteLitFlushesAndStartsRun := by
  intro s b p rest hp hm h1 hcnt h128 hspan hs
  refine ⟨_, memWrite_ok (by simp only [bufCap_eq]; omega), ?_⟩
  rw [exec_encByteLit, encByteLit_flushes_before_pair hp hm h1 hcnt h128 hspan,
    encWrite_accept (rest := rest) (by exact hs)]
  rfl

/-- Settles O14: with no run start the full-buffer check holds. -/
theorem encByteLitFlushesFullBuffer : Obligations.EncByteLitFlushesFullBuffer := by
  intro s b p rest hp hm hcnt hspan hb hs
  have happ : (s.enc.appended b).buf = memInsert s.enc.buf 128 b := by rw [EncUnit.appended, hcnt]
  rw [← hcnt] at hspan
  refine ⟨_, _, memWrite_ok (by simp), memWrite_ok (by simp), ?_⟩
  rw [exec_encByteLit, encByteLit_flushes_full hp hm hcnt hspan hb hs, happ]
  rfl

/-- Settles O15: the run stays below 127. -/
theorem encByteRunExtendsRun : Obligations.EncByteRunExtendsRun := by
  intro s hp hm h2 h126
  rw [exec_encByteRun, encByteRun_active hp hm h2 (by omega), extendRun_equal rfl h126]
  rfl

/-- Settles O16: the equal byte makes the run 127 long. -/
theorem encByteRunClosesAt127 : Obligations.EncByteRunClosesAt127 := by
  intro s rest hp hm h126 hs
  have hlen : s.enc.runLen + 1 = 127 := by bv_omega
  rw [exec_encByteRun, encByteRun_closes hp hm h126 rfl hs, ← hlen]
  rfl

/-- Settles O17: the unequal byte closes the run. -/
theorem encByteRunClosedByUnequalByte : Obligations.EncByteRunClosedByUnequalByte := by
  intro s b rest hp hm h2 h126 hb hs
  refine ⟨_, memWrite_ok (by simp), ?_⟩
  rw [exec_encByteRun, encByteRun_closed_by_unequal hp hm h2 h126 hb hs]
  rfl

/-- Settles O18, by whether bytes are pending and by the sink's answer. -/
theorem encEosLitFlushesAndEnds : Obligations.EncEosLitFlushesAndEnds := by
  intro s d p rest hp hm h128 hspan
  have hlen := memSpan_length hspan
  rw [exec_encEosLit]
  refine ⟨fun hs => ?_, fun k hne hk hs => ?_⟩
  · by_cases hne : p = []
    · subst hne
      rw [encEosLit_of_empty hp hm hlen.symm]
      obtain rfl : s.enc.io.sink = rest := hs
      exact ⟨_, rfl, by simp [EncUnit.finished, EncUnit.unspecified, finish]⟩
    · have h1 := List.length_pos_iff.mpr hne
      rw [if_neg hne] at hs ⊢
      rw [encEosLit_flushes hp hm (by omega) h128 hspan hs]
      exact ⟨_, rfl, rfl⟩
  · have h1 := List.length_pos_iff.mpr hne
    rw [encEosLit_fails hp hm (by omega) h128 hspan hk hs]
    exact ⟨_, rfl, rfl⟩

/-- Settles O19, by the sink's answer. -/
theorem encEosRunFlushesAndEnds : Obligations.EncEosRunFlushesAndEnds := by
  intro s d rest hp hm h2 h126
  rw [exec_encEosRun]
  refine ⟨fun hs => ?_, fun k hk hs => ?_⟩
  · rw [encEosRun_flushes hp hm h2 h126 hs]
    exact ⟨_, rfl, rfl⟩
  · rw [encEosRun_fails hp hm h2 h126 hk hs]
    exact ⟨_, rfl, rfl⟩

/-- Settles O20: both items have the one meaning, which no register but phase selects. -/
theorem encReadErrorFails : Obligations.EncReadErrorFails := by
  intro s d i hi hp
  rcases hi with rfl | rfl
  all_goals exact ⟨_, congrArg (liftEnc s) (encRderr_fails hp), rfl⟩

end Sys2Proof.Proofs
end

section
/-! PROOFS. What ENC.BYTE.LIT and ENC.BYTE.RUN leave in the buffer and the run registers (log entry 12), and what one
ENC operation can write (40_encoder.md R93, R96). -/

namespace Sys2Proof.Machine

open Sys2Proof.Claims

/-! ### The buffer and the run registers -/

section
variable {u v : EncUnit} {b : Byte} {a : Nat}

theorem memRead_memInsert_other (m : Memory) {i : Nat} (hi : i < Config.bufCap) (ha : a ≠ i) :
    memRead (memInsert m i b) a = memRead m a :=
  memRead_memWrite_other (memWrite_ok hi) ha

theorem appended_memRead_other (hcnt : u.cnt.toNat ≤ 128) (ha : a ≠ u.cnt.toNat) :
    memRead (u.appended b).buf a = memRead u.buf a :=
  memRead_memInsert_other u.buf (by simp only [bufCap_eq]; omega) ha

theorem outputError_not_active {tx : List Byte} {k : Nat} {rest : List SinkReply} :
    (u.outputError tx k rest).io.phase ≠ .active := by simp [EncUnit.outputError]

/-- ENC.BYTE.LIT writes the entry at cnt, and entry 0 where it flushes a full buffer (40_encoder.md R83). -/
theorem encByteLit_memRead_other (h : (encByteLit b u).Answers v) (hv : v.io.phase = .active) (ha : a ≠ u.cnt.toNat)
    (h0 : a ≠ 0 ∨ u.cnt.toNat ≠ 128 ∨ v.mode = .run) : memRead v.buf a = memRead u.buf a := by
  obtain ⟨-, hm, hcnt, hcases⟩ := encByteLit_cases h
  have happ := appended_memRead_other (b := b) hcnt ha
  rcases hcases with ⟨-, -, rfl⟩ | ⟨-, -, rfl⟩ | ⟨p, -, -, -, hw⟩ | ⟨p, -, hfull, -, hw⟩
  · exact happ
  · exact happ
  · rcases hw with ⟨rest, -, rfl⟩ | ⟨k, rest, -, rfl, -⟩
    · exact happ
    · exact absurd hv outputError_not_active
  · rcases hw with ⟨rest, -, rfl⟩ | ⟨k, rest, -, rfl, -⟩
    · have ha0 : a ≠ 0 := by
        rcases h0 with h0 | h0 | h0
        · exact h0
        · exact absurd hfull h0
        · cases hm.symm.trans h0
      exact (memRead_memInsert_other _ (by simp) ha0).trans happ
    · exact absurd hv outputError_not_active

/-- ENC.BYTE.LIT sets the run registers on entering RUN alone (40_encoder.md R83). -/
theorem encByteLit_run_registers (h : (encByteLit b u).Answers v) (hv : v.io.phase = .active) (hlit : v.mode = .lit) :
    v.runVal = u.runVal ∧ v.runLen = u.runLen := by
  obtain ⟨-, -, -, ⟨-, -, rfl⟩ | ⟨-, -, rfl⟩ | ⟨p, -, -, -, hw⟩ | ⟨p, -, -, -, hw⟩⟩ := encByteLit_cases h
  · exact ⟨rfl, rfl⟩
  · cases hlit
  · rcases hw with ⟨rest, -, rfl⟩ | ⟨k, rest, -, rfl, -⟩
    · cases hlit
    · exact absurd hv outputError_not_active
  · rcases hw with ⟨rest, -, rfl⟩ | ⟨k, rest, -, rfl, -⟩
    · exact ⟨rfl, rfl⟩
    · exact absurd hv outputError_not_active

/-- ENC.BYTE.RUN, where it leaves ENC ACTIVE, has let the run go on, has closed it at 127, or has closed it with b the
only byte pending, at index 0 (40_encoder.md R85). -/
theorem encByteRun_frame (h : (encByteRun b u).Answers v) (hv : v.io.phase = .active) :
    (∀ a, (a ≠ 0 ∨ b = u.runVal) → memRead v.buf a = memRead u.buf a) ∧
    v.runVal = u.runVal ∧ (b ≠ u.runVal → v.runLen = u.runLen) ∧ (v.mode = .run → v.cnt = u.cnt) := by
  obtain ⟨-, -, -, -, ⟨hb, -, rfl⟩ | ⟨hb, -, hw⟩ | ⟨hb, hw⟩⟩ := encByteRun_cases h
  · exact ⟨fun _ _ => rfl, rfl, fun hne => absurd hb hne, fun _ => rfl⟩
  · rcases hw with ⟨rest, -, rfl⟩ | ⟨k, rest, -, rfl, -⟩
    · exact ⟨fun _ _ => rfl, rfl, fun hne => absurd hb hne, fun hrun => by cases hrun⟩
    · exact absurd hv outputError_not_active
  · rcases hw with ⟨rest, -, rfl⟩ | ⟨k, rest, -, rfl, -⟩
    · refine ⟨fun a ha => ?_, rfl, fun _ => rfl, fun hrun => by cases hrun⟩
      have ha0 : a ≠ 0 := ha.resolve_right hb
      exact memRead_memInsert_other u.buf (by simp) ha0
    · exact absurd hv outputError_not_active

end

/-! ### One frame at most -/

/-- From c to d a unit has written nothing, one whole frame in ENC's bounds, or with OutputError only the beginning of one
(40_encoder.md R93, R96; 60_exceptions.md R127). -/
def UnitIO.WroteAtMostOneFrame (c d : UnitIO) : Prop :=
  ∃ x, d.OUT = c.OUT ++ x ∧
    (x = [] ∨ ∃ f bs, inEncBounds f ∧ frameBytes f = some bs ∧ (x = bs ∨ (d.err = .outputError ∧ x <+: bs ∧ x ≠ bs)))

theorem inEncBounds_lit {p : List Byte} (h1 : 1 ≤ p.length) (h128 : p.length ≤ 128) : inEncBounds (.lit p) :=
  ⟨(isDataFrame_lit_iff p).mpr ⟨h1, h128⟩, by simp⟩

theorem inEncBounds_run {n : Nat} (v : Byte) (h2 : 2 ≤ n) (h127 : n ≤ 127) : inEncBounds (.run (runTag n) v) := by
  refine ⟨isDataFrame_run_runTag v (by omega) h127, fun t w e => ?_⟩
  cases e
  rwa [runTag_toNat h127]

section
variable {c d : UnitIO} {f : Instr} {tx : List Byte}

theorem UnitIO.WroteAtMostOneFrame.nothing (h : d.OUT = c.OUT) : c.WroteAtMostOneFrame d :=
  ⟨[], by rw [h, List.append_nil], .inl rfl⟩

theorem UnitIO.WroteAtMostOneFrame.whole (hf : inEncBounds f) (htx : frameBytes f = some tx)
    (h : d.OUT = c.OUT ++ tx) : c.WroteAtMostOneFrame d :=
  ⟨tx, h, .inr ⟨f, tx, hf, htx, .inl rfl⟩⟩

/-- What a failed transaction delivers is shorter than its frame. -/
theorem UnitIO.WroteAtMostOneFrame.failed {k : Nat} (hf : inEncBounds f) (htx : frameBytes f = some tx)
    (hk : k < tx.length) (he : d.err = .outputError) (h : d.OUT = c.OUT ++ tx.take k) : c.WroteAtMostOneFrame d := by
  have hstrict : tx.take k ≠ tx := fun e => by
    rw [List.take_eq_self_iff] at e
    omega
  exact ⟨tx.take k, h, .inr ⟨f, tx, hf, htx, .inr ⟨he, List.take_prefix _ _, hstrict⟩⟩⟩

end

section
variable {u v : EncUnit}

theorem encByteLit_writes {b : Byte} (h : (encByteLit b u).Answers v) : u.io.WroteAtMostOneFrame v.io := by
  obtain ⟨-, -, hcnt, ⟨-, -, rfl⟩ | ⟨-, -, rfl⟩ | ⟨p, -, h2, hspan, hw⟩ | ⟨p, -, -, hspan, hw⟩⟩ := encByteLit_cases h
  · exact .nothing rfl
  · exact .nothing rfl
  · have hlen := memSpan_length hspan
    have hf : inEncBounds (.lit p) := inEncBounds_lit (by omega) (by omega)
    rcases hw with ⟨rest, -, rfl⟩ | ⟨k, rest, hk, rfl, -⟩
    · exact .whole hf rfl rfl
    · exact .failed hf rfl hk rfl rfl
  · have hlen := memSpan_length hspan
    have hf : inEncBounds (.lit p) := inEncBounds_lit (by omega) (by omega)
    rw [← hlen] at hw
    rcases hw with ⟨rest, -, rfl⟩ | ⟨k, rest, hk, rfl, -⟩
    · exact .whole hf rfl rfl
    · exact .failed hf rfl (by simp [hlen, hk]) rfl rfl

theorem encByteRun_writes {b : Byte} (h : (encByteRun b u).Answers v) : u.io.WroteAtMostOneFrame v.io := by
  obtain ⟨-, -, h2, h126, ⟨-, -, rfl⟩ | ⟨-, -, hw⟩ | ⟨-, hw⟩⟩ := encByteRun_cases h
  · exact .nothing rfl
  · have hf := inEncBounds_run (n := 127) u.runVal (by omega) (by omega)
    rcases hw with ⟨rest, -, rfl⟩ | ⟨k, rest, hk, rfl, -⟩
    · exact .whole hf rfl rfl
    · exact .failed hf rfl hk rfl rfl
  · have hf := inEncBounds_run u.runVal h2 (by omega)
    rcases hw with ⟨rest, -, rfl⟩ | ⟨k, rest, hk, rfl, -⟩
    · exact .whole hf rfl rfl
    · exact .failed hf rfl hk rfl rfl

theorem encEosLit_writes (h : (encEosLit u).Answers v) : u.io.WroteAtMostOneFrame v.io := by
  obtain ⟨-, -, hcnt, ⟨-, rfl⟩ | ⟨p, hspan, h1, hw⟩⟩ := encEosLit_cases h
  · exact .nothing rfl
  · have hf := inEncBounds_lit h1 (memSpan_length hspan ▸ hcnt)
    rcases hw with ⟨rest, -, rfl⟩ | ⟨k, rest, hk, rfl, -⟩
    · exact .whole hf rfl rfl
    · exact .failed hf rfl hk rfl rfl

theorem encEosRun_writes (h : (encEosRun u).Answers v) : u.io.WroteAtMostOneFrame v.io := by
  obtain ⟨-, -, h2, h126, hw⟩ := encEosRun_cases h
  have hf := inEncBounds_run u.runVal h2 (by omega)
  rcases hw with ⟨rest, -, rfl⟩ | ⟨k, rest, hk, rfl, -⟩
  · exact .whole hf rfl rfl
  · exact .failed hf rfl hk rfl rfl

theorem encRderr_writes (h : (encRderr u).Answers v) : u.io.WroteAtMostOneFrame v.io := by
  obtain ⟨-, rfl⟩ := encRderr_cases h
  exact .nothing rfl

theorem EncOpStep.writes {i : Instr} (h : EncOpStep u v i) : u.io.WroteAtMostOneFrame v.io := by
  cases h with
  | byteLit b h => exact encByteLit_writes h
  | byteRun b h => exact encByteRun_writes h
  | eosLit d h => exact encEosLit_writes h
  | eosRun d h => exact encEosRun_writes h
  | rderr d h => exact encRderr_writes h
  | rsvd d h => exact encRderr_writes h

end

end Sys2Proof.Machine

namespace Sys2Proof.Proofs

open Sys2Proof.Machine

/-- Settles O24, by the inversion of ENC.BYTE.LIT: a failed write, which leaves free values, does not end ACTIVE. -/
theorem encByteLitFrame : Obligations.EncByteLitFrame := by
  intro s t b h ht
  rw [exec_encByteLit] at h
  obtain ⟨v, hv, rfl⟩ := liftEnc_next h
  exact ⟨fun a => encByteLit_memRead_other hv ht, encByteLit_run_registers hv ht⟩

/-- Settles O25, by the inversion of ENC.BYTE.RUN: a failed write, which leaves free values, does not end ACTIVE. -/
theorem encByteRunFrame : Obligations.EncByteRunFrame := by
  intro s t b h ht
  rw [exec_encByteRun] at h
  obtain ⟨v, hv, rfl⟩ := liftEnc_next h
  exact encByteRun_frame hv ht

/-- Settles O26, by the inversion of each ENC operation: its one transaction is a frame whose length its ranges bound. -/
theorem encStepWritesAtMostOneFrame : Obligations.EncStepWritesAtMostOneFrame := by
  intro s t i hi h
  obtain ⟨v, hv, rfl⟩ := exec_enc_next hi h
  exact hv.writes

end Sys2Proof.Proofs
end

section
/-! PROOFS. ENC's output decodes to what it stands for (40_encoder.md R94), and how many bytes ENC takes without writing:
by losslessness they are all pending (10_state.md R31; 40_encoder.md R97). -/

namespace Sys2Proof.Machine

open Sys2Proof.Claims

/-! ### Whole frames of ENC decode to what they stand for -/

/-- A frame ENC may write is a frame of the stream grammar (30_encoding.md R57). -/
theorem isDataFrame_of_isEncFrame {f : Instr} (h : isEncFrame f = true) : isDataFrame f = true := by
  cases f with
  | run t v => exact (Bool.and_eq_true_iff.mp h).1
  | lit p => exact (Bool.and_eq_true_iff.mp h).1
  | _ => cases h

theorem encWrote_wireDecode {written out : List Byte} (h : encWrote written out) :
    wireDecode written = { out := out, result := .ok, used := written.length } := by
  obtain ⟨fs, hfs, rfl, rfl⟩ := h
  have hdata : fs.all isDataFrame = true :=
    List.all_eq_true.mpr fun f hf => isDataFrame_of_isEncFrame (List.all_eq_true.mp hfs f hf)
  have hd := wireDecode_frames hdata []
  rw [List.append_nil] at hd
  simp [hd, wireDecode_nil, WireDecoded.after]

/-- What ENC has written stands for one list of bytes only. -/
theorem encWrote_unique {written out out' : List Byte} (h : encWrote written out) (h' : encWrote written out') :
    out = out' :=
  congrArg WireDecoded.out ((encWrote_wireDecode h).symm.trans (encWrote_wireDecode h'))

/-! ### At most 128 bytes are pending -/

/-- ENC owes at most 128 bytes while it is ACTIVE (10_state.md R31). -/
theorem EncUnit.ActiveInv.owes {u : EncUnit} (h : u.ActiveInv) : ∃ p, u.io.Owes p ∧ p.length ≤ 128 := by
  cases hm : u.mode with
  | lit =>
    obtain ⟨p, -, hcnt, hspan, -, howes⟩ := h.inLit hm
    exact ⟨p, howes, by rwa [memSpan_length hspan]⟩
  | run =>
    obtain ⟨-, -, h126, howes⟩ := h.inRun hm
    exact ⟨_, howes, by rw [List.length_replicate]; omega⟩

/-- A feed that does not end the invocation feeds its first item, and then the others. -/
theorem feed_cons_active {u : UnitId} {w : ItemWord} {ws : List ItemWord} {s t : State}
    (h : feed u (w :: ws) s = .next t) (ht : (t.io u).phase = .active) :
    ∃ r, feedItem u w s = .next r ∧ feed u ws r = .next t := by
  rw [feed] at h
  split at h
  · rename_i r hr
    split at h
    · rename_i hend
      cases h
      simp [ht, Phase.isTerminal] at hend
    · exact ⟨r, hr, h⟩
  · cases h
  · cases h

/-- What the item BYTE(b) appends to ENC's IN, in either mode. -/
theorem itemBytes_decode_enc_byte (m : EncMode) (b : Byte) : itemBytes (decode (.enc m) (byteItem b)) = [b] := by
  cases m with
  | lit => rw [decode_enc_lit_byte]; rfl
  | run => rw [decode_enc_run_byte]; rfl

/-- A byte that ENC takes is appended to IN, and ENC keeps its invariant. -/
theorem feedItem_enc_byte {s r : State} {b : Byte} (hs : s.enc.Inv) (h : feedItem .enc (byteItem b) s = .next r) :
    r.enc.Inv ∧ r.enc.io.IN = s.enc.io.IN ++ [b] := by
  obtain ⟨v, hv, rfl⟩ := exec_enc_next (isEncOp_decode_enc s.enc.mode (byteItem b)) h
  exact ⟨hv.inv hs, by rw [hv.io_extends.IN, itemBytes_decode_enc_byte]⟩

/-- Bytes fed to an ENC that stays ACTIVE keep its invariant, and are all consumed. -/
theorem feed_enc_bytes {s t : State} {bs : List Byte} (hs : s.enc.Inv) (h : feed .enc (bs.map byteItem) s = .next t)
    (ht : t.enc.io.phase = .active) : t.enc.Inv ∧ t.enc.io.IN = s.enc.io.IN ++ bs := by
  induction bs generalizing s with
  | nil =>
    cases h
    exact ⟨hs, (List.append_nil _).symm⟩
  | cons b bs ih =>
    obtain ⟨r, hr, hrest⟩ := feed_cons_active h ht
    obtain ⟨hinv, hIN⟩ := feedItem_enc_byte hs hr
    obtain ⟨hinv', hIN'⟩ := ih hinv hrest
    exact ⟨hinv', by rw [hIN', hIN, List.append_assoc, List.singleton_append]⟩

/-- Where OUT has not changed, the bytes consumed since are still owed. -/
theorem consumed_le_owed {c d : UnitIO} {p q bs : List Byte} (hc : c.Owes p) (hd : d.Owes q) (hOUT : d.OUT = c.OUT)
    (hIN : d.IN = c.IN ++ bs) : bs.length ≤ q.length := by
  obtain ⟨out, hw, hp⟩ := hc
  obtain ⟨out', hw', hq⟩ := hd
  rw [hOUT] at hw'
  obtain rfl := encWrote_unique hw hw'
  rw [hq, hp] at hIN
  have := congrArg List.length hIN
  simp only [List.length_append] at this
  omega

/-! ### 128 bytes without equal neighbours are buffered -/

/-- Bytes that fit behind the pending ones p, with no two neighbours equal, are buffered one by one. -/
theorem feed_distinct {s : State} {p bs : List Byte} (hp : s.enc.io.phase = .active) (hm : s.enc.mode = .lit)
    (hspan : memSpan s.enc.buf 0 s.enc.cnt.toNat = .ok p) (hroom : p.length + bs.length ≤ 128)
    (hadj : noAdjacentEqual (p ++ bs) = true) :
    ∃ t, feed .enc (bs.map byteItem) s = .next t ∧ t.enc.io.phase = .active ∧ t.enc.io.OUT = s.enc.io.OUT := by
  induction bs generalizing s p with
  | nil => exact ⟨s, rfl, hp, rfl⟩
  | cons b bs ih =>
    have hlen := memSpan_length hspan
    rw [List.length_cons] at hroom
    have hb : p.getLast? ≠ some b := fun hlast => by
      obtain ⟨-, -, hne⟩ := List.isChain_append.mp ((noAdjacentEqual_iff _).mp hadj)
      exact hne b hlast b rfl rfl
    have hfeed : feedItem .enc (byteItem b) s = .next { s with enc := s.enc.appended b } := by
      rw [feedItem_enc_lit_byte b hm, encByteLit_buffers hp hm (by omega) hspan hb]
      rfl
    have hspan' : memSpan (s.enc.appended b).buf 0 (s.enc.appended b).cnt.toNat = .ok (p ++ [b]) := by
      rw [appended_cnt b (by omega)]
      exact memSpan_memInsert_end hspan (by simp only [bufCap_eq]; omega)
    obtain ⟨t, ht, hphase, hOUT⟩ := ih (s := { s with enc := s.enc.appended b }) (p := p ++ [b]) hp hm hspan'
      (by simp only [List.length_append, List.length_singleton]; omega) (by rwa [List.append_assoc])
    exact ⟨t, (feed_enc_cons _ hfeed hp).trans ht, hphase, hOUT⟩

end Sys2Proof.Machine

namespace Sys2Proof.Proofs

open Sys2Proof.Machine

/-- Settles O27: bytes taken with OUT unchanged are all pending, by losslessness before and after them; and from an empty
buffer each of 128 bytes unlike its neighbour is buffered. -/
theorem encSilentAtMost128Bytes : Obligations.EncSilentAtMost128Bytes := by
  refine ⟨fun s t bs hs hp h ht hOUT => ?_, fun s bs hp hm hcnt hlen hadj => ?_⟩
  · obtain ⟨hinv, hIN⟩ := feed_enc_bytes hs h ht
    obtain ⟨-, -, ha⟩ := hs.active hp
    obtain ⟨-, -, ha'⟩ := hinv.active ht
    obtain ⟨p, howes, -⟩ := ha.owes
    obtain ⟨q, howes', h128⟩ := ha'.owes
    exact (consumed_le_owed howes howes' hOUT hIN).trans h128
  · exact feed_distinct (p := []) hp hm (by rw [hcnt]; rfl) (by simp [hlen]) hadj

/-- Settles O57: in DONE the sink holds whole frames that stand for IN. -/
theorem encDoneRoundTrip : Obligations.EncDoneRoundTrip := by
  intro u hu hp
  obtain ⟨-, -, -, -, hdone, -⟩ := hu
  exact encWrote_wireDecode (hdone hp)

end Sys2Proof.Proofs
end

section
/-! PROOFS. What DEC's operations leave behind, by the FSM state that selects them and by the sink's answer
(41_decoder.md R103 to R110). -/

namespace Sys2Proof.Machine

/-! An item operation of DEC is a function of DEC alone, lifted to the machine (10_state.md R14). -/

theorem exec_decTagRun (t : Byte) (s : State) : exec (.decTagRun t) s = liftDec s (decTagRun t s.dec) := rfl
theorem exec_decTagLit (t : Byte) (s : State) : exec (.decTagLit t) s = liftDec s (decTagLit t s.dec) := rfl
theorem exec_decRunval (b : Byte) (s : State) : exec (.decRunval b) s = liftDec s (decRunval b s.dec) := rfl
theorem exec_decLitbyte (b : Byte) (s : State) : exec (.decLitbyte b) s = liftDec s (decLitbyte b s.dec) := rfl
theorem exec_decEosIdle (d : Byte) (s : State) : exec (.decEosIdle d) s = liftDec s (decEosIdle s.dec) := rfl
theorem exec_decEosMid (d : Byte) (s : State) : exec (.decEosMid d) s = liftDec s (decEosMid s.dec) := rfl

section
variable {u : DecUnit} {b : Byte} {rest : List SinkReply}

theorem decTagSentinel_finishes (hp : u.io.phase = .active) (h0 : u.tag = 0) :
    decTagSentinel u = .ended (decRecv 0x00#8 u).finished :=
  gate_pass _ hp (by simp [betweenFrames, h0]) rfl

theorem decEosIdle_finishes (hp : u.io.phase = .active) (h0 : u.tag = 0) : decEosIdle u = .ended u.finished :=
  gate_pass _ hp (by simp [betweenFrames, h0]) rfl

theorem decEosMid_truncates (hp : u.io.phase = .active) (h0 : u.tag ≠ 0) :
    decEosMid u = .ended (DecUnit.unspecified { u with io := raise .truncatedStream u.io }) :=
  gate_pass _ hp (by simpa [betweenFrames] using h0) rfl

theorem decRderr_fails (hp : u.io.phase = .active) :
    decRderr u = .ended (DecUnit.unspecified { u with io := raise .inputError u.io }) :=
  gate_pass _ hp rfl rfl

/-- The count of a run is its tag (41_decoder.md R104). -/
theorem opened_run {t : Byte} (hc : tagClass t = .run) : u.opened t = { decRecv t u with tag := t, rem := t } := by
  simp [DecUnit.opened, tagCount_of_run hc]

/-- OutWrite where the sink fails the transaction after its first k bytes (20_memory.md R48; 60_exceptions.md R127). -/
theorem decWrite_fail {tx : List Byte} {k : Nat} (hk : k < tx.length)
    (hs : u.io.sink = List.replicate k .accept ++ .fail :: rest) :
    decWrite tx u = .ended (u.outputError tx k rest) := by
  simp [decWrite, ioWrite, hs, outWrite_fail tx k rest hk, DecUnit.outputError, UnitIO.wrote]

theorem decRunval_fails {k : Nat} (hp : u.io.phase = .active) (hc : tagClass u.tag = .run) (hr : u.rem = u.tag)
    (hk : k < u.rem.toNat) (hs : u.io.sink = List.replicate k .accept ++ .fail :: rest) :
    decRunval b u = .ended ((decRecv b u).outputError (List.replicate u.rem.toNat b) k rest) := by
  rw [decRunval, gate_pass _ hp (by simp [hc]) (by simp [hr]), decWrite_fail (u := decRecv b u) (by simpa using hk) hs]
  rfl

theorem decLitbyte_fails (hp : u.io.phase = .active) (hc : tagClass u.tag = .literal) (h1 : 1 ≤ u.rem.toNat)
    (h128 : u.rem.toNat ≤ 128) (hs : u.io.sink = .fail :: rest) :
    decLitbyte b u = .ended ((decRecv b u).outputError [b] 0 rest) := by
  rw [decLitbyte, gate_pass _ hp (by simp [hc]) (by simp [h1, h128]),
    decWrite_fail (u := decRecv b u) (k := 0) (by simp) hs]
  rfl

/-- One payload byte counted, with the register values as numbers (41_decoder.md R107). -/
theorem counted_eq (h1 : 1 ≤ u.rem.toNat) : u.counted =
    { u with rem := BitVec.ofNat 8 (u.rem.toNat - 1), tag := if u.rem.toNat = 1 then 0 else u.tag } := by
  by_cases hlast : u.rem.toNat = 1
  · rw [counted_last hlast, if_pos hlast, hlast]
    rfl
  · have hrem : u.rem - 1 = BitVec.ofNat 8 (u.rem.toNat - 1) := by bv_omega
    rw [counted_more (by omega), if_neg hlast, hrem]

end

end Sys2Proof.Machine

namespace Sys2Proof.Proofs

open Sys2Proof.Machine

/-- Settles O28: the item and the frame END have the one meaning. -/
theorem decSentinelEnds : Obligations.DecSentinelEnds := by
  intro s i hi hp h0
  rcases hi with rfl | rfl
  all_goals exact ⟨_, congrArg (liftDec s) (decTagSentinel_finishes hp h0), rfl⟩

/-- Settles O29: the count of a run tag is the tag. -/
theorem decTagRunOpensFrame : Obligations.DecTagRunOpensFrame := by
  intro s t hp h0 h1 h7F
  have hc : tagClass t = .run := (tagClass_run_iff t).mpr ⟨h1, h7F⟩
  rw [exec_decTagRun, decTagRun_opens hp h0 hc, opened_run hc]
  rfl

/-- Settles O30: the count of a literal tag t is 0x100 - t. -/
theorem decTagLitOpensFrame : Obligations.DecTagLitOpensFrame := by
  intro s t hp h0 h80
  have hc : tagClass t = .literal := (tagClass_literal_iff t).mpr h80
  rw [exec_decTagLit, decTagLit_opens hp h0 hc, DecUnit.opened, tagCount_of_literal hc]
  rfl

/-- Settles O31, by the sink's answer. -/
theorem decRunvalWritesCopies : Obligations.DecRunvalWritesCopies := by
  intro s b rest hp h1 h7F hr
  have hc : tagClass s.dec.tag = .run := (tagClass_run_iff _).mpr ⟨h1, h7F⟩
  rw [exec_decRunval]
  refine ⟨fun hs => ?_, fun k hk hs => ?_⟩
  · rw [decRunval_writes hp hc hr hs]
    rfl
  · rw [decRunval_fails hp hc hr hk hs]
    refine ⟨_, rfl, ?_⟩
    simp [DecUnit.outputError, DecUnit.unspecified, raise, UnitIO.wrote, recvByte, Nat.min_eq_left hk.le]

/-- Settles O32, by the sink's answer. -/
theorem decLitbyteCopiesByte : Obligations.DecLitbyteCopiesByte := by
  intro s b rest hp h80 h1 h128
  have hc : tagClass s.dec.tag = .literal := (tagClass_literal_iff _).mpr h80
  rw [exec_decLitbyte]
  refine ⟨fun hs => ?_, fun hs => ?_⟩
  · rw [decLitbyte_copies hp hc h1 h128 hs, counted_eq (by exact h1)]
    rfl
  · rw [decLitbyte_fails hp hc h1 h128 hs]
    refine ⟨_, rfl, ?_⟩
    simp [DecUnit.outputError, DecUnit.unspecified, raise, UnitIO.wrote, recvByte]

/-- Settles O34: between frames the end of input finishes the invocation. -/
theorem decEosIdleEnds : Obligations.DecEosIdleEnds := by
  intro s d hp h0
  rw [exec_decEosIdle, decEosIdle_finishes hp h0]
  exact ⟨_, rfl, rfl⟩

/-- Settles O35: in mid-frame the end of input raises TruncatedStream. -/
theorem decEosMidFails : Obligations.DecEosMidFails := by
  intro s d hp h0
  rw [exec_decEosMid, decEosMid_truncates hp h0]
  exact ⟨_, rfl, rfl⟩

/-- Settles O36: both items have the one meaning, which no register but phase selects. -/
theorem decReadErrorFails : Obligations.DecReadErrorFails := by
  intro s d i hi hp
  rcases hi with rfl | rfl
  all_goals exact ⟨_, congrArg (liftDec s) (decRderr_fails hp), rfl⟩

end Sys2Proof.Proofs
end

section
/-! PROOFS. DEC fed items one at a time: what one item can write (41_decoder.md R119), and a literal frame read in part
(R107, R112). -/

namespace Sys2Proof.Machine

open Sys2Proof.Claims

/-! ### The operation an item selects in DEC (30_encoding.md R75) -/

theorem feedItem_idle_sentinel {s : State} (h0 : s.dec.tag = 0x00#8) :
    feedItem .dec (byteItem 0x00#8) s = liftDec s (decTagSentinel s.dec) := by
  rw [feedItem, fsm_dec, h0, decode_dec_byte]
  rfl

theorem feedItem_eos_idle {s : State} (d : Byte) (h0 : s.dec.tag = 0x00#8) :
    feedItem .dec (mkItem 0b01#2 d) s = liftDec s (decEosIdle s.dec) := by
  rw [feedItem, fsm_dec, decode_dec_eos, if_pos h0]
  rfl

theorem feedItem_eos_mid {s : State} (d : Byte) (h0 : s.dec.tag ≠ 0x00#8) :
    feedItem .dec (mkItem 0b01#2 d) s = liftDec s (decEosMid s.dec) := by
  rw [feedItem, fsm_dec, decode_dec_eos, if_neg h0]
  rfl

theorem feedItem_dec_rderr (s : State) (d : Byte) :
    feedItem .dec (mkItem 0b10#2 d) s = liftDec s (decRderr s.dec) := by
  rw [feedItem, fsm_dec, decode_dec_rderr]
  rfl

theorem feedItem_dec_rsvd (s : State) (d : Byte) :
    feedItem .dec (mkItem 0b11#2 d) s = liftDec s (decRderr s.dec) := by
  rw [feedItem, fsm_dec, decode_dec_rsvd]
  rfl

/-! ### What one item can write -/

/-- From c to d a unit has consumed the bytes bs and written nothing. -/
def UnitIO.Silent (bs : List Byte) (c d : UnitIO) : Prop := d.IN = c.IN ++ bs ∧ d.OUT = c.OUT

section
variable {u v : DecUnit}

/-- A run's value byte is written as often as the run's tag says, at most 127 times. -/
theorem decRunval_OUT_le {b : Byte} (h : (decRunval b u).Answers v) : v.io.OUT.length ≤ u.io.OUT.length + 127 := by
  obtain ⟨-, hc, hr, hw⟩ := decRunval_cases h
  have hrange := (tagClass_run_iff u.tag).mp hc
  rw [← hr] at hrange
  rcases hw with ⟨rest, -, -, rfl⟩ | ⟨k, rest, hk, -, rfl, -⟩
  · simp [DecUnit.sent]
    omega
  · simp [DecUnit.outputError]
    omega

/-- A payload byte is written at most once. -/
theorem decLitbyte_OUT_le {b : Byte} (h : (decLitbyte b u).Answers v) : v.io.OUT.length ≤ u.io.OUT.length + 1 := by
  obtain ⟨-, -, -, -, ⟨rest, -, -, rfl⟩ | ⟨rest, -, rfl, -⟩⟩ := decLitbyte_cases h
  · simp [DecUnit.counted, DecUnit.sent]
  · simp [DecUnit.outputError]

theorem decTag_silent {t : Byte} (h : (decTagRun t u).Answers v ∨ (decTagLit t u).Answers v) :
    UnitIO.Silent [t] u.io v.io := by
  rcases h with h | h
  · obtain ⟨-, -, -, -, rfl⟩ := decTagRun_cases h
    exact ⟨rfl, rfl⟩
  · obtain ⟨-, -, -, -, rfl⟩ := decTagLit_cases h
    exact ⟨rfl, rfl⟩

end

/-- Between frames a byte is a tag, and writes nothing (41_decoder.md R102 to R105). -/
theorem feedItem_tag_silent {s t : State} {b : Byte} (h0 : s.dec.tag = 0x00#8)
    (h : feedItem .dec (byteItem b) s = .next t) : UnitIO.Silent [b] s.dec.io t.dec.io := by
  cases hc : tagClass b with
  | sentinel =>
    obtain rfl := (tagClass_sentinel_iff b).mp hc
    rw [feedItem_idle_sentinel h0] at h
    obtain ⟨v, hv, rfl⟩ := liftDec_next h
    obtain ⟨-, -, -, rfl⟩ := decTagSentinel_cases hv
    exact ⟨rfl, rfl⟩
  | run =>
    rw [feedItem_idle_run h0 hc] at h
    obtain ⟨v, hv, rfl⟩ := liftDec_next h
    exact decTag_silent (.inl hv)
  | literal =>
    rw [feedItem_idle_literal h0 hc] at h
    obtain ⟨v, hv, rfl⟩ := liftDec_next h
    exact decTag_silent (.inr hv)

/-- An item that is no byte is not consumed into IN, and writes nothing (41_decoder.md R108 to R110). -/
theorem feedItem_nonbyte_silent {s t : State} {d : Byte} {w : ItemWord}
    (hw : w = mkItem 0b01#2 d ∨ w = mkItem 0b10#2 d ∨ w = mkItem 0b11#2 d) (h : feedItem .dec w s = .next t) :
    UnitIO.Silent [] s.dec.io t.dec.io := by
  have raised : ∀ v, (decRderr s.dec).Answers v → UnitIO.Silent [] s.dec.io v.io := by
    intro v hv
    obtain ⟨-, rfl⟩ := decRderr_cases hv
    exact ⟨(List.append_nil _).symm, rfl⟩
  rcases hw with rfl | rfl | rfl
  · by_cases h0 : s.dec.tag = 0x00#8
    · rw [feedItem_eos_idle d h0] at h
      obtain ⟨v, hv, rfl⟩ := liftDec_next h
      obtain ⟨-, -, rfl⟩ := decEosIdle_cases hv
      exact ⟨(List.append_nil _).symm, rfl⟩
    · rw [feedItem_eos_mid d h0] at h
      obtain ⟨v, hv, rfl⟩ := liftDec_next h
      obtain ⟨-, -, rfl⟩ := decEosMid_cases hv
      exact ⟨(List.append_nil _).symm, rfl⟩
  · rw [feedItem_dec_rderr] at h
    obtain ⟨v, hv, rfl⟩ := liftDec_next h
    exact raised v hv
  · rw [feedItem_dec_rsvd] at h
    obtain ⟨v, hv, rfl⟩ := liftDec_next h
    exact raised v hv

/-- A byte is consumed whatever the sink answers, and at most 127 bytes are written for it (41_decoder.md R119). -/
theorem feedItem_dec_byte {s t : State} {b : Byte} (h : feedItem .dec (byteItem b) s = .next t) :
    t.dec.io.IN = s.dec.io.IN ++ [b] ∧ t.dec.io.OUT.length ≤ s.dec.io.OUT.length + 127 := by
  cases hc : tagClass s.dec.tag with
  | sentinel =>
    obtain ⟨hIN, hOUT⟩ := feedItem_tag_silent ((tagClass_sentinel_iff _).mp hc) h
    exact ⟨hIN, by rw [hOUT]; omega⟩
  | run =>
    rw [feedItem_in_run b hc] at h
    obtain ⟨v, hv, rfl⟩ := liftDec_next h
    exact ⟨(decRunval_extends hv).IN, decRunval_OUT_le hv⟩
  | literal =>
    rw [feedItem_in_literal b hc] at h
    obtain ⟨v, hv, rfl⟩ := liftDec_next h
    exact ⟨(decLitbyte_extends hv).IN, (decLitbyte_OUT_le hv).trans (by omega)⟩

/-! ### A literal frame read in part -/

/-- An item that leaves its unit ACTIVE is followed by the next ones. -/
theorem feed_cons_next {u : UnitId} {s t : State} {w : ItemWord} (ws : List ItemWord)
    (h : feedItem u w s = .next t) (hp : (t.io u).phase = .active) : feed u (w :: ws) s = feed u ws t := by
  rw [feed, h]
  simp [hp, Phase.isTerminal]

/-- Items behind the end of the invocation are not consumed (60_exceptions.md R130). -/
theorem feed_cons_ended {u : UnitId} {s t : State} {w : ItemWord} (ws : List ItemWord)
    (h : feedItem u w s = .next t) (hp : (t.io u).phase.isTerminal = true) : feed u (w :: ws) s = .next t := by
  rw [feed, h]
  simp [hp]

/-- Between frames a tag of a run or of a literal opens its frame (41_decoder.md R104, R105). -/
theorem feedItem_opens {s : State} {t : Byte} (hp : s.dec.io.phase = .active) (h0 : s.dec.tag = 0)
    (hc : tagClass t = .run ∨ tagClass t = .literal) :
    feedItem .dec (byteItem t) s = .next { s with dec := s.dec.opened t } := by
  rcases hc with hc | hc
  · rw [feedItem_idle_run h0 hc, decTagRun_opens hp h0 hc]
    rfl
  · rw [feedItem_idle_literal h0 hc, decTagLit_opens hp h0 hc]
    rfl

/-- The unit after the payload bytes p of a literal frame that has more of them to come (41_decoder.md R107). -/
def DecUnit.copied (u : DecUnit) (p : List Byte) (rest : List SinkReply) : DecUnit :=
  { u with
    io := { u.io with IN := u.io.IN ++ p, OUT := u.io.OUT ++ p, sink := rest }
    rem := BitVec.ofNat 8 (u.rem.toNat - p.length) }

theorem copied_rem (u : DecUnit) (p : List Byte) (rest : List SinkReply) :
    (u.copied p rest).rem.toNat = u.rem.toNat - p.length := by
  have := u.rem.isLt
  simp only [DecUnit.copied, BitVec.toNat_ofNat]
  omega

theorem copied_nil (u : DecUnit) : u.copied [] u.io.sink = u := by
  simp [DecUnit.copied]

theorem copied_copied (u : DecUnit) (p q : List Byte) (rs rest : List SinkReply) :
    (u.copied p rs).copied q rest = u.copied (p ++ q) rest := by
  rw [DecUnit.copied, copied_rem]
  simp [DecUnit.copied, Nat.sub_sub]

/-- A payload byte that is not the last of its frame. -/
theorem decLitbyte_copies_more {u : DecUnit} {b : Byte} {rest : List SinkReply} (hp : u.io.phase = .active)
    (hc : tagClass u.tag = .literal) (h2 : 2 ≤ u.rem.toNat) (h128 : u.rem.toNat ≤ 128)
    (hs : u.io.sink = .accept :: rest) : decLitbyte b u = .go (u.copied [b] rest) := by
  rw [decLitbyte_copies hp hc (by omega) h128 hs, counted_eq (by simp only [decSent_rem, decRecv_rem]; omega),
    decSent_rem, decRecv_rem, if_neg (by omega)]
  rfl

/-- Payload bytes that are not the last of their frame are copied one by one, whatever items follow them. -/
theorem feed_part_of_payload (s : State) {u : DecUnit} {p : List Byte} {rest : List SinkReply} (ws : List ItemWord)
    (hp : u.io.phase = .active) (hc : tagClass u.tag = .literal) (hlen : p.length < u.rem.toNat)
    (h128 : u.rem.toNat ≤ 128) (hs : u.io.sink = List.replicate p.length .accept ++ rest) :
    feed .dec (p.map byteItem ++ ws) { s with dec := u } = feed .dec ws { s with dec := u.copied p rest } := by
  induction p generalizing u with
  | nil =>
    obtain rfl : u.io.sink = rest := hs
    rw [copied_nil]
    rfl
  | cons b p ih =>
    rw [List.length_cons] at hlen
    have hcopy : feedItem .dec (byteItem b) { s with dec := u } = .next
        { s with dec := u.copied [b] (List.replicate p.length .accept ++ rest) } := by
      rw [feedItem_in_literal b hc, liftDec_dec, decLitbyte_copies_more hp hc (by omega) h128 hs]
      rfl
    have hrem := copied_rem u [b] (List.replicate p.length .accept ++ rest)
    rw [List.length_singleton] at hrem
    rw [List.map_cons, List.cons_append, feed_cons_next _ hcopy hp,
      ih (u := u.copied [b] _) hp hc (by omega) (by omega) rfl, copied_copied, List.singleton_append]

/-- A payload byte that the sink fails, behind the bytes p of its frame, is the last one consumed (41_decoder.md
R112). -/
theorem feed_failed_payload (s : State) {u : DecUnit} {p : List Byte} {b : Byte} {rest : List SinkReply}
    (ws : List ItemWord) (hp : u.io.phase = .active) (hc : tagClass u.tag = .literal) (hlen : p.length < u.rem.toNat)
    (h128 : u.rem.toNat ≤ 128) (hs : u.io.sink = List.replicate p.length .accept ++ .fail :: rest) :
    feed .dec (p.map byteItem ++ byteItem b :: ws) { s with dec := u } =
      .next { s with dec := (decRecv b (u.copied p (.fail :: rest))).outputError [b] 0 rest } := by
  have hrem := copied_rem u p (.fail :: rest)
  have hfail : feedItem .dec (byteItem b) { s with dec := u.copied p (.fail :: rest) } =
      .next { s with dec := (decRecv b (u.copied p (.fail :: rest))).outputError [b] 0 rest } := by
    rw [feedItem_in_literal b hc, liftDec_dec,
      decLitbyte_fails (u := u.copied p (.fail :: rest)) hp hc (by omega) (by omega) rfl]
    rfl
  rw [feed_part_of_payload s _ hp hc hlen h128 hs, feed_cons_ended ws hfail rfl]

end Sys2Proof.Machine

namespace Sys2Proof.Proofs

open Sys2Proof.Machine

/-- Settles O42: by the kind of the item, and for a byte by where DEC stands in a frame. -/
theorem decOutputPerItem : Obligations.DecOutputPerItem := by
  intro s t w h
  obtain ⟨d, rfl | hw⟩ := itemWord_cases w
  · obtain ⟨hIN, hOUT⟩ := feedItem_dec_byte h
    have hkind : itemKind (byteItem d) = .byte := by simp [byteItem]
    refine ⟨hOUT, ?_, fun h0 => ?_⟩
    · rw [if_pos hkind, byteItem, itemData_mkItem]
      exact hIN
    · obtain ⟨-, hsame⟩ := feedItem_tag_silent (h0.resolve_right (not_not_intro hkind)) h
      exact hsame
  · obtain ⟨hIN, hOUT⟩ := feedItem_nonbyte_silent hw h
    have hkind : itemKind w ≠ .byte := by rcases hw with rfl | rfl | rfl <;> simp
    rw [if_neg hkind, hOUT]
    exact ⟨by omega, hIN, fun _ => rfl⟩

/-- Settles O39: the frame is its items; the first k payload bytes are copied, and the next one ends the invocation. -/
theorem litFrameStopsAtWriteFailure : Obligations.LitFrameStopsAtWriteFailure := by
  intro s p k rest hp h0 hk h128 hs
  have h1 : 1 ≤ p.length := by omega
  have hc := litTag_literal h1 h128
  have hrem := opened_lit_rem (u := s.dec) h1 h128
  have hlen : (p.take k).length = k := by rw [List.length_take]; omega
  have hitems : encode (.lit p) = byteItem (litTag p.length) ::
      ((p.take k).map byteItem ++ byteItem p[k] :: (p.drop (k + 1)).map byteItem) := by
    rw [← List.map_cons, ← List.drop_eq_getElem_cons hk, ← List.map_append, List.take_append_drop]
    rfl
  have hfail := feed_failed_payload s (u := s.dec.opened (litTag p.length)) (p := p.take k) (b := p[k]) (rest := rest)
    ((p.drop (k + 1)).map byteItem) hp hc (by omega) (by omega) (by rw [hlen]; exact hs)
  rw [frameIsItsItems s (.lit p) _ ((wf_lit_iff p).mpr ⟨h1, h128⟩) rfl h0, hitems,
    feed_cons_next _ (feedItem_opens hp h0 (.inr hc)) hp, hfail]
  refine ⟨_, rfl, ?_⟩
  rw [List.take_succ_eq_append_getElem hk]
  simp [DecUnit.outputError, DecUnit.unspecified, DecUnit.copied, DecUnit.opened, raise, UnitIO.wrote, decRecv,
    recvByte]

end Sys2Proof.Proofs
end

section
/-! PROOFS. DEC fed any bytes and then EOS computes decode (41_decoder.md R113): a byte stream is whole frames and then
one of four ends (30_encoding.md R64), and DEC reads each as decode does. -/

namespace Sys2Proof.Machine

open Sys2Proof.Claims

/-! ### Whole frames, and how a stream ends behind them -/

/-- What can stand behind the whole frames of a stream: its end, the sentinel, or a frame cut short (30_encoding.md R63,
R64). -/
inductive StreamEnd : List Byte → Prop where
  | eos : StreamEnd []
  | sentinel (rest : List Byte) : StreamEnd (0x00#8 :: rest)
  | runCut (t : Byte) (hc : tagClass t = .run) : StreamEnd [t]
  | literalCut (t : Byte) (p : List Byte) (hc : tagClass t = .literal) (hlen : p.length < tagCount t) :
      StreamEnd (t :: p)

/-- The list is whole frames and then one of the ends of a stream. -/
def IsStream (x : List Byte) : Prop :=
  ∃ fs tail, fs.all isDataFrame = true ∧ StreamEnd tail ∧ x = framesBytes fs ++ tail

theorem StreamEnd.isStream {x : List Byte} (h : StreamEnd x) : IsStream x := ⟨[], x, rfl, h, rfl⟩

theorem IsStream.frame_append {f : Instr} {x : List Byte} (hf : isDataFrame f = true) (h : IsStream x) :
    IsStream (framesBytes [f] ++ x) := by
  obtain ⟨fs, tail, hfs, htail, rfl⟩ := h
  exact ⟨[f] ++ fs, tail, by simp [hf, hfs], htail, by rw [framesBytes_append, List.append_assoc]⟩

/-- A literal tag and the count of bytes it stands for are a whole frame. -/
theorem literal_frame_split {t : Byte} {x : List Byte} (hc : tagClass t = .literal) (hlen : tagCount t ≤ x.length) :
    isDataFrame (.lit (x.take (tagCount t))) = true ∧
      framesBytes [.lit (x.take (tagCount t))] ++ x.drop (tagCount t) = t :: x := by
  have hrange := (tagClass_literal_iff t).mp hc
  have htake : (x.take (tagCount t)).length = 0x100 - t.toNat := by
    rw [← tagCount_of_literal hc, List.length_take, Nat.min_eq_left hlen]
  refine ⟨(isDataFrame_lit_iff _).mpr (by omega), ?_⟩
  rw [framesBytes_singleton_lit, htake, litTag_of_literal hc, List.cons_append, List.take_append_drop]

/-- Every byte list is a stream: no tag is illegal, so it can only be cut short (30_encoding.md R71). -/
theorem isStream (x : List Byte) : IsStream x := by
  match x with
  | [] => exact StreamEnd.eos.isStream
  | t :: x =>
    cases hc : tagClass t with
    | sentinel =>
      obtain rfl := (tagClass_sentinel_iff t).mp hc
      exact (StreamEnd.sentinel x).isStream
    | run =>
      match x with
      | [] => exact (StreamEnd.runCut t hc).isStream
      | v :: rest => exact (isStream rest).frame_append ((isDataFrame_run_iff t v).mpr hc)
    | literal =>
      by_cases hlen : x.length < tagCount t
      · exact (StreamEnd.literalCut t x hc hlen).isStream
      · obtain ⟨hf, hx⟩ := literal_frame_split hc (Nat.le_of_not_lt hlen)
        exact hx ▸ (isStream (x.drop (tagCount t))).frame_append hf
termination_by x.length
decreasing_by
  all_goals simp only [List.length_cons, List.length_drop]; omega

/-! ### Whole frames in DEC -/

/-- Items fed to a unit that is ACTIVE behind them are followed by the next ones. -/
theorem feed_append {u : UnitId} {s t : State} {ws : List ItemWord} (ws' : List ItemWord)
    (h : feed u ws s = .next t) (ht : (t.io u).phase = .active) : feed u (ws ++ ws') s = feed u ws' t := by
  induction ws generalizing s with
  | nil =>
    cases h
    rfl
  | cons w ws ih =>
    obtain ⟨r, hr, hrest⟩ := feed_cons_active h ht
    by_cases hend : (r.io u).phase.isTerminal = true
    · rw [feed_cons_ended ws hr hend] at h
      cases h
      simp [ht, Phase.isTerminal] at hend
    · rw [List.cons_append, feed, hr]
      simpa [hend] using ih hrest

/-- DEC between frames, after whole frames of the bytes bs that decode to out. -/
def DecUnit.readFrames (u : DecUnit) (bs out : List Byte) (rest : List SinkReply) : DecUnit :=
  { io := { u.io with IN := u.io.IN ++ bs, OUT := u.io.OUT ++ out, sink := rest }, tag := 0, rem := 0 }

theorem readFrames_nil {u : DecUnit} (h0 : u.tag = 0) (hr : u.rem = 0) :
    u.readFrames (framesBytes []) (framesOut []) u.io.sink = u := by
  obtain ⟨io, tag, rem⟩ := u
  obtain ⟨rfl, rfl⟩ : tag = 0 ∧ rem = 0 := ⟨h0, hr⟩
  simp [DecUnit.readFrames, framesBytes, framesOut]

/-- A whole frame in DEC, where the sink takes what it decodes to (30_encoding.md R59, R60). -/
theorem feed_dataFrame {s : State} {f : Instr} {rest : List SinkReply} (ws : List ItemWord)
    (hf : isDataFrame f = true) (hp : s.dec.io.phase = .active) (h0 : s.dec.tag = 0)
    (hs : s.dec.io.sink = List.replicate (framesOut [f]).length .accept ++ rest) :
    feed .dec ((framesBytes [f]).map byteItem ++ ws) s =
      feed .dec ws { s with dec := s.dec.readFrames (framesBytes [f]) (framesOut [f]) rest } := by
  refine feed_append ws ?_ hp
  rcases isDataFrame_cases hf with ⟨t, v, rfl⟩ | ⟨p, rfl⟩
  · have hc := (isDataFrame_run_iff t v).mp hf
    obtain ⟨h1, h127⟩ := (tagClass_run_iff t).mp hc
    rw [framesOut_singleton_run] at hs ⊢
    refine (feed_runFrame v h0 hc).trans (Proofs.runFrameDecodesToCopies s t v rest hp h0 h1 h127 ?_)
    simpa using hs
  · obtain ⟨h1, h128⟩ := (isDataFrame_lit_iff p).mp hf
    rw [framesOut_singleton_lit] at hs ⊢
    rw [framesBytes_singleton_lit]
    exact (feed_litFrame h0 h1 h128).trans (Proofs.litFrameDecodesVerbatim s p rest hp h0 h1 h128 hs)

/-- Whole frames in DEC, whatever items follow them. -/
theorem feed_dataFrames (s : State) {u : DecUnit} {fs : List Instr} {rest : List SinkReply} (ws : List ItemWord)
    (hfs : fs.all isDataFrame = true) (hp : u.io.phase = .active) (h0 : u.tag = 0) (hr : u.rem = 0)
    (hs : u.io.sink = List.replicate (framesOut fs).length .accept ++ rest) :
    feed .dec ((framesBytes fs).map byteItem ++ ws) { s with dec := u } =
      feed .dec ws { s with dec := u.readFrames (framesBytes fs) (framesOut fs) rest } := by
  induction fs generalizing u with
  | nil =>
    obtain rfl : u.io.sink = rest := hs
    rw [readFrames_nil h0 hr]
    rfl
  | cons f fs ih =>
    obtain ⟨hf, hfs⟩ : isDataFrame f = true ∧ fs.all isDataFrame = true := by simpa using hfs
    rw [← List.singleton_append, framesOut_append, List.length_append, ← List.replicate_append_replicate,
      List.append_assoc] at hs
    rw [← List.singleton_append, framesBytes_append, framesOut_append, List.map_append, List.append_assoc,
      feed_dataFrame (s := { s with dec := u }) _ hf hp h0 hs, ih (u := u.readFrames _ _ _) hfs hp rfl rfl rfl]
    simp [DecUnit.readFrames]

/-! ### DEC computes decode -/

theorem tagCount_literal_le {t : Byte} (hc : tagClass t = .literal) : tagCount t ≤ 128 := by
  have := (tagClass_literal_iff t).mp hc
  rw [tagCount_of_literal hc]
  omega

/-- A literal frame begins with the count of its tag to come (41_decoder.md R105). -/
theorem opened_literal_rem {u : DecUnit} {t : Byte} (hc : tagClass t = .literal) :
    (u.opened t).rem.toNat = tagCount t := by
  have := tagCount_literal_le hc
  simp only [DecUnit.opened, BitVec.toNat_ofNat]
  omega

/-- From c to d DEC has read x as decode does: its bytes are written, those it uses are consumed, and the end is DONE or
TruncatedStream by its result (41_decoder.md R113). -/
def UnitIO.Decoded (x : List Byte) (c d : UnitIO) : Prop :=
  d.OUT = c.OUT ++ (wireDecode x).out ∧ d.IN = c.IN ++ x.take (wireDecode x).used ∧
    ((wireDecode x).result = .ok → d.phase = .done ∧ d.err = .none) ∧
    ((wireDecode x).result = .truncated → d.phase = .failed ∧ d.err = .truncatedStream)

/-- Whole frames read before a stream are whole frames of it. -/
theorem UnitIO.Decoded.after_frames {fs : List Instr} {tail : List Byte} {u : DecUnit} {d : UnitIO}
    {rest : List SinkReply} (hfs : fs.all isDataFrame = true)
    (h : UnitIO.Decoded tail (u.readFrames (framesBytes fs) (framesOut fs) rest).io d) :
    UnitIO.Decoded (framesBytes fs ++ tail) u.io d := by
  obtain ⟨hOUT, hIN, hok, htrunc⟩ := h
  rw [UnitIO.Decoded, wireDecode_frames hfs]
  refine ⟨?_, ?_, hok, htrunc⟩
  · rw [hOUT]
    exact List.append_assoc _ _ _
  · rw [hIN]
    simp [DecUnit.readFrames, WireDecoded.after, List.take_length_add_append]

/-- The end of input in mid-frame, after the bytes x that decode finds truncated. -/
theorem feed_eos_truncates (s : State) {u : DecUnit} {c : UnitIO} {x : List Byte} (hp : u.io.phase = .active)
    (h0 : u.tag ≠ 0) (hOUT : u.io.OUT = c.OUT ++ (wireDecode x).out) (hIN : u.io.IN = c.IN ++ x)
    (hused : (wireDecode x).used = x.length) (hres : (wireDecode x).result = .truncated) :
    ∃ v, feed .dec [eosItem] { s with dec := u } = .next { s with dec := v } ∧ UnitIO.Decoded x c v.io := by
  have hitem : feedItem .dec eosItem { s with dec := u } =
      .next { s with dec := DecUnit.unspecified { u with io := raise .truncatedStream u.io } } := by
    rw [eosItem, feedItem_eos_mid _ h0, liftDec_dec, decEosMid_truncates hp h0]
    rfl
  refine ⟨_, feed_cons_ended [] hitem rfl, hOUT, ?_, by simp [hres], fun _ => ⟨rfl, rfl⟩⟩
  rw [hused, List.take_length]
  exact hIN

/-- DEC between frames reads each end of a stream as decode does. -/
theorem feed_streamEnd (s : State) {u : DecUnit} {x : List Byte} (hx : StreamEnd x) (hp : u.io.phase = .active)
    (h0 : u.tag = 0) (hs : takesAll u.io (wireDecode x).out.length) :
    ∃ v, feed .dec (byteProgram x) { s with dec := u } = .next { s with dec := v } ∧ UnitIO.Decoded x u.io v.io := by
  cases hx with
  | eos =>
    have hitem : feedItem .dec eosItem { s with dec := u } = .next { s with dec := u.finished } := by
      rw [eosItem, feedItem_eos_idle _ h0, liftDec_dec, decEosIdle_finishes hp h0]
      rfl
    refine ⟨_, feed_cons_ended [] hitem rfl, ?_⟩
    simp [UnitIO.Decoded, wireDecode_nil, DecUnit.finished]
  | sentinel rest =>
    have hitem : feedItem .dec (byteItem 0x00#8) { s with dec := u } =
        .next { s with dec := (decRecv 0x00#8 u).finished } := by
      rw [feedItem_idle_sentinel h0, liftDec_dec, decTagSentinel_finishes hp h0]
      rfl
    refine ⟨_, feed_cons_ended _ hitem rfl, ?_⟩
    simp [UnitIO.Decoded, wireDecode_sentinel tagClass_zero, DecUnit.finished]
  | runCut t hc =>
    have hd := wireDecode_run_short hc
    have hopen : feedItem .dec (byteItem t) { s with dec := u } = .next { s with dec := u.opened t } :=
      feedItem_opens hp h0 (.inl hc)
    rw [byteProgram, List.map_cons, List.cons_append, feed_cons_next _ hopen hp]
    exact feed_eos_truncates s (u := u.opened t) hp (tag_ne_zero_of_run hc) (by simp [hd, DecUnit.opened]) rfl
      (by rw [hd]; rfl) (by rw [hd])
  | literalCut t p hc hlen =>
    have hd := wireDecode_literal_short hc hlen
    have hopen : feedItem .dec (byteItem t) { s with dec := u } = .next { s with dec := u.opened t } :=
      feedItem_opens hp h0 (.inr hc)
    have h128 := tagCount_literal_le hc
    have hrem := opened_literal_rem (u := u) hc
    rw [hd] at hs
    obtain ⟨rest, hsink, -⟩ := takesAll_split (k := p.length) (m := 0) hs
    rw [byteProgram, List.map_cons, List.cons_append, feed_cons_next _ hopen hp,
      feed_part_of_payload s (u := u.opened t) _ hp hc (by omega) (by omega) hsink]
    exact feed_eos_truncates s (u := (u.opened t).copied p rest) hp (tag_ne_zero_of_literal hc)
      (by simp [hd, DecUnit.copied, DecUnit.opened]) (by simp [DecUnit.copied, DecUnit.opened]) (by rw [hd]; rfl)
      (by rw [hd])

/-- DEC between frames, fed any bytes and then EOS where the sink takes what decode gives, computes decode. -/
theorem feed_dec_byteProgram {s : State} (x : List Byte) (hp : s.dec.io.phase = .active) (h0 : s.dec.tag = 0)
    (hr : s.dec.rem = 0) (hs : takesAll s.dec.io (wireDecode x).out.length) :
    ∃ v, feed .dec (byteProgram x) s = .next { s with dec := v } ∧ UnitIO.Decoded x s.dec.io v.io := by
  obtain ⟨fs, tail, hfs, htail, rfl⟩ := isStream x
  have hout : (wireDecode (framesBytes fs ++ tail)).out.length =
      (framesOut fs).length + (wireDecode tail).out.length := by
    rw [wireDecode_frames hfs]
    exact List.length_append
  rw [hout] at hs
  obtain ⟨rest, hsink, hrest⟩ := takesAll_split hs
  obtain ⟨v, hv, hdec⟩ :=
    feed_streamEnd s (u := s.dec.readFrames (framesBytes fs) (framesOut fs) rest) htail hp rfl hrest
  refine ⟨v, ?_, hdec.after_frames hfs⟩
  rw [byteProgram, List.map_append, List.append_assoc]
  exact (feed_dataFrames s _ hfs hp h0 hr hsink).trans hv

end Sys2Proof.Machine

namespace Sys2Proof.Proofs

open Sys2Proof.Machine

/-- Settles O58: the bytes are whole frames and then one of the ends of a stream, and DEC reads each as decode does. -/
theorem decComputesDecode : Obligations.DecComputesDecode := by
  intro s x hp _ h0 hr hs
  obtain ⟨v, hv, hdec⟩ := feed_dec_byteProgram x hp h0 hr hs
  exact ⟨_, hv, hdec⟩

end Sys2Proof.Proofs
end

section
/-! PROOFS. ENC fed any bytes and then EOS, where the sink takes two bytes for each of them, and DEC fed what it wrote
(41_decoder.md R114): a frame of ENC is at most twice as long as what it stands for. -/

namespace Sys2Proof.Machine

open Sys2Proof.Claims

/-- An ACTIVE ENC with m bytes to come, whose sink takes two bytes for each byte that is owed or to come. -/
def EncUnit.Reads (u : EncUnit) (m : Nat) : Prop :=
  u.io.phase = .active ∧
    ((∃ p, u.InLit p ∧ takesAll u.io (2 * (p.length + m))) ∨ (u.InRun ∧ takesAll u.io (2 * (u.runLen.toNat + m))))

/-- A transaction takes its share of what the sink takes, and leaves the rest. -/
theorem takesAll_wrote {c : UnitIO} {n k : Nat} (tx : List Byte) (h : takesAll c n) (htx : tx.length + k ≤ n) :
    ∃ rest, c.sink = List.replicate tx.length .accept ++ rest ∧ takesAll (c.wrote tx rest) k := by
  obtain ⟨rest, hs, hrest⟩ := takesAll_split (takesAll_mono h htx)
  exact ⟨rest, hs, hrest⟩

section
variable {u : EncUnit} {p : List Byte} {b : Byte} {m : Nat}

/-- A byte equal to the last one owed starts a run, and those before the pair are written. -/
theorem encByteLit_pair_reads (hp : u.io.phase = .active) (h : u.InLit (p ++ [b]))
    (hs : takesAll u.io (2 * (p.length + 1 + (m + 1)))) : ∃ v, encByteLit b u = .go v ∧ v.Reads m := by
  have howes := appended_owes b h
  obtain ⟨hm, h128, hspan, hadj, -⟩ := h
  have hlen : p.length + 1 = u.cnt.toNat := by simpa using memSpan_length hspan
  by_cases hnil : p = []
  · subst hnil
    have hleft : takesAll u.io (2 * (2 + m)) := takesAll_mono hs (by omega)
    exact ⟨_, encByteLit_starts_run hp hm hlen.ge hspan rfl, hp, .inr ⟨running_inRun howes, hleft⟩⟩
  · have h1 := List.length_pos_iff.mpr hnil
    obtain ⟨rest, hsink, hrest⟩ := takesAll_wrote (k := 2 * (2 + m)) (litTag p.length :: p) hs (by simp; omega)
    rw [List.append_assoc] at howes
    have hsent := howes.wrote_lit rest h1 (by omega) (noAdjacentEqual_left_of_append hadj)
    refine ⟨((u.appended b).sent (litTag p.length :: p) rest).running b, ?_, hp, .inr ⟨running_inRun hsent, hrest⟩⟩
    rw [encByteLit_flushes_before_pair hp hm h1 hlen.symm h128 hspan, encWrite_accept (rest := rest) (by exact hsink)]
    rfl

/-- A byte unlike the last one owed is owed too, and where the buffer is full the others are written. -/
theorem encByteLit_single_reads (hp : u.io.phase = .active) (h : u.InLit p) (hb : p.getLast? ≠ some b)
    (hs : takesAll u.io (2 * (p.length + (m + 1)))) : ∃ v, encByteLit b u = .go v ∧ v.Reads m := by
  have howes := appended_owes b h
  by_cases hroom : u.cnt.toNat < 128
  · have happ := appended_inLit h hb hroom
    obtain ⟨hm, -, hspan, -⟩ := h
    exact ⟨_, encByteLit_buffers hp hm hroom hspan hb, hp, .inl ⟨_, happ, takesAll_mono hs (by simp; omega)⟩⟩
  · obtain ⟨hm, h128, hspan, hadj, -⟩ := h
    have hlen : p.length = 128 := by
      have := memSpan_length hspan
      omega
    obtain ⟨rest, hsink, hrest⟩ := takesAll_wrote (k := 2 * (1 + m)) (litTag 128 :: p) hs (by simp; omega)
    have hsent := howes.wrote_lit rest (by omega) (by omega) hadj
    rw [hlen] at hsent
    rw [List.length_cons, hlen] at hsink
    exact ⟨_, encByteLit_flushes_full hp hm (by omega) hspan hb hsink, hp,
      .inl ⟨[b], onlyPending_inLit _ hsent (by exact hm) rfl rfl, hrest⟩⟩

/-- A byte equal to the run's is owed too, and the run of 127 is written. -/
theorem encByteRun_equal_reads (hp : u.io.phase = .active) (h : u.InRun)
    (hs : takesAll u.io (2 * (u.runLen.toNat + (m + 1)))) : ∃ v, encByteRun u.runVal u = .go v ∧ v.Reads m := by
  obtain ⟨hm, h2, h126, hrun⟩ := h
  have howes := hrun.recvByte u.runVal
  rw [← List.replicate_succ'] at howes
  by_cases hlast : u.runLen.toNat = 126
  · rw [hlast, ← List.append_nil (List.replicate _ _)] at howes
    obtain ⟨rest, hsink, hrest⟩ := takesAll_wrote (k := 2 * m) [runTag 127, u.runVal] hs (by simp; omega)
    rw [← Nat.zero_add m] at hrest
    have hsent := howes.wrote_run rest (by omega) (by omega)
    exact ⟨_, encByteRun_closes hp hm hlast rfl hsink, hp, .inl ⟨[], ⟨rfl, by simp, rfl, rfl, hsent⟩, hrest⟩⟩
  · have hlen : (u.extended u.runVal).runLen.toNat = u.runLen.toNat + 1 := by
      simp only [EncUnit.extended]
      bv_omega
    rw [← hlen] at howes
    exact ⟨_, (encByteRun_active hp hm h2 h126).trans (extendRun_equal rfl (by omega)), hp,
      .inr ⟨⟨hm, by omega, by omega, howes⟩, takesAll_mono hs (by omega)⟩⟩

/-- A byte unlike the run's is owed, and the run is written. -/
theorem encByteRun_unequal_reads (hp : u.io.phase = .active) (h : u.InRun) (hb : b ≠ u.runVal)
    (hs : takesAll u.io (2 * (u.runLen.toNat + (m + 1)))) : ∃ v, encByteRun b u = .go v ∧ v.Reads m := by
  obtain ⟨hm, h2, h126, hrun⟩ := h
  obtain ⟨rest, hsink, hrest⟩ :=
    takesAll_wrote (k := 2 * (1 + m)) [runTag u.runLen.toNat, u.runVal] hs (by simp; omega)
  have hsent := (hrun.recvByte b).wrote_run rest h2 (by omega)
  exact ⟨_, encByteRun_closed_by_unequal hp hm h2 h126 hb hsink, hp,
    .inl ⟨[b], onlyPending_inLit _ hsent rfl rfl rfl, hrest⟩⟩

theorem encByteLit_reads (hp : u.io.phase = .active) (h : u.InLit p)
    (hs : takesAll u.io (2 * (p.length + (m + 1)))) : ∃ v, encByteLit b u = .go v ∧ v.Reads m := by
  by_cases hb : p.getLast? = some b
  · obtain ⟨q, rfl⟩ := List.getLast?_eq_some_iff.mp hb
    exact encByteLit_pair_reads hp h (by simpa using hs)
  · exact encByteLit_single_reads hp h hb hs

theorem encByteRun_reads (hp : u.io.phase = .active) (h : u.InRun)
    (hs : takesAll u.io (2 * (u.runLen.toNat + (m + 1)))) : ∃ v, encByteRun b u = .go v ∧ v.Reads m := by
  by_cases hb : b = u.runVal
  · subst hb
    exact encByteRun_equal_reads hp h hs
  · exact encByteRun_unequal_reads hp h hb hs

end

/-- A byte fed to ENC, in either mode. -/
theorem feedItem_enc_byte_reads {s : State} {m : Nat} (b : Byte) (h : s.enc.Reads (m + 1)) :
    ∃ v : EncUnit, feedItem .enc (byteItem b) s = .next { s with enc := v } ∧ v.Reads m ∧
      v.io.IN = s.enc.io.IN ++ [b] := by
  obtain ⟨hp, ⟨p, hlit, hs⟩ | ⟨hrun, hs⟩⟩ := h
  · obtain ⟨v, hv, hreads⟩ := encByteLit_reads (b := b) hp hlit hs
    obtain ⟨hm, -⟩ := hlit
    refine ⟨v, ?_, hreads, (encByteLit_extends (.inl hv)).IN⟩
    rw [feedItem_enc_lit_byte b hm, hv]
    rfl
  · obtain ⟨v, hv, hreads⟩ := encByteRun_reads (b := b) hp hrun hs
    obtain ⟨hm, -⟩ := hrun
    refine ⟨v, ?_, hreads, (encByteRun_extends (.inl hv)).IN⟩
    rw [feedItem_enc_run_byte b hm, hv]
    rfl

/-- EOS fed to ENC, in either mode: what is owed is written, and nothing is owed in DONE. -/
theorem feedItem_enc_eos_ends {s : State} (h : s.enc.Reads 0) :
    ∃ v : EncUnit, feedItem .enc eosItem s = .next { s with enc := v.finished } ∧ v.io.Owes [] ∧
      v.io.IN = s.enc.io.IN := by
  obtain ⟨hp, ⟨p, ⟨hm, h128, hspan, hadj, howes⟩, hs⟩ | ⟨⟨hm, h2, h126, howes⟩, hs⟩⟩ := h
  · have hlen := memSpan_length hspan
    rw [feedItem_enc_lit_eos hm]
    by_cases hnil : p = []
    · subst hnil
      rw [encEosLit_of_empty hp hm hlen.symm]
      exact ⟨_, rfl, howes, rfl⟩
    · have h1 := List.length_pos_iff.mpr hnil
      obtain ⟨rest, hsink, -⟩ := takesAll_wrote (k := 0) (litTag p.length :: p) hs (by simp; omega)
      rw [encEosLit_flushes hp hm (by omega) h128 hspan hsink]
      rw [← List.append_nil p] at howes
      exact ⟨_, rfl, howes.wrote_lit rest h1 (by omega) hadj, rfl⟩
  · obtain ⟨rest, hsink, -⟩ := takesAll_wrote (k := 0) [runTag s.enc.runLen.toNat, s.enc.runVal] hs (by simp; omega)
    rw [feedItem_enc_run_eos hm, encEosRun_flushes hp hm h2 h126 hsink]
    rw [← List.append_nil (List.replicate _ _)] at howes
    exact ⟨_, rfl, howes.wrote_run rest h2 (by omega), rfl⟩

/-- ENC fed bytes that its sink pays for, and then EOS, ends DONE with all of them consumed and nothing owed. -/
theorem feed_enc_byteProgram {s : State} {x : List Byte} (h : s.enc.Reads x.length) :
    ∃ v : EncUnit, feed .enc (byteProgram x) s = .next { s with enc := v.finished } ∧ v.io.Owes [] ∧
      v.io.IN = s.enc.io.IN ++ x := by
  induction x generalizing s with
  | nil =>
    obtain ⟨v, hv, howes, hIN⟩ := feedItem_enc_eos_ends h
    exact ⟨v, feed_cons_ended [] hv rfl, howes, by rw [hIN, List.append_nil]⟩
  | cons b x ih =>
    obtain ⟨u, hu, hreads, hIN⟩ := feedItem_enc_byte_reads b h
    have ⟨hp, _⟩ := hreads
    obtain ⟨v, hv, howes, hIN'⟩ := ih (s := { s with enc := u }) hreads
    refine ⟨v, (feed_cons_next _ hu hp).trans hv, howes, ?_⟩
    rw [hIN', hIN, List.append_assoc, List.singleton_append]

end Sys2Proof.Machine

namespace Sys2Proof.Proofs

open Sys2Proof.Machine

/-- Settles O59: ENC ends with whole frames that stand for its input, so decode gives the input back, and DEC computes
decode. -/
theorem codecRoundTrip : Obligations.CodecRoundTrip := by
  intro s x hp hm hcnt hIN hOUT hs hdp h0 hr hdOUT hds
  have hstart : s.enc.Reads x.length := by
    rw [← Nat.zero_add x.length] at hs
    exact ⟨hp, .inl ⟨[], ⟨hm, by simp [hcnt], by simp [hcnt, memSpan], rfl, owes_nil_of_fresh hIN hOUT⟩, hs⟩⟩
  obtain ⟨v, hv, ⟨out, hw, howed⟩, hread⟩ := feed_enc_byteProgram hstart
  rw [hIN, List.nil_append] at hread
  rw [List.append_nil, hread] at howed
  subst howed
  have hd := encWrote_wireDecode hw
  obtain ⟨r, hfed, hrOUT, -, hok, -⟩ :=
    feed_dec_byteProgram (s := { s with enc := v.finished }) v.io.OUT hdp h0 hr (by rw [hd]; exact hds)
  rw [hd] at hok hrOUT
  obtain ⟨hdone, herr⟩ := hok rfl
  exact ⟨_, _, hv, rfl, rfl, hread, hd, hfed, hdone, herr, by rw [hrOUT]; simp [hdOUT]⟩

end Sys2Proof.Proofs
end

section
/-! PROOFS. ENC's one transaction where the sink fails it or has not answered it whole (20_memory.md R48, R51;
60_exceptions.md R126, R127, R140), and the same wait in DEC. -/

namespace Sys2Proof.Machine

open Sys2Proof.Claims

/-! ### The transaction of an ENC operation -/

/-- The operation x of ENC consumes the bytes bs and then writes tx, before anything else it does to its channels. -/
def EncUnit.Writes (u : EncUnit) (bs tx : List Byte) (x : Flow EncUnit) : Prop :=
  ∃ v K, v.io = { u.io with IN := u.io.IN ++ bs } ∧ x = (encWrite tx v).bind K

section
variable {u : EncUnit} {p bs tx : List Byte} {b : Byte} {x : Flow EncUnit} {k : Nat}

/-- OutWrite where the sink has answered the first k bytes alone (20_memory.md R51). -/
theorem encWrite_short (hk : k < tx.length) (hs : u.io.sink = List.replicate k .accept) :
    encWrite tx u = .stop (.sinkWait (tx.drop k)) := by
  simp [encWrite, ioWrite, hs, outWrite_short tx k hk]

theorem EncUnit.Writes.fails {rest : List SinkReply} (h : u.Writes bs tx x) (hk : k < tx.length)
    (hs : u.io.sink = List.replicate k .accept ++ .fail :: rest) :
    ∃ v : EncUnit, v.io = { u.io with IN := u.io.IN ++ bs } ∧ x = .ended (v.outputError tx k rest) := by
  obtain ⟨v, K, hv, rfl⟩ := h
  exact ⟨v, hv, by rw [encWrite_fail hk (by rw [hv, hs]), bind_of_ended]⟩

theorem EncUnit.Writes.waits (h : u.Writes bs tx x) (hk : k < tx.length)
    (hs : u.io.sink = List.replicate k .accept) : x = .stop (.sinkWait (tx.drop k)) := by
  obtain ⟨v, K, hv, rfl⟩ := h
  rw [encWrite_short hk (by rw [hv, hs]), bind_of_stop]

/-- With 128 bytes pending, a byte unlike the last of them has them written as one literal (40_encoder.md R83). -/
theorem encByteLit_writes_full (hp : u.io.phase = .active) (hm : u.mode = .lit) (hcnt : u.cnt.toNat = 128)
    (hspan : memSpan u.buf 0 u.cnt.toNat = .ok p) (hb : p.getLast? ≠ some b) :
    u.Writes [b] (litTag 128 :: p) (encByteLit b u) := by
  have hl := lastPairEqual_appended (b := b) (by omega) hspan
  rw [decide_eq_false hb] at hl
  have happ : memSpan (u.appended b).buf 0 128 = .ok p := by
    rw [hcnt] at hspan
    rw [← hspan, EncUnit.appended, hcnt]
    exact memSpan_memInsert_outside (by omega)
  rw [encByteLit_active hp hm (by omega), appendByte_of_no_pair (by omega) hl, if_pos (by simp [hcnt]), fullBuffer,
    litMax_eq, flushFirst_eq happ (by omega) (by omega)]
  exact ⟨u.appended b, _, rfl, rfl⟩

theorem encReady_lit (h : encReady u p) (hm : u.mode = .lit) :
    u.io.phase = .active ∧ u.cnt.toNat ≤ 128 ∧ memSpan u.buf 0 u.cnt.toNat = .ok p := by
  obtain ⟨hp, hpending, hcnt, -⟩ := h
  exact ⟨hp, hcnt hm, by simpa [EncUnit.pending, hm] using hpending⟩

theorem encReady_run (h : encReady u p) (hm : u.mode = .run) :
    u.io.phase = .active ∧ 2 ≤ u.runLen.toNat ∧ u.runLen.toNat ≤ 126 := by
  obtain ⟨hp, -, -, hrun⟩ := h
  exact ⟨hp, hrun hm⟩

/-- The transaction of ENC.BYTE.LIT (40_encoder.md R83). -/
theorem encByteLit_writes_encTx (hready : encReady u p) (hm : u.mode = .lit) (htx : encTx (.encByteLit b) u p ≠ []) :
    u.Writes [b] (encTx (.encByteLit b) u p) (encByteLit b u) := by
  obtain ⟨hp, h128, hspan⟩ := encReady_lit hready hm
  have hlen := memSpan_length hspan
  simp only [encTx] at htx ⊢
  split at htx
  · rename_i hb
    split at htx
    · exact absurd rfl htx
    · rename_i hmany
      obtain ⟨q, rfl⟩ := List.getLast?_eq_some_iff.mp hb
      rw [List.length_append, List.length_singleton] at hlen hmany
      rw [if_pos hb, if_neg (by simpa using hmany), List.dropLast_concat, List.length_append, List.length_singleton,
        Nat.add_sub_cancel, encByteLit_flushes_before_pair hp hm (by omega) hlen.symm h128 hspan]
      exact ⟨u.appended b, _, rfl, rfl⟩
  · rename_i hb
    split at htx
    · rename_i hfull
      rw [if_neg hb, if_pos hfull]
      exact encByteLit_writes_full hp hm (hlen.symm.trans hfull) hspan hb
    · exact absurd rfl htx

/-- The transaction of ENC.BYTE.RUN (40_encoder.md R85). -/
theorem encByteRun_writes_encTx (hready : encReady u p) (hm : u.mode = .run) (htx : encTx (.encByteRun b) u p ≠ []) :
    u.Writes [b] (encTx (.encByteRun b) u p) (encByteRun b u) := by
  obtain ⟨hp, h2, h126⟩ := encReady_run hready hm
  rw [encByteRun_active hp hm h2 h126]
  simp only [encTx] at htx ⊢
  split at htx
  · rename_i hb
    split at htx
    · rename_i hlast
      rw [if_pos hb, if_pos hlast, extendRun_equal_last hb hlast]
      exact ⟨u.extended b, _, rfl, rfl⟩
    · exact absurd rfl htx
  · rename_i hb
    rw [if_neg hb, extendRun_unequal hb h2 h126]
    exact ⟨encRecv b u, _, rfl, rfl⟩

/-- The transaction of ENC.EOS.LIT (40_encoder.md R86). -/
theorem encEosLit_writes_encTx {d : Byte} (hready : encReady u p) (hm : u.mode = .lit)
    (htx : encTx (.encEosLit d) u p ≠ []) : u.Writes [] (encTx (.encEosLit d) u p) (encEosLit u) := by
  obtain ⟨hp, h128, hspan⟩ := encReady_lit hready hm
  have hlen := memSpan_length hspan
  simp only [encTx] at htx ⊢
  split at htx
  · exact absurd rfl htx
  · rename_i hne
    have h1 := List.length_pos_iff.mpr hne
    rw [if_neg hne, encEosLit, gate_pass _ hp (by simp [hm]) (by simpa [litInRange] using h128),
      flushFirst_eq hspan (by omega) h128, hlen]
    exact ⟨u, _, by simp, rfl⟩

/-- The transaction of ENC.EOS.RUN (40_encoder.md R87). -/
theorem encEosRun_writes_encTx (hready : encReady u p) (hm : u.mode = .run) :
    u.Writes [] [runTag u.runLen.toNat, u.runVal] (encEosRun u) := by
  obtain ⟨hp, h2, h126⟩ := encReady_run hready hm
  rw [encEosRun, gate_pass _ hp (by simp [hm]) (by simp [runInRange, h2, h126]), emitRun_eq _ _ h2 (by omega)]
  exact ⟨u, _, by simp, rfl⟩

end

/-- An ENC operation that has a transaction makes it right after consuming its item (40_encoder.md R83 to R88). -/
theorem exec_enc_writes {s : State} {i : Instr} {p : List Byte} (hi : isEncOp i = true)
    (hsel : i.selectedIn (.enc s.enc.mode) = true) (hready : encReady s.enc p) (htx : encTx i s.enc p ≠ []) :
    ∃ x, exec i s = liftEnc s x ∧ s.enc.Writes (itemBytes i) (encTx i s.enc p) x := by
  cases i with
  | encByteLit b => exact ⟨_, rfl, encByteLit_writes_encTx hready (by simpa [Instr.selectedIn] using hsel) htx⟩
  | encByteRun b => exact ⟨_, rfl, encByteRun_writes_encTx hready (by simpa [Instr.selectedIn] using hsel) htx⟩
  | encEosLit d => exact ⟨_, rfl, encEosLit_writes_encTx hready (by simpa [Instr.selectedIn] using hsel) htx⟩
  | encEosRun d => exact ⟨_, rfl, encEosRun_writes_encTx hready (by simpa [Instr.selectedIn] using hsel)⟩
  | encRderr d => exact absurd rfl htx
  | encRsvd d => exact absurd rfl htx
  | _ => cases hi

/-! ### The wait in DEC -/

section
variable {u : DecUnit} {tx : List Byte} {b : Byte} {k : Nat}

/-- OutWrite where the sink has answered the first k bytes alone (20_memory.md R51). -/
theorem decWrite_short (hk : k < tx.length) (hs : u.io.sink = List.replicate k .accept) :
    decWrite tx u = .stop (.sinkWait (tx.drop k)) := by
  simp [decWrite, ioWrite, hs, outWrite_short tx k hk]

theorem decRunval_waits (hp : u.io.phase = .active) (hc : tagClass u.tag = .run) (hr : u.rem = u.tag)
    (hk : k < u.rem.toNat) (hs : u.io.sink = List.replicate k .accept) :
    decRunval b u = .stop (.sinkWait (List.replicate (u.rem.toNat - k) b)) := by
  rw [decRunval, gate_pass _ hp (by simp [hc]) (by simp [hr]), decWrite_short (u := decRecv b u) (by simpa using hk) hs,
    bind_of_stop, List.drop_replicate]

theorem decLitbyte_waits (hp : u.io.phase = .active) (hc : tagClass u.tag = .literal) (h1 : 1 ≤ u.rem.toNat)
    (h128 : u.rem.toNat ≤ 128) (hs : u.io.sink = []) : decLitbyte b u = .stop (.sinkWait [b]) := by
  rw [decLitbyte, gate_pass _ hp (by simp [hc]) (by simp [h1, h128]),
    decWrite_short (u := decRecv b u) (k := 0) (by simp) hs]
  rfl

end

end Sys2Proof.Machine

namespace Sys2Proof.Proofs

open Sys2Proof.Machine

/-- Settles O21: the operation is its transaction and then nothing, since a failed OutWrite ends it. -/
theorem encWriteFailureKeepsPrefix : Obligations.EncWriteFailureKeepsPrefix := by
  intro s i p k rest hi hsel hready hk hs
  obtain ⟨x, hx, hw⟩ := exec_enc_writes hi hsel hready (List.ne_nil_of_length_pos (by omega))
  obtain ⟨v, hv, rfl⟩ := hw.fails hk hs
  exact ⟨_, hx, by simp [EncUnit.outputError, EncUnit.unspecified, raise, UnitIO.wrote, hv]⟩

/-- Settles O22: the operation stops in its transaction. -/
theorem encWaitsForSink : Obligations.EncWaitsForSink := by
  intro s i p k hi hsel hready hk hs
  obtain ⟨x, hx, hw⟩ := exec_enc_writes hi hsel hready (List.ne_nil_of_length_pos (by omega))
  rw [hx, hw.waits hk hs]
  rfl

/-- Settles O33, by the tag's class. -/
theorem decWaitsForSink : Obligations.DecWaitsForSink := by
  intro s b hp
  refine ⟨fun k h1 h7F hr hk hs => ?_, fun h80 h1 h128 hs => ?_⟩
  · rw [exec_decRunval, decRunval_waits hp ((tagClass_run_iff _).mpr ⟨h1, h7F⟩) hr hk hs]
    rfl
  · rw [exec_decLitbyte, decLitbyte_waits hp ((tagClass_literal_iff _).mpr h80) h1 h128 hs]
    rfl

end Sys2Proof.Proofs
end

section
/-! PROOFS. A unit in DONE or FAILED has no step and stays as it is until its reset (60_exceptions.md R129, R130), and
what step answers on the host's turn and where no agent has a move (60_exceptions.md R144; log entry 5). -/

namespace Sys2Proof.Machine

/-! ### A unit in a terminal phase -/

theorem isTerminal_iff (p : Phase) : p.isTerminal = true ↔ p = .done ∨ p = .failed := by
  cases p <;> simp [Phase.isTerminal]

section
variable {u : UnitId} {s : State} (hp : (s.io u).phase.isTerminal = true)
include hp

/-- Every operation that an item can select is behind the gate (30_encoding.md R75; 60_exceptions.md R130). -/
theorem exec_terminal {i : Instr} (hsel : i.selectedIn (s.fsm u) = true) : exec i s = .fault .terminal := by
  cases u with
  | enc =>
    cases i with
    | encByteLit | encByteRun | encEosLit | encEosRun | encRderr | encRsvd =>
      exact congrArg (liftEnc s) (gate_terminal _ _ _ hp)
    | _ => cases hsel
  | dec =>
    cases i with
    | decTagSentinel | decTagRun | decTagLit | decRunval | decLitbyte | decEosIdle | decEosMid | decRderr | decRsvd =>
      exact congrArg (liftDec s) (gate_terminal _ _ _ hp)
    | _ => cases hsel

theorem feedItem_terminal (w : ItemWord) : feedItem u w s = .fault .terminal := by
  obtain ⟨-, hsel, -⟩ := decode_names (s.fsm u) w
  exact exec_terminal hp hsel

theorem unitMove_terminal : unitMove u s = .fault .terminal := by
  cases hh : (s.io u).hand with
  | some w => rw [unitMove_holding hh, resumeItem_of_fault (feedItem_terminal hp w)]
  | none =>
    cases hq : (s.io u).inQ with
    | nil => rcases (isTerminal_iff _).mp hp with h | h <;> simp [unitMove, hh, hq, h, idleFault]
    | cons w q =>
      have htake : takeItem u w s = .fault .terminal := by simp [takeItem, feedItem_terminal hp w, Fault.untaken]
      exact unitMove_taking_fault hh hq htake

theorem outstanding_terminal : outstanding u s = none := by
  cases hh : (s.io u).hand with
  | some w => simp [outstanding, hh, feedItem_terminal hp w, Fault.untaken]
  | none => simp [outstanding, hh]

end

/-! ### The flags and the ghost streams of a terminal unit -/

/-- The flags and the ghost streams of a unit (10_state.md R17, R18, R24). -/
def UnitIO.record (c : UnitIO) : Phase × ErrKind × List Byte × List Byte := (c.phase, c.err, c.IN, c.OUT)

section
variable (u v : UnitId) (s : State)

@[simp] theorem record_setInQ (q : List ItemWord) : ((s.setInQ v q).io u).record = (s.io u).record := by
  cases u <;> cases v <;> rfl

@[simp] theorem record_setHand (h : Option ItemWord) : ((s.setHand v h).io u).record = (s.io u).record := by
  cases u <;> cases v <;> rfl

@[simp] theorem record_setSink (rs : List SinkReply) : ((s.setSink v rs).io u).record = (s.io u).record := by
  cases u <;> cases v <;> rfl

@[simp] theorem record_reschedule : ((reschedule s).io u).record = (s.io u).record := by
  cases u <;> rfl

@[simp] theorem phase_setSink (rs : List SinkReply) : ((s.setSink v rs).io u).phase = (s.io u).phase := by
  cases u <;> cases v <;> rfl

end

section
variable {u v : UnitId} {s t : State}

/-- A unit's reset leaves the other unit as it is (70_reset_and_hazards.md R147). -/
theorem record_resetUnit (hv : v ≠ u) : ((resetUnit v s).io u).record = (s.io u).record := by
  cases v with
  | enc =>
    cases u with
    | enc => exact absurd rfl hv
    | dec => rfl
  | dec =>
    cases u with
    | enc => rfl
    | dec => exact absurd rfl hv

variable (hp : (s.io u).phase.isTerminal = true)
include hp

/-- The step of an item is the other unit's, and the two share nothing (10_state.md R14). -/
theorem record_feedItem {w : ItemWord} (h : feedItem v w s = .next t) : (t.io u).record = (s.io u).record := by
  have hne : v ≠ u := by
    rintro rfl
    rw [feedItem_terminal hp w] at h
    cases h
  cases v with
  | enc =>
    obtain ⟨e, -, rfl⟩ := exec_enc_next (isEncOp_decode_enc s.enc.mode w) h
    cases u with
    | enc => exact absurd rfl hne
    | dec => rfl
  | dec =>
    obtain ⟨d, -, rfl⟩ := exec_dec_next (isEncOp_decode_dec s.dec.tag w) h
    cases u with
    | enc => rfl
    | dec => exact absurd rfl hne

theorem record_unitMove (h : unitMove v s = .next t) : (t.io u).record = (s.io u).record := by
  rcases unitMove_next h with ⟨w, r, -, hr, rfl⟩ | ⟨w, q, r, -, -, hr, rfl⟩ | ⟨w, q, left, -, -, -, rfl⟩
  · rw [record_setHand, record_feedItem hp hr]
  · rw [record_setInQ, record_feedItem hp hr]
  · rw [record_setInQ, record_setHand]

theorem record_settle (v : UnitId) : ((settle v s).io u).record = (s.io u).record := by
  rcases settle_cases v s with e | ⟨w, r, -, hr, e⟩ <;> rw [e]
  rw [record_setHand, record_feedItem hp hr]

/-- A host action that is not the unit's reset. -/
theorem record_doAct {a : HostAct} (ha : a ≠ .reset u) : ((doAct a s).io u).record = (s.io u).record := by
  cases a with
  | offer v w => exact record_setInQ u v s _
  | reply v r => rw [doAct, record_settle (by rwa [phase_setSink]), record_setSink]
  | reset v => exact record_resetUnit (by rintro rfl; exact ha rfl)
  | discard v =>
    rw [doAct, discardItems]
    split
    · exact record_setInQ u v s []
    · rfl

end

/-! ### A step on the host's turn, and where no agent has a move -/

section
variable {s : State}

theorem hostMove_of_cons {a : HostAct} {rest : List HostAct} (hh : s.host = a :: rest) :
    hostMove s = .next (doAct a { s with host := rest }) := by
  simp [hostMove, hh]

theorem hostMove_of_nil (hh : s.host = []) : hostMove s = .fault .hostIdle := by
  simp [hostMove, hh]

/-- An ACTIVE unit with nothing in hand and nothing offered waits for an item (60_exceptions.md R140). -/
theorem unitMove_noItem {u : UnitId} (hh : (s.io u).hand = none) (hq : (s.io u).inQ = [])
    (hp : (s.io u).phase = .active) : unitMove u s = .fault .noItem := by
  simp [unitMove, hh, hq, hp, idleFault]

/-- Agents that all wait pass the move on to the end of the list. -/
theorem firstMove_of_waits {as : List Agent} (h : ∀ a ∈ as, ∃ f, agentMove a s = .fault f ∧ f.isWait = true) :
    firstMove as s = .fault (stuckFault s) := by
  induction as with
  | nil => rfl
  | cons a as ih =>
    obtain ⟨f, hf, hw⟩ := h a (by simp)
    rw [firstMove, hf]
    simpa [hw] using ih fun b hb => h b (by simp [hb])

/-- Where both units and the host wait, the machine stops with the reason for it (60_exceptions.md R130, R144). -/
theorem step_of_waits {f g : Fault} (hh : s.host = []) (he : unitMove .enc s = .fault f) (hf : f.isWait = true)
    (hd : unitMove .dec s = .fault g) (hg : g.isWait = true) : step s = .fault (stuckFault s) := by
  have hwait : ∀ a ∈ moveOrder s.turn, ∃ f, agentMove a s = .fault f ∧ f.isWait = true := by
    intro a _
    cases a with
    | enc => exact ⟨f, he, hf⟩
    | dec => exact ⟨g, hd, hg⟩
    | host => exact ⟨.hostIdle, hostMove_of_nil hh, rfl⟩
  rw [step, stepOnce, firstMove_of_waits hwait]

end

end Sys2Proof.Machine

namespace Sys2Proof.Proofs

open Sys2Proof.Machine

/-- Settles O45: the gate of every operation is closed, so no transaction is outstanding whatever is in hand. -/
theorem terminalUnitHasNoStep : Obligations.TerminalUnitHasNoStep := by
  intro u s hphase
  have hp := (isTerminal_iff _).mpr hphase
  refine ⟨feedItem_terminal hp, unitMove_terminal hp, ?_, ?_, hp⟩
  · rcases hphase with h | h <;> simp [outPins, h]
  · rw [outPins, outstanding_terminal hp]
    rfl

/-- Settles O52: the unit makes no move, and nothing else in a step but its reset writes its flags or ghost streams. -/
theorem terminalUntilReset : Obligations.TerminalUntilReset := by
  intro u s t hphase hhost h
  have hp := (isTerminal_iff _).mpr hphase
  have hrecord : (t.io u).record = (s.io u).record := by
    rcases step_cases h with ⟨v, r, hr, rfl⟩ | ⟨a, rest, hh, rfl⟩
    · rw [record_reschedule, record_unitMove hp hr]
    · have ha : a ≠ .reset u := by
        rintro rfl
        exact hhost (by rw [hh]; rfl)
      rw [record_reschedule]
      exact record_doAct (s := { s with host := rest }) hp ha
  simpa only [UnitIO.record, Prod.mk.injEq] using hrecord

/-- Settles O48: the host is first on its turn; where every agent waits, the phases say why nobody moves. -/
theorem stepOfHostAndOfNobody : Obligations.StepOfHostAndOfNobody := by
  refine ⟨fun s a rest hturn hh => ?_, fun s hh he hd => ?_, fun s hh heq hdq heh hdh hep hdp => ?_⟩
  · exact stepOnce_of_first (a := .host) (rest := [.enc, .dec]) (by rw [hturn]; rfl) (hostMove_of_cons hh)
  · have he := (isTerminal_iff _).mpr he
    have hd := (isTerminal_iff _).mpr hd
    rw [step_of_waits hh (unitMove_terminal (u := .enc) he) rfl (unitMove_terminal (u := .dec) hd) rfl]
    simp [stuckFault, he, hd]
  · rw [step_of_waits hh (unitMove_noItem (u := .enc) heh heq hep) rfl (unitMove_noItem (u := .dec) hdh hdq hdp) rfl]
    simp [stuckFault, hep, Phase.isTerminal]

end Sys2Proof.Proofs
end

section
/-! PROOFS. Beside BYTE items, a unit tells EOS items from all others only: neither the data field of an item
(70_reset_and_hazards.md R161) nor the bits that set a reserved item apart from RDERR (30_encoding.md R74) are read. -/

namespace Sys2Proof.Machine

section
variable (u : UnitId) (d : Byte) (s : State)

/-- ENC's mode, or whether DEC is between frames, selects the operation; the data field is not passed on to it. -/
theorem feedItem_eos : feedItem u (mkItem 0b01#2 d) s = feedItem u eosItem s := by
  cases u with
  | enc =>
    rw [feedItem, feedItem, fsm_enc, eosItem]
    cases s.enc.mode with
    | lit => rw [decode_enc_lit_eos, decode_enc_lit_eos]; rfl
    | run => rw [decode_enc_run_eos, decode_enc_run_eos]; rfl
  | dec =>
    by_cases h0 : s.dec.tag = 0x00#8
    · exact (feedItem_eos_idle d h0).trans (feedItem_eos_idle 0x00#8 h0).symm
    · exact (feedItem_eos_mid d h0).trans (feedItem_eos_mid 0x00#8 h0).symm

theorem feedItem_rderr : feedItem u (mkItem 0b10#2 d) s = feedItem u rderrItem s := by
  cases u with
  | enc => rw [feedItem, feedItem, fsm_enc, rderrItem, decode_enc_rderr, decode_enc_rderr]; rfl
  | dec => exact (feedItem_dec_rderr s d).trans (feedItem_dec_rderr s 0x00#8).symm

/-- The meaning of a reserved item is that of RDERR (30_encoding.md R74). -/
theorem feedItem_reserved : feedItem u (mkItem 0b11#2 d) s = feedItem u rderrItem s := by
  cases u with
  | enc => rw [feedItem, feedItem, fsm_enc, rderrItem, decode_enc_rsvd, decode_enc_rderr]; rfl
  | dec => exact (feedItem_dec_rsvd s d).trans (feedItem_dec_rderr s 0x00#8).symm

end

/-- The item with data 0 that a unit handles as it does every item of the kind. For BYTE, whose data is read, there is
none, and the item here is any. -/
def kindItem : ItemKind → ItemWord
  | .byte => byteItem 0x00#8
  | .eos => eosItem
  | .rderr => rderrItem
  | .reserved => rderrItem

theorem feedItem_eq_kindItem (u : UnitId) {w : ItemWord} (s : State) (h : itemKind w ≠ .byte) :
    feedItem u w s = feedItem u (kindItem (itemKind w)) s := by
  obtain ⟨d, rfl | rfl | rfl | rfl⟩ := itemWord_cases w
  · exact absurd (itemKind_mkItem 0b00#2 d) h
  · rw [itemKind_mkItem]
    exact feedItem_eos u d s
  · rw [itemKind_mkItem]
    exact feedItem_rderr u d s
  · rw [itemKind_mkItem]
    exact feedItem_reserved u d s

end Sys2Proof.Machine

namespace Sys2Proof.Proofs

open Sys2Proof.Machine

/-- Settles O43: an item's step is that of one item of its kind, and the same one stands for RDERR and reserved. -/
theorem itemDataIgnoredAndReservedActsAsReadError : Obligations.ItemDataIgnoredAndReservedActsAsReadError := by
  refine fun u w w' s => ⟨fun hkind hbyte => ?_, fun h h' => ?_⟩
  · rw [feedItem_eq_kindItem u s hbyte, hkind, ← feedItem_eq_kindItem u s (hkind ▸ hbyte)]
  · rw [feedItem_eq_kindItem u s (w := w) (by simp [h]), feedItem_eq_kindItem u s (w := w') (by simp [h']), h, h']
    rfl

end Sys2Proof.Proofs
end
